-- ==== Sys2Proof/Word.lean ====
section
/-! DEFINITION. The word types of the core and the order of bits on the wire (spec/30_encoding.md R60, spec/20_memory.md R43). -/

namespace Sys2Proof

/-- An 8-bit operand or request byte (spec/30_encoding.md R60, R66). -/
abbrev Byte := BitVec 8

/-- A 32-bit operand, value or result (spec/30_encoding.md R60). -/
abbrev Word := BitVec 32

/-- A host command word of 48 bits (spec/30_encoding.md R60). -/
abbrev CmdWord := BitVec 48

/-- A pin operand: absent, or a pin index of 31 bits (spec/30_encoding.md R64). -/
abbrev PinOperand := Option (BitVec 31)

end Sys2Proof
end

