-- ==== Sys2Proof/Config.lean ====
section
/-! DEFINITION. What an implementation fixes (spec/00_scope.md R2) and the free values. -/

namespace Sys2Proof

/-- How the pins are reached, the parameter `IMPL` (spec/00_scope.md R2, spec/60_exceptions.md R211). -/
inductive Impl where
  | direct
  | coproc
  deriving DecidableEq, Repr, Inhabited

/-- A pin function mode, a member of `PINMODE` (spec/00_scope.md R2, spec/10_state.md R23).
The platform's other functions are numbered. -/
inductive PinMode where
  | input
  | output
  | alt (k : Nat)
  deriving DecidableEq, Repr, Inhabited

/-- The parameters to which spec/00_scope.md R2 gives a value. -/
structure Decided where
  /-- `LINE_RESET_LEN`, the ones of a line reset. -/
  lineResetLen : Nat
  /-- `SEQ_JTAG_TO_SWD`. -/
  seqJtagToSwd : BitVec 16
  /-- `SEQ_SWD_TO_JTAG`. -/
  seqSwdToJtag : BitVec 16
  /-- `SWITCH_IDLE`, the idle cycles after JTAG-to-SWD. -/
  switchIdle : Nat
  /-- `FLUSH_IDLE`, the idle cycles of a flush. -/
  flushIdle : Nat
  /-- `ACK_OK`. -/
  ackOk : BitVec 3
  /-- `ACK_WAIT`. -/
  ackWait : BitVec 3
  /-- `ACK_FAULT`. -/
  ackFault : BitVec 3
  /-- `TRN`, the turnaround length in cycles. -/
  trn : Nat
  /-- `AP_DELAY_W`, the width of `AP_DELAY`. -/
  apDelayW : Nat
  /-- `RESET_ACTIVE_LOW` (spec/41_bitdriver.md R105). -/
  resetActiveLow : Bool
  deriving DecidableEq, Repr, Inhabited

/-- The "value" column of spec/00_scope.md R2. -/
def Decided.spec : Decided where
  lineResetLen := 56
  seqJtagToSwd := 0xE79E#16
  seqSwdToJtag := 0xE73C#16
  switchIdle := 8
  flushIdle := 8
  ackOk := 0b001#3
  ackWait := 0b010#3
  ackFault := 0b100#3
  trn := 1
  apDelayW := 8
  resetActiveLow := true

/-- The configuration: every parameter of spec/00_scope.md R2, those with a value first, then the OPEN ones. -/
structure Config extends Decided where
  /-- `PIN_MAX`, the largest valid pin index. -/
  pinMax : Nat
  /-- How many function modes `PINMODE` has beside `INPUT` and `OUTPUT`. -/
  altModes : Nat
  /-- `ADDR_W`, the width of `BASE`. -/
  addrW : Nat
  /-- `IMPL`. -/
  impl : Impl
  /-- `DEFAULT_BASE`. -/
  defaultBase : Nat
  /-- `DEFAULT_COEFF`. -/
  defaultCoeff : BitVec 31
  /-- `DEFAULT_OFFSET`. -/
  defaultOffset : BitVec 32
  deriving DecidableEq, Repr, Inhabited

/-- The OPEN parameters of the platform the core is built for, about which nothing is known. Log entry 5. -/
opaque Config.openPart : Config

/-- The platform the core is built for: the parameters with a value have it, the OPEN ones are free. Log entry 5. -/
def Config.platform : Config := { Config.openPart with toDecided := Decided.spec }

/-- The bits that lines the core does not drive show, one for each sample (spec/20_memory.md R46). Log entry 3. -/
opaque Config.freeLine : Nat → Bool

/-- The platform's answers to `acquire()` (spec/45_session.md R181). Log entry 3. -/
opaque Config.freeAcquire : Nat → Bool

/-- Whether the co-processor signals completion, one answer for each request (spec/60_exceptions.md R212).
Log entry 3. -/
opaque Config.freeCoproc : Nat → Bool

/-- The level of a pin named in both masks of one level write, by write and by pin (spec/20_memory.md R42).
Log entry 4. -/
opaque Config.freeLevel : Nat → Nat → Bool

end Sys2Proof
end

