-- ==== Sys2Proof/Syntax.lean ====
section
/-! DEFINITION. The operations of the core: one constructor for each row of spec/opcode_table.json, and the frames that
carry them (spec/30_encoding.md). -/

namespace Sys2Proof

/-- A logical signal (spec/10_state.md R15), in the order of the role codes of spec/30_encoding.md R63. -/
inductive Role where
  | tck
  | tms
  | tdi
  | tdo
  | trst
  | srst
  | swclk
  | swdio
  deriving DecidableEq, Repr, Inhabited

/-- Which pin set a `DRIVE` or `READ` addresses (spec/41_bitdriver.md R100). -/
inductive Flavour where
  | jtag
  | swd
  deriving DecidableEq, Repr, Inhabited

/-- One word of an `EXEC_JTAG` stream (spec/30_encoding.md R65): a primitive the stream may hold, or any other word. -/
inductive StreamWord where
  | drive (tck tms tdi : Bool)
  | read
  | reset (trst srst : Bool)
  | other (w : CmdWord)
  deriving DecidableEq, Repr, Inhabited

/-- The operations. The comment of each constructor names the rule that gives its meaning. -/
inductive Instr where
  /-- `CFG_PIN`, spec/45_session.md R170. -/
  | cfgPin (role : Byte) (pin : PinOperand)
  /-- `CFG_COEFF`, spec/45_session.md R171. -/
  | cfgCoeff (c : Word)
  /-- `CFG_OFFSET`, spec/45_session.md R175. -/
  | cfgOffset (o : Word)
  /-- `CFG_BASE`, spec/45_session.md R172. -/
  | cfgBase (a : Word)
  /-- `CFG_AP_DELAY`, spec/45_session.md R178. -/
  | cfgApDelay (n : Byte)
  /-- `INIT`, spec/45_session.md R173, R174. -/
  | init
  /-- `QUIT`, spec/45_session.md R176. -/
  | quit
  /-- `SET_SPEED`, spec/42_speed.md R124. -/
  | setSpeed (khz : Word)
  /-- `SPEED_TO_KHZ`, spec/42_speed.md R123. -/
  | speedToKhz (delay : Word)
  /-- `KHZ_TO_SPEED`, spec/42_speed.md R120, R121. -/
  | khzToSpeed (khz : Word)
  /-- `EXEC_JTAG`, spec/45_session.md R180; the words that follow it are its stream. -/
  | execJtag (count : Word) (stream : List StreamWord)
  /-- `SWD_INIT`, spec/45_session.md R179. -/
  | swdInit
  /-- `SWITCH_SEQ LINE_RESET`, spec/44_sequences.md R161. -/
  | switchLineReset
  /-- `SWITCH_SEQ JTAG_TO_SWD`, spec/44_sequences.md R162. -/
  | switchJtagToSwd
  /-- `SWITCH_SEQ SWD_TO_JTAG`, spec/44_sequences.md R163. -/
  | switchSwdToJtag
  /-- `SWITCH_SEQ` with another identifier, spec/44_sequences.md R164. -/
  | switchUnsupported (id : Byte)
  /-- `READ_REG`, spec/43_swd_engine.md R141. -/
  | readReg (cmd : Byte)
  /-- `WRITE_REG`, spec/43_swd_engine.md R135. -/
  | writeReg (cmd : Byte) (value : Word)
  /-- `RUN_QUEUE`, spec/43_swd_engine.md R145. -/
  | runQueue
  /-- `DRIVE`, spec/41_bitdriver.md R101. -/
  | drive (f : Flavour) (clk tms data : Bool)
  /-- `READ`, spec/41_bitdriver.md R103. -/
  | read (f : Flavour)
  /-- `RESET`, spec/41_bitdriver.md R104. -/
  | reset (trst srst : Bool)
  /-- `DRIVE_DIRECTION`, spec/41_bitdriver.md R106. -/
  | driveDirection (output : Bool)
  /-- `VALIDATE`, spec/40_pinmux.md R90. -/
  | validate (pin : PinOperand)
  /-- `CLAIM_OUT`, spec/40_pinmux.md R91. -/
  | claimOut (pin : PinOperand)
  /-- `CLAIM_IN`, spec/40_pinmux.md R92. -/
  | claimIn (pin : PinOperand)
  /-- `RESTORE`, spec/40_pinmux.md R93. -/
  | restore (pin : PinOperand)
  /-- The request of a debug-port write, spec/30_encoding.md R68; `p` parity, then address bits A3 and A2. -/
  | swdRequestDpWrite (p a3 a2 : Bool)
  /-- The request of a debug-port read, spec/30_encoding.md R68. -/
  | swdRequestDpRead (p a3 a2 : Bool)
  /-- The request of an access-port write, spec/30_encoding.md R68. -/
  | swdRequestApWrite (p a3 a2 : Bool)
  /-- The request of an access-port read, spec/30_encoding.md R68. -/
  | swdRequestApRead (p a3 a2 : Bool)
  /-- The ACK `OK`, spec/43_swd_engine.md R136. -/
  | swdAckOk
  /-- The ACK `WAIT`, spec/43_swd_engine.md R136. -/
  | swdAckWait
  /-- The ACK `FAULT`, spec/43_swd_engine.md R136. -/
  | swdAckFault
  /-- An undecodable ACK, spec/43_swd_engine.md R136. -/
  | swdAckUndecodable (ack : BitVec 3)
  /-- The data phase: a value and its parity bit, spec/30_encoding.md R70. -/
  | swdData (value : Word) (parity : Bool)
  /-- The line reset on the wire, spec/44_sequences.md R161. -/
  | seqLineReset
  /-- The JTAG-to-SWD sequence on the wire, spec/44_sequences.md R162. -/
  | seqJtagToSwd
  /-- The SWD-to-JTAG sequence on the wire, spec/44_sequences.md R163. -/
  | seqSwdToJtag
  /-- The status code `OK`, spec/30_encoding.md R72. -/
  | statusOk
  /-- The status code `FAIL`, spec/30_encoding.md R72. -/
  | statusFail
  /-- The status code `WAIT`, spec/30_encoding.md R72. -/
  | statusWait
  /-- The status code `NOT_SUPPORTED`, spec/30_encoding.md R72. -/
  | statusNotSupported
  deriving DecidableEq, Repr, Inhabited

/-- Who may issue an operation (spec/30_encoding.md R61); the wire formats and the status codes are no operations
of a port. -/
inductive Level where
  | host
  | internal
  | format
  deriving DecidableEq, Repr, Inhabited

/-- The "level" column of spec/30_encoding.md R61. -/
def Instr.level : Instr → Level
  | .cfgPin _ _ | .cfgCoeff _ | .cfgOffset _ | .cfgBase _ | .cfgApDelay _ => .host
  | .init | .quit | .setSpeed _ | .speedToKhz _ | .khzToSpeed _ | .execJtag _ _ | .swdInit => .host
  | .switchLineReset | .switchJtagToSwd | .switchSwdToJtag | .switchUnsupported _ => .host
  | .readReg _ | .writeReg _ _ | .runQueue => .host
  | .drive _ _ _ _ | .read _ | .reset _ _ | .driveDirection _ => .internal
  | .validate _ | .claimOut _ | .claimIn _ | .restore _ => .internal
  | .swdRequestDpWrite _ _ _ | .swdRequestDpRead _ _ _ | .swdRequestApWrite _ _ _ | .swdRequestApRead _ _ _ => .format
  | .swdAckOk | .swdAckWait | .swdAckFault | .swdAckUndecodable _ | .swdData _ _ => .format
  | .seqLineReset | .seqJtagToSwd | .seqSwdToJtag => .format
  | .statusOk | .statusFail | .statusWait | .statusNotSupported => .format

/-- The encodings of spec/opcode_table.json, one constructor for each of its formats and widths. The table is written with
the values of spec/00_scope.md R2 (log entry 32). -/
inductive Frame where
  /-- Format `host_cmd48`: a command word and, for `EXEC_JTAG`, the words of its stream. -/
  | words (ws : List CmdWord)
  /-- Format `swd_request8`. -/
  | request (b : Byte)
  /-- Format `swd_ack3`. -/
  | ack (b : BitVec 3)
  /-- Format `swd_data33`: bits 31:0 the value, bit 32 the parity bit. -/
  | data (b : BitVec 33)
  /-- Format `swd_sequence`, 16 bits. -/
  | seq16 (b : BitVec 16)
  /-- Format `swd_sequence`, `LINE_RESET_LEN` bits. -/
  | seqReset (b : BitVec Decided.spec.lineResetLen)
  /-- Format `status2`. -/
  | status (b : BitVec 2)
  deriving DecidableEq, Repr, Inhabited

end Sys2Proof
end

