-- ==== Sys2Proof/WellFormed.lean ====
section
/-! DEFINITION. Which terms of the syntax stand for an operation (spec/30_encoding.md R65, R69, R71). -/

namespace Sys2Proof

/-- A word an `EXEC_JTAG` stream may hold: `DRIVE` or `READ` with flavour JTAG, or `RESET` (spec/30_encoding.md R65, R73). -/
def allowedInStream (w : CmdWord) : Bool :=
  let op := w.extractLsb' 40 8
  ((op == 0x30#8 || op == 0x31#8) && !w.getLsbD 35) || op == 0x32#8

/-- A word is kept raw only when the stream may not hold it. -/
def StreamWord.wf : StreamWord → Bool
  | .drive _ _ _ | .read | .reset _ _ => true
  | .other w => !allowedInStream w

/-- Well-formedness: the stream of `EXEC_JTAG` has as many words as its count says (R65), the fallback row of
`SWITCH_SEQ` holds no identifier of another row (R71), the fallback row of the ACK holds no decodable value (R69). -/
def Instr.wf : Instr → Bool
  | .execJtag n ws => ws.length == n.toNat && ws.all StreamWord.wf
  | .switchUnsupported id => 3 ≤ id.toNat
  | .swdAckUndecodable a => a != Decided.spec.ackOk && a != Decided.spec.ackWait && a != Decided.spec.ackFault
  | .cfgPin _ _ | .cfgCoeff _ | .cfgOffset _ | .cfgBase _ | .cfgApDelay _ => true
  | .init | .quit | .setSpeed _ | .speedToKhz _ | .khzToSpeed _ | .swdInit => true
  | .switchLineReset | .switchJtagToSwd | .switchSwdToJtag => true
  | .readReg _ | .writeReg _ _ | .runQueue => true
  | .drive _ _ _ _ | .read _ | .reset _ _ | .driveDirection _ => true
  | .validate _ | .claimOut _ | .claimIn _ | .restore _ => true
  | .swdRequestDpWrite _ _ _ | .swdRequestDpRead _ _ _ | .swdRequestApWrite _ _ _ | .swdRequestApRead _ _ _ => true
  | .swdAckOk | .swdAckWait | .swdAckFault | .swdData _ _ => true
  | .seqLineReset | .seqJtagToSwd | .seqSwdToJtag => true
  | .statusOk | .statusFail | .statusWait | .statusNotSupported => true

end Sys2Proof
end

