-- ==== Sys2Proof/Decode.lean ====
section
/-! DEFINITION. The decoder, total on frames and rejecting by name, then the encoder (spec/30_encoding.md). -/

namespace Sys2Proof

/-- Why a frame is no operation. -/
inductive DecodeError where
  /-- No command word at all. -/
  | emptyFrame
  /-- An operation code that spec/30_encoding.md R61 does not list. -/
  | unknownOp (op : Byte)
  /-- Words follow an operation of one word (R75). -/
  | trailingWords
  /-- The number of words after `EXEC_JTAG` is not its count (R65). -/
  | streamLength
  /-- A request byte without the framing bits of R66. -/
  | badFraming
  /-- A bit sequence that is none of R71. -/
  | unknownSequence
  deriving DecidableEq, Repr

/-- Bits 47:40 of a command word (R60). -/
def opField (w : CmdWord) : Byte := w.extractLsb' 40 8

/-- Bits 39:32 of a command word (R60). -/
def a8Field (w : CmdWord) : Byte := w.extractLsb' 32 8

/-- Bits 31:0 of a command word (R60). -/
def a32Field (w : CmdWord) : Word := w.extractLsb' 0 32

/-- A pin operand: bit 31 set means absent, else the index in bits 30:0 (R64). -/
def pinOperand (x : Word) : PinOperand :=
  if x.getLsbD 31 then none else some (x.extractLsb' 0 31)

/-- How many words follow a command word: its count after `EXEC_JTAG`, none otherwise (R75). -/
def extraWords (w : CmdWord) : Nat :=
  if opField w = 0x15#8 then (a32Field w).toNat else 0

/-- One word of an `EXEC_JTAG` stream (R65), its operands packed as R73 says. -/
def decodeStream (w : CmdWord) : StreamWord :=
  if allowedInStream w then
    match opField w with
    | 0x30#8 => .drive (w.getLsbD 32) (w.getLsbD 33) (w.getLsbD 34)
    | 0x31#8 => .read
    | _ => .reset (w.getLsbD 32) (w.getLsbD 33)
  else .other w

/-- The four rows of `SWITCH_SEQ`, by identifier (R71). -/
def decodeSwitch (id : Byte) : Instr :=
  match id with
  | 0#8 => .switchLineReset
  | 1#8 => .switchJtagToSwd
  | 2#8 => .switchSwdToJtag
  | _ => .switchUnsupported id

/-- A flavour bit (R73). -/
def flavourOf (b : Bool) : Flavour := if b then .swd else .jtag

/-- An operation of one word (R61 to R64, R73). Bits that no operand uses are ignored (R74). -/
def decodeSingle (w : CmdWord) : Except DecodeError Instr :=
  let a8 := a8Field w
  let a32 := a32Field w
  match opField w with
  | 0x01#8 => .ok (.cfgPin a8 (pinOperand a32))
  | 0x02#8 => .ok (.cfgCoeff a32)
  | 0x03#8 => .ok (.cfgOffset a32)
  | 0x04#8 => .ok (.cfgBase a32)
  | 0x05#8 => .ok (.cfgApDelay a8)
  | 0x10#8 => .ok .init
  | 0x11#8 => .ok .quit
  | 0x12#8 => .ok (.setSpeed a32)
  | 0x13#8 => .ok (.speedToKhz a32)
  | 0x14#8 => .ok (.khzToSpeed a32)
  | 0x20#8 => .ok .swdInit
  | 0x21#8 => .ok (decodeSwitch a8)
  | 0x22#8 => .ok (.readReg a8)
  | 0x23#8 => .ok (.writeReg a8 a32)
  | 0x24#8 => .ok .runQueue
  | 0x30#8 => .ok (.drive (flavourOf (a8.getLsbD 3)) (a8.getLsbD 0) (a8.getLsbD 1) (a8.getLsbD 2))
  | 0x31#8 => .ok (.read (flavourOf (a8.getLsbD 3)))
  | 0x32#8 => .ok (.reset (a8.getLsbD 0) (a8.getLsbD 1))
  | 0x33#8 => .ok (.driveDirection (a8.getLsbD 0))
  | 0x40#8 => .ok (.validate (pinOperand a32))
  | 0x41#8 => .ok (.claimOut (pinOperand a32))
  | 0x42#8 => .ok (.claimIn (pinOperand a32))
  | 0x43#8 => .ok (.restore (pinOperand a32))
  | op => .error (.unknownOp op)

/-- A command word and the words that follow it (R65, R75). -/
def decodeWords : List CmdWord → Except DecodeError Instr
  | [] => .error .emptyFrame
  | w :: ws =>
    if opField w = 0x15#8 then
      if ws.length = (a32Field w).toNat then .ok (.execJtag (a32Field w) (ws.map decodeStream))
      else .error .streamLength
    else
      match ws with
      | [] => decodeSingle w
      | _ :: _ => .error .trailingWords

/-- A request byte: bit 0 Start = 1, bit 6 Stop = 0, bit 7 Park = 1, then the four kinds by bits 2 and 1 (R66, R68). -/
def decodeRequest (b : Byte) : Except DecodeError Instr :=
  if b.getLsbD 0 && !b.getLsbD 6 && b.getLsbD 7 then
    let p := b.getLsbD 5
    let a3 := b.getLsbD 4
    let a2 := b.getLsbD 3
    match b.getLsbD 2, b.getLsbD 1 with
    | false, false => .ok (.swdRequestDpWrite p a3 a2)
    | true, false => .ok (.swdRequestDpRead p a3 a2)
    | false, true => .ok (.swdRequestApWrite p a3 a2)
    | true, true => .ok (.swdRequestApRead p a3 a2)
  else .error .badFraming

/-- A received ACK (R69), its row at the values of spec/00_scope.md R2 (log entry 32). -/
def decodeAckFrame (a : BitVec 3) : Instr :=
  if a = Decided.spec.ackOk then .swdAckOk
  else if a = Decided.spec.ackWait then .swdAckWait
  else if a = Decided.spec.ackFault then .swdAckFault
  else .swdAckUndecodable a

/-- A status code (R72). -/
def decodeStatus (c : BitVec 2) : Instr :=
  match c with
  | 0#2 => .statusOk
  | 1#2 => .statusFail
  | 2#2 => .statusWait
  | _ => .statusNotSupported

/-- The decoder; the rows of the sequences are at the values of spec/00_scope.md R2 (log entry 32). -/
def decode : Frame → Except DecodeError Instr
  | .words ws => decodeWords ws
  | .request b => decodeRequest b
  | .ack a => .ok (decodeAckFrame a)
  | .data d => .ok (.swdData (d.extractLsb' 0 32) (d.getLsbD 32))
  | .seq16 b =>
    if b = Decided.spec.seqJtagToSwd then .ok .seqJtagToSwd
    else if b = Decided.spec.seqSwdToJtag then .ok .seqSwdToJtag
    else .error .unknownSequence
  | .seqReset b => if b = BitVec.allOnes _ then .ok .seqLineReset else .error .unknownSequence
  | .status c => .ok (decodeStatus c)

/-- The words of a command frame laid out in the bits of a table word: the first word in bits 47:0, the words after
`EXEC_JTAG` above it. -/
def tableWords (w : Nat) : List CmdWord :=
  let first := BitVec.ofNat 48 w
  first :: (List.range (extraWords first)).map fun k => BitVec.ofNat 48 (w >>> (48 * (k + 1)))

/-- Which format of spec/opcode_table.json a bit string of `nbits` bits has. The table does not name a format by
its bits, and formats of 3 and of 2 bits both fill one byte: log entry 19. -/
def frameOfTableWord (nbits w : Nat) : Option Frame :=
  if nbits = 2 then some (.status (BitVec.ofNat 2 w))
  else if nbits = 3 then some (.ack (BitVec.ofNat 3 w))
  else if nbits = 8 then
    if w.testBit 7 then some (.request (BitVec.ofNat 8 w))
    else if w % 256 = 0 || w % 256 = 3 then some (.status (BitVec.ofNat 2 w))
    else if w % 256 < 8 then some (.ack (BitVec.ofNat 3 w))
    else none
  else if nbits = 16 then some (.seq16 (BitVec.ofNat 16 w))
  else if nbits = 33 || nbits = 40 then some (.data (BitVec.ofNat 33 w))
  else if nbits = Decided.spec.lineResetLen then some (.seqReset (BitVec.ofNat _ w))
  else if 48 ≤ nbits then some (.words (tableWords (w % 2 ^ nbits)))
  else none

/-- The instruction the decoder reads from a bit string of the opcode table. -/
def decodeTableWord (nbits w : Nat) : Option Instr :=
  match frameOfTableWord nbits w with
  | none => none
  | some f =>
    match decode f with
    | .ok i => some i
    | .error _ => none

/-! The encoder, from the same tables. -/

/-- A command word from its three fields (R60). -/
def commandWord (op a8 : Byte) (a32 : Word) : CmdWord := op ++ a8 ++ a32

/-- A pin operand, absent in its canonical spelling (R64). -/
def encodePin : PinOperand → Word
  | none => 0xFFFFFFFF#32
  | some p => p.setWidth 32

/-- Packs up to four operand bits into `a8`, bit 0 first (R73). -/
def packBits (b0 b1 b2 b3 : Bool) : Byte :=
  0#4 ++ BitVec.ofBool b3 ++ BitVec.ofBool b2 ++ BitVec.ofBool b1 ++ BitVec.ofBool b0

/-- The flavour bit (R73). -/
def flavourBit : Flavour → Bool
  | .jtag => false
  | .swd => true

/-- A word of an `EXEC_JTAG` stream (R65, R73). -/
def encodeStream : StreamWord → CmdWord
  | .drive tck tms tdi => commandWord 0x30 (packBits tck tms tdi false) 0
  | .read => commandWord 0x31 0 0
  | .reset trst srst => commandWord 0x32 (packBits trst srst false false) 0
  | .other w => w

/-- A request byte, bit 7 on the left: `10pba` then RnW, APnDP and 1 (R68). -/
def requestByte (p a3 a2 rnw ap : Bool) : Byte :=
  0b10#2 ++ BitVec.ofBool p ++ BitVec.ofBool a3 ++ BitVec.ofBool a2 ++ BitVec.ofBool rnw ++ BitVec.ofBool ap ++ 1#1

/-- A frame of one command word. -/
def oneWord (op a8 : Byte) (a32 : Word) : Frame := .words [commandWord op a8 a32]

/-- The encoder; operand fields an operation does not use are zero (R60). -/
def encode : Instr → Frame
  | .cfgPin role pin => oneWord 0x01 role (encodePin pin)
  | .cfgCoeff c => oneWord 0x02 0 c
  | .cfgOffset o => oneWord 0x03 0 o
  | .cfgBase a => oneWord 0x04 0 a
  | .cfgApDelay n => oneWord 0x05 n 0
  | .init => oneWord 0x10 0 0
  | .quit => oneWord 0x11 0 0
  | .setSpeed khz => oneWord 0x12 0 khz
  | .speedToKhz d => oneWord 0x13 0 d
  | .khzToSpeed khz => oneWord 0x14 0 khz
  | .execJtag n ws => .words (commandWord 0x15 0 n :: ws.map encodeStream)
  | .swdInit => oneWord 0x20 0 0
  | .switchLineReset => oneWord 0x21 0 0
  | .switchJtagToSwd => oneWord 0x21 1 0
  | .switchSwdToJtag => oneWord 0x21 2 0
  | .switchUnsupported id => oneWord 0x21 id 0
  | .readReg cmd => oneWord 0x22 cmd 0
  | .writeReg cmd v => oneWord 0x23 cmd v
  | .runQueue => oneWord 0x24 0 0
  | .drive f clk tms data => oneWord 0x30 (packBits clk tms data (flavourBit f)) 0
  | .read f => oneWord 0x31 (packBits false false false (flavourBit f)) 0
  | .reset trst srst => oneWord 0x32 (packBits trst srst false false) 0
  | .driveDirection out => oneWord 0x33 (packBits out false false false) 0
  | .validate pin => oneWord 0x40 0 (encodePin pin)
  | .claimOut pin => oneWord 0x41 0 (encodePin pin)
  | .claimIn pin => oneWord 0x42 0 (encodePin pin)
  | .restore pin => oneWord 0x43 0 (encodePin pin)
  | .swdRequestDpWrite p a3 a2 => .request (requestByte p a3 a2 false false)
  | .swdRequestDpRead p a3 a2 => .request (requestByte p a3 a2 true false)
  | .swdRequestApWrite p a3 a2 => .request (requestByte p a3 a2 false true)
  | .swdRequestApRead p a3 a2 => .request (requestByte p a3 a2 true true)
  | .swdAckOk => .ack Decided.spec.ackOk
  | .swdAckWait => .ack Decided.spec.ackWait
  | .swdAckFault => .ack Decided.spec.ackFault
  | .swdAckUndecodable a => .ack a
  | .swdData v p => .data (BitVec.ofBool p ++ v)
  | .seqLineReset => .seqReset (BitVec.allOnes _)
  | .seqJtagToSwd => .seq16 Decided.spec.seqJtagToSwd
  | .seqSwdToJtag => .seq16 Decided.spec.seqSwdToJtag
  | .statusOk => .status 0
  | .statusFail => .status 1
  | .statusWait => .status 2
  | .statusNotSupported => .status 3

end Sys2Proof
end

