-- ==== Sys2Proof/Machine/State.lean ====
section
/-! DEFINITION. The state of the core as plain data (spec/10_state.md R10), the reasons a step can stop, and the state
after power-on reset (spec/70_reset_and_hazards.md R220). -/

namespace Sys2Proof.Machine

/-- A status code (spec/30_encoding.md R72). -/
inductive Code where
  | ok
  | fail
  | wait
  | notSupported
  deriving DecidableEq, Repr, Inhabited

/-- A value of `QCODE` (spec/10_state.md R13): `NOT_SUPPORTED` is never latched. -/
inductive QCode where
  | ok
  | fail
  | wait
  deriving DecidableEq, Repr, Inhabited

/-- `SESSION` (spec/10_state.md R19). -/
inductive Session where
  | inactive
  | active
  deriving DecidableEq, Repr, Inhabited

/-- `TMODE` (spec/10_state.md R19). -/
inductive TMode where
  | none
  | jtag
  | swd
  | dual
  deriving DecidableEq, Repr, Inhabited

/-- `SWDIO_DIR` (spec/10_state.md R21). -/
inductive Dir where
  | out
  | inp
  deriving DecidableEq, Repr, Inhabited

/-- The document's engine state, a function of two flags and not stored (spec/10_state.md R14). -/
inductive Engine where
  | idle
  | executing
  | faulted
  deriving DecidableEq, Repr, Inhabited

/-- An event of the wire history (spec/10_state.md R30). -/
inductive Event where
  /-- A `DRIVE`; the `tms` level is absent with flavour SWD. -/
  | lv (f : Flavour) (clk : Bool) (tms : Option Bool) (data : Bool)
  /-- A `READ` that returned `b`. -/
  | smp (f : Flavour) (b : Bool)
  /-- A `DRIVE_DIRECTION`. -/
  | dir (d : Dir)
  /-- A `RESET`. -/
  | rst (trst srst : Bool)
  /-- A write of `FUNC[p]`. -/
  | fn (p : Nat) (m : PinMode)
  deriving DecidableEq, Repr, Inhabited

/-- `PINCFG`: for each role its physical pin, or absent (spec/10_state.md R15). -/
structure PinCfg where
  tck : PinOperand
  tms : PinOperand
  tdi : PinOperand
  tdo : PinOperand
  trst : PinOperand
  srst : PinOperand
  swclk : PinOperand
  swdio : PinOperand
  deriving DecidableEq, Repr, Inhabited

/-- A table with one entry for each physical pin, in one canonical form: pins strictly rising, no entry equal to what
an unlisted pin reads as. Log entry 8. -/
abbrev PinTable (α : Type) := List (Nat × α)

/-- Bits the environment supplies: those given, oldest first, then free values, counted. Log entry 3. -/
structure Source where
  given : List Bool
  used : Nat
  deriving DecidableEq, Repr, Inhabited

/-- One entry of the operation stream. Log entries 1 and 2. -/
inductive Request where
  /-- A command word the host has issued (spec/30_encoding.md R60). -/
  | host (w : CmdWord)
  /-- A request of one component of the core to another (spec/30_encoding.md R61, level internal), or a wire format. -/
  | component (f : Frame)
  deriving DecidableEq, Repr, Inhabited

/-- The state of the machine. The fields down to `latch` are the table of spec/10_state.md R10; the others are the
modelling aids and the inputs of the step (INVENTORY.md, State). -/
structure State where
  /-- The parameters of spec/00_scope.md R2; no operation writes them. -/
  cfg : Config
  /-- `A8`. -/
  a8 : Byte
  /-- `A32`. -/
  a32 : Word
  /-- `STATUS`. -/
  status : Code
  /-- `RDATA`. -/
  rdata : Word
  /-- `RPAR`. -/
  rpar : Bool
  /-- `ROUT`. -/
  rout : Word
  /-- `QCODE`. -/
  qcode : QCode
  /-- `BATCH_OPEN`. -/
  batchOpen : Bool
  /-- `PINCFG`. -/
  pincfg : PinCfg
  /-- `COEFF`. -/
  coeff : BitVec 31
  /-- `OFFSET`, read as two's complement. -/
  offset : BitVec 32
  /-- `BASE`, below `2 ^ ADDR_W`. -/
  base : Nat
  /-- `AP_DELAY`, below `2 ^ AP_DELAY_W`. -/
  apDelay : Nat
  /-- `SESSION`. -/
  session : Session
  /-- `TMODE`. -/
  tmode : TMode
  /-- `DELAY`. -/
  delay : Word
  /-- `SWDIO_DIR`. -/
  swdioDir : Dir
  /-- `RES_HELD`. -/
  resHeld : Bool
  /-- `CLAIMED[p]`; an unlisted pin is not claimed. -/
  claimed : PinTable Bool
  /-- `SAVED[p]`; an unlisted pin reads `INPUT`. Log entry 6. -/
  saved : PinTable PinMode
  /-- `FUNC[p]`; an unlisted pin reads `INPUT`. Log entry 7. -/
  func : PinTable PinMode
  /-- `LATCH[p]`; an unlisted pin reads 0. Log entry 7. -/
  latch : PinTable Bool
  /-- `TRACE`, oldest event first (spec/10_state.md R30). Log entry 22. -/
  trace : List Event
  /-- Iterations of the delay loop so far, the ghost counter of spec/70_reset_and_hazards.md R240. Log entry 22. -/
  waited : Nat
  /-- The bits the last completed `EXEC_JTAG` returned (spec/45_session.md R180). Log entry 16. -/
  jtagOut : List Bool
  /-- The operation stream. Log entries 1 and 2. -/
  pending : List Request
  /-- What lines the core does not drive will show (spec/20_memory.md R46). Log entry 3. -/
  lineSrc : Source
  /-- What `acquire()` will answer (spec/45_session.md R181). Log entry 3. -/
  acquireSrc : Source
  /-- Whether the co-processor will signal completion (spec/60_exceptions.md R212). Log entry 3. -/
  coprocSrc : Source
  /-- How many level writes have named a pin in both masks (spec/20_memory.md R42). Log entry 4. -/
  levelDraws : Nat
  deriving DecidableEq, Repr, Inhabited

/-- Why the machine stops for good. -/
inductive Fault where
  /-- The co-processor never signals completion and the core hangs in the middle of an operation, in the state `hung`:
  the effects of the earlier steps in force and no status returned (spec/60_exceptions.md R212). Raised by every
  operation that makes a request of the co-processor, only with `IMPL = COPROC`. Safe: nothing is claimed of a
  machine that hangs, and the outcome is the spec's own. -/
  | stuck (hung : State)
  deriving DecidableEq, Repr

/-- Why an operation has no meaning: spec/60_exceptions.md R200 says a model refuses these. Each is safe: the model
claims nothing where hardware may go on. -/
inductive Refusal where
  /-- The instruction is not modelled. Raised by `exec` alone, where an arm says so; no arm does. Safe. -/
  | notModelled (mnemonic : String)
  /-- An SWD engine or sequence operation without a session of SWD capability (R200 a). Raised by `WRITE_REG`,
  `READ_REG`, `RUN_QUEUE` and `SWITCH_SEQ` with a known identifier. Safe. -/
  | noSwd
  /-- A driver primitive of a flavour that is not enabled (R200 a, b). Raised by `DRIVE`, `READ`, `DRIVE_DIRECTION`, by
  the wire formats the core sends and by `EXEC_JTAG` at its first such primitive. Safe. -/
  | flavourDisabled
  /-- `RESET` or `EXEC_JTAG` outside a session (R200 c). Raised by these two. Safe. -/
  | noSession
  /-- An invalid or absent pin where one is needed (R200 d). Raised by `CLAIM_OUT` and `CLAIM_IN`, and by a driver
  primitive whose own pin is absent, which no session that `INIT` started allows (log entry 21). Safe. -/
  | badPin
  /-- The read-direction bit is set in the `cmd` of a write (R200 e, assertion A1). Raised by `WRITE_REG`. Safe. -/
  | assertRnwOnWrite
  /-- The read-direction bit is clear in the `cmd` of a read (R200 e, assertion A2). Raised by `READ_REG`. Safe. -/
  | assertNoRnwOnRead
  /-- A component request that no encoding of spec/opcode_table.json gives a meaning. Raised by `step`; the host cannot
  make one, since its words are answered `NOT_SUPPORTED` (spec/30_encoding.md R74). Safe. -/
  | badFrame
  deriving DecidableEq, Repr

/-- How a part of an operation ends: with a value, hung, or refused (spec/60_exceptions.md R190). -/
inductive Res (α : Type) where
  | ok (a : α) (s : State)
  | stuck (hung : State)
  | refused (r : Refusal)
  deriving Repr

/-- `PINCFG` with every role absent. -/
def PinCfg.allAbsent : PinCfg := ⟨none, none, none, none, none, none, none, none⟩

/-- The state after power-on reset on a platform `c` (spec/70_reset_and_hazards.md R220). The values the spec leaves
unspecified are those of log entries 6 and 7, the model's own fields those of log entries 3, 4, 16, 20 and 22. -/
def State.resetOn (c : Config) : State where
  cfg := c
  a8 := 0
  a32 := 0
  status := .ok
  rdata := 0
  rpar := false
  rout := 0
  qcode := .ok
  batchOpen := false
  pincfg := PinCfg.allAbsent
  coeff := c.defaultCoeff
  offset := c.defaultOffset
  base := c.defaultBase % 2 ^ c.addrW
  apDelay := 0
  session := .inactive
  tmode := .none
  delay := 0
  swdioDir := .out
  resHeld := false
  claimed := []
  saved := []
  func := []
  latch := []
  trace := []
  waited := 0
  jtagOut := []
  pending := []
  lineSrc := ⟨[], 0⟩
  acquireSrc := ⟨[], 0⟩
  coprocSrc := ⟨[], 0⟩
  levelDraws := 0

/-- The machine right after reset, on the platform it is built for (log entry 5). -/
def State.reset : State := State.resetOn Config.platform

end Sys2Proof.Machine
end

