-- ==== Sys2Proof/Machine/Ops.lean ====
section
/-! DEFINITION. The named operations over the state: pin tables, draws, the four accesses to the I/O controller
(spec/20_memory.md R41), claiming and restoring pins, returning a status, latching a fault and flushing it. -/

namespace Sys2Proof.Machine

/-! Sequencing. -/

/-- Runs `f` after `r`, unless `r` hung or was refused (spec/20_memory.md R49: one access after another). -/
def Res.andThen {α β : Type} (r : Res α) (f : α → State → Res β) : Res β :=
  match r with
  | .ok a s => f a s
  | .stuck h => .stuck h
  | .refused e => .refused e

/-- The outcome of a whole operation (spec/60_exceptions.md R190). -/
def finish (r : Res Unit) : Host.Outcome State Fault Refusal :=
  match r with
  | .ok _ s => .next s
  | .stuck h => .fault (.stuck h)
  | .refused e => .refused e

/-! Pin tables (log entry 8). -/

/-- What the table holds for a pin; `d` is what an unlisted pin reads as. -/
def tableRead {α : Type} (d : α) : PinTable α → Nat → α
  | [], _ => d
  | (q, v) :: t, p => if q = p then v else tableRead d t p

/-- Puts an entry at its place by pin. -/
def tableInsert {α : Type} (p : Nat) (v : α) : PinTable α → PinTable α
  | [] => [(p, v)]
  | (q, w) :: t => if p < q then (p, v) :: (q, w) :: t else (q, w) :: tableInsert p v t

/-- Takes a pin's entry out. -/
def tableErase {α : Type} (p : Nat) (t : PinTable α) : PinTable α := t.filter fun e => e.1 != p

/-- Sets a pin's entry, keeping the canonical form: writing what an unlisted pin reads as removes the entry. -/
def tableWrite {α : Type} [DecidableEq α] (d : α) (t : PinTable α) (p : Nat) (v : α) : PinTable α :=
  if v = d then tableErase p t else tableInsert p v (tableErase p t)

/-- The canonical form: pins strictly rising, no entry equal to the default. -/
def tableWf {α : Type} [DecidableEq α] (d : α) (t : PinTable α) : Bool :=
  decide ((t.map Prod.fst).Pairwise (· < ·)) && t.all fun e => e.2 != d

/-- `CLAIMED[p]` (spec/10_state.md R22). -/
def State.isClaimed (s : State) (p : Nat) : Bool := tableRead false s.claimed p

/-- `SAVED[p]` (spec/10_state.md R22). -/
def State.savedMode (s : State) (p : Nat) : PinMode := tableRead .input s.saved p

/-- `FUNC[p]` (spec/10_state.md R23). -/
def State.funcOf (s : State) (p : Nat) : PinMode := tableRead .input s.func p

/-- `LATCH[p]` (spec/10_state.md R23). -/
def State.latchOf (s : State) (p : Nat) : Bool := tableRead false s.latch p

/-! `PINCFG` (spec/10_state.md R15). -/

/-- The pin operand configured for a role. -/
def PinCfg.get (c : PinCfg) : Role → PinOperand
  | .tck => c.tck
  | .tms => c.tms
  | .tdi => c.tdi
  | .tdo => c.tdo
  | .trst => c.trst
  | .srst => c.srst
  | .swclk => c.swclk
  | .swdio => c.swdio

/-- Configures a role. -/
def PinCfg.set (c : PinCfg) (r : Role) (x : PinOperand) : PinCfg :=
  match r with
  | .tck => { c with tck := x }
  | .tms => { c with tms := x }
  | .tdi => { c with tdi := x }
  | .tdo => { c with tdo := x }
  | .trst => { c with trst := x }
  | .srst => { c with srst := x }
  | .swclk => { c with swclk := x }
  | .swdio => { c with swdio := x }

/-! Draws (log entry 3). -/

/-- The next bit of a source: the oldest bit given, or a free value once none is left. -/
def Source.draw (free : Nat → Bool) (src : Source) : Bool × Source :=
  match src.given with
  | b :: bs => (b, { src with given := bs })
  | [] => (free src.used, { src with used := src.used + 1 })

/-- `draw_bit()`: what a line the core does not drive shows (spec/20_memory.md R46). -/
def drawLine (s : State) : Bool × State :=
  ((s.lineSrc.draw Config.freeLine).1, { s with lineSrc := (s.lineSrc.draw Config.freeLine).2 })

/-- The platform's answer to `acquire()` (spec/45_session.md R181). -/
def drawAcquire (s : State) : Bool × State :=
  ((s.acquireSrc.draw Config.freeAcquire).1, { s with acquireSrc := (s.acquireSrc.draw Config.freeAcquire).2 })

/-- One request of the co-processor, when there is one: it completes, or the core hangs here
(spec/60_exceptions.md R211, R212). Log entries 10 and 11. -/
def rendezvous (s : State) : Res Unit :=
  match s.cfg.impl with
  | .direct => .ok () s
  | .coproc =>
    let s' := { s with coprocSrc := (s.coprocSrc.draw Config.freeCoproc).2 }
    if (s.coprocSrc.draw Config.freeCoproc).1 then .ok () s' else .stuck s'

/-! The wire history and the wait counter (log entry 22). -/

/-- `trace(e)` (spec/10_state.md R30). -/
def record (e : Event) (s : State) : State := { s with trace := s.trace ++ [e] }

/-- `wait(DELAY)` (spec/41_bitdriver.md R102, spec/70_reset_and_hazards.md R240). -/
def waitDelay (s : State) : State := { s with waited := s.waited + s.delay.toNat }

/-! The accesses to the I/O controller (spec/20_memory.md R41). -/

/-- `FuncWrite(p, m)`, with its event. -/
def funcWrite (p : Nat) (m : PinMode) (s : State) : State :=
  record (.fn p m) { s with func := tableWrite .input s.func p m }

/-- Sets the latches of all the pins of a list to one level. -/
def latchAll (v : Bool) (pins : List Nat) (t : PinTable Bool) : PinTable Bool :=
  pins.foldl (fun t p => tableWrite false t p v) t

/-- `(LATCH or set_mask) and not clr_mask` in one update; a pin in both masks takes any value
(spec/20_memory.md R42, log entry 4). A mask is held as the list of the pins whose bit is 1. -/
def applyLevels (setPins clrPins : List Nat) (s : State) : State :=
  let latched := latchAll false clrPins (latchAll true setPins s.latch)
  let both := setPins.filter fun p => clrPins.contains p
  if both.isEmpty then { s with latch := latched }
  else
    { s with
      latch := both.foldl (fun t p => tableWrite false t p (Config.freeLevel s.levelDraws p)) latched
      levelDraws := s.levelDraws + 1 }

/-- `LevelWrite(set_mask, clr_mask)`, one request. -/
def levelWrite (setPins clrPins : List Nat) (s : State) : Res Unit :=
  (rendezvous s).andThen fun _ s => .ok () (applyLevels setPins clrPins s)

/-- `LINE(p)`: the core's own latch when the pin is an output, else a draw (spec/10_state.md R24). -/
def lineLevel (p : Nat) (s : State) : Bool × State :=
  if s.funcOf p = .output then (s.latchOf p, s) else drawLine s

/-- `LevelRead(p)`, one request. -/
def levelRead (p : Nat) (s : State) : Res Bool :=
  (rendezvous s).andThen fun _ s => .ok (lineLevel p s).1 (lineLevel p s).2

/-! Claiming and restoring pins (spec/40_pinmux.md R91 to R93). -/

/-- Records the mode of a pin the first time it is claimed in a session. -/
def saveOnce (p : Nat) (s : State) : State :=
  if s.isClaimed p then s
  else
    { s with
      saved := tableWrite .input s.saved p (s.funcOf p)
      claimed := tableWrite false s.claimed p true }

/-- The common body of `CLAIM_OUT` and `CLAIM_IN`, one request. -/
def claimPin (m : PinMode) (p : Nat) (s : State) : Res Unit :=
  (rendezvous s).andThen fun _ s => .ok () (funcWrite p m (saveOnce p s))

/-- What `RESTORE` does: nothing for an unclaimed pin. -/
def giveUp (p : Nat) (s : State) : State :=
  if s.isClaimed p then
    { funcWrite p (s.savedMode p) s with claimed := tableWrite false s.claimed p false }
  else s

/-- The body of `RESTORE`, one request, whether or not there is anything to restore. -/
def restorePin (p : Nat) (s : State) : Res Unit :=
  (rendezvous s).andThen fun _ s => .ok () (giveUp p s)

/-- Restores the pins of a list, one after another, in the order of the list. -/
def restoreAll : List Nat → State → Res Unit
  | [], s => .ok () s
  | p :: ps, s => (restorePin p s).andThen fun _ s => restoreAll ps s

/-! Results. -/

/-- `ROUT <- w` (spec/10_state.md R11). -/
def setRout (w : Word) (s : State) : State := { s with rout := w }

/-- `SWDIO_DIR <- d` (spec/10_state.md R21). -/
def setDir (d : Dir) (s : State) : State := { s with swdioDir := d }

/-! Status, latching a fault, flushing it. -/

/-- `return c`: `STATUS` holds the code the last operation returned (spec/10_state.md R11, spec/60_exceptions.md R190). -/
def setStatus (c : Code) (s : State) : State := { s with status := c }

/-- A returned code ends an operation. -/
def returnCode (c : Code) (s : State) : Res Unit := .ok () (setStatus c s)

/-- `latch(c)`, the core's analogue of taking an exception: the code is saved in `QCODE` and nothing else, and only
when no fault is latched yet (spec/60_exceptions.md R196). -/
def latchFault (c : QCode) (s : State) : State :=
  if s.qcode = .ok then { s with qcode := c } else s

/-- The flush of a batch, the core's analogue of the return from an exception (spec/60_exceptions.md R197,
spec/43_swd_engine.md R145). -/
def flushBatch (s : State) : State := { s with qcode := .ok, batchOpen := false }

end Sys2Proof.Machine
end

