-- ==== Sys2Proof/Machine/Operands.lean ====
section
/-! DEFINITION. Operand forms: role codes, pin operands and the role map, the request header, bits in wire order, the
numbers of the delay model. -/

namespace Sys2Proof.Machine

/-- The role of a role code; codes above 7 name no role (spec/30_encoding.md R63). -/
def roleOfCode (c : Byte) : Option Role :=
  match c with
  | 0#8 => some .tck
  | 1#8 => some .tms
  | 2#8 => some .tdi
  | 3#8 => some .tdo
  | 4#8 => some .trst
  | 5#8 => some .srst
  | 6#8 => some .swclk
  | 7#8 => some .swdio
  | _ => none

/-- The pin index of an operand that `VALIDATE` finds valid (spec/40_pinmux.md R90). -/
def validPin (c : Config) (x : PinOperand) : Option Nat :=
  match x with
  | none => none
  | some p => if p.toNat ≤ c.pinMax then some p.toNat else none

/-- `pin(r)`: the physical pin of a usable role (spec/40_pinmux.md R94). -/
def pinOf (r : Role) (s : State) : Option Nat := validPin s.cfg (s.pincfg.get r)

/-- A pin an operation needs: none there is `refuse(bad_pin)` (spec/60_exceptions.md R200 d; log entry 21). -/
def needPin (x : Option Nat) (s : State) : Res Nat :=
  match x with
  | some p => .ok p s
  | none => .refused .badPin

/-- The request byte the engine sends for a caller's `cmd` (spec/30_encoding.md R67, spec/43_swd_engine.md R133). -/
def header (cmd : Byte) : Byte := (cmd &&& 0x3E#8) ||| 0x81#8

/-- The bits of a value in wire order, bit 0 first (spec/20_memory.md R43). -/
def wireBits {n : Nat} (v : BitVec n) : List Bool := (List.range n).map v.getLsbD

/-- The value of bits received in wire order, the first one bit 0 (spec/41_bitdriver.md R109). -/
def natOfBits : List Bool → Nat
  | [] => 0
  | b :: bs => b.toNat + 2 * natOfBits bs

/-- The value of `n` bits received in wire order. -/
def valueOfBits (n : Nat) (bs : List Bool) : BitVec n := BitVec.ofNat n (natOfBits bs)

/-- The sampled bit as `ROUT` holds it (spec/41_bitdriver.md R103). -/
def bitWord (b : Bool) : Word := if b then 1 else 0

/-- The level of a reset line for its argument (spec/41_bitdriver.md R104, R105). -/
def resetLevel (c : Decided) (active : Bool) : Bool := if c.resetActiveLow then !active else active

/-- The set mask of a list of pins and levels, as the list of its pins. -/
def setMask (ls : List (Nat × Bool)) : List Nat := (ls.filter fun e => e.2).map Prod.fst

/-- The clear mask of a list of pins and levels, as the list of its pins. -/
def clrMask (ls : List (Nat × Bool)) : List Nat := (ls.filter fun e => !e.2).map Prod.fst

/-- `BASE` takes the low `ADDR_W` bits of the operand, zero-extended (spec/30_encoding.md R62). -/
def baseValue (c : Config) (a : Word) : Nat := a.toNat % 2 ^ c.addrW

/-- `AP_DELAY` takes the whole of `a8`, which has `AP_DELAY_W` bits (spec/30_encoding.md R62, spec/00_scope.md R2); with
another width, its low bits (log entry 31). -/
def apDelayValue (c : Decided) (n : Byte) : Nat := n.toNat % 2 ^ c.apDelayW

/-- `khz_to_delay`: `max(0, (COEFF div khz) - OFFSET)` on integers (spec/42_speed.md R120, R125). -/
def delayForKhz (coeff : BitVec 31) (offset : BitVec 32) (khz : Word) : Int :=
  max 0 ((coeff.toNat / khz.toNat : Nat) - offset.toInt)

/-- The divisor of `delay_to_khz` (spec/42_speed.md R123). -/
def khzDivisor (offset : BitVec 32) (delay : Word) : Int := (delay.toNat : Int) + offset.toInt

end Sys2Proof.Machine
end

