-- ==== Sys2Proof/Machine/Flags.lean ====
section
/-! DEFINITION. Flag computations: parity, the ACK and what it latches, acceptance of a read, the engine state and the
session and mode tests. -/

namespace Sys2Proof.Machine

/-- The exclusive or of a list of bits. -/
def xorAll (bs : List Bool) : Bool := bs.foldr (fun b acc => b ^^ acc) false

/-- `parity_odd(v)`: 1 xor v[0] xor ... xor v[31] (spec/43_swd_engine.md R132). -/
def parityOdd (v : Word) : Bool := true ^^ xorAll (wireBits v)

/-- A decoded ACK (spec/43_swd_engine.md R136). -/
inductive Ack where
  | ok
  | wait
  | fault
  | undecodable
  deriving DecidableEq, Repr, Inhabited

/-- `decode(ack)` (spec/43_swd_engine.md R136). -/
def decodeAck (c : Decided) (a : BitVec 3) : Ack :=
  if a = c.ackOk then .ok
  else if a = c.ackWait then .wait
  else if a = c.ackFault then .fault
  else .undecodable

/-- `code_of` (spec/43_swd_engine.md R136). -/
def codeOfAck : Ack → QCode
  | .ok => .ok
  | .wait => .wait
  | .fault => .fail
  | .undecodable => .fail

/-- What a received ACK latches (spec/43_swd_engine.md R136, spec/60_exceptions.md R196). -/
def applyAck (a : BitVec 3) (s : State) : State := latchFault (codeOfAck (decodeAck s.cfg.toDecided a)) s

/-- The status code that mirrors `QCODE` (spec/43_swd_engine.md R135). -/
def codeOfQ : QCode → Code
  | .ok => .ok
  | .fail => .fail
  | .wait => .wait

/-- A read value is accepted only when its parity matches; a mismatch latches `FAIL` and delivers nothing
(spec/43_swd_engine.md R142, R143). A faulted engine accepts nothing (R131). -/
def acceptData (value : Word) (parity : Bool) (s : State) : State :=
  if s.qcode ≠ .ok then s
  else if parity = parityOdd value then { s with rdata := value, rpar := parity }
  else latchFault .fail s

/-- `ENGINE` (spec/10_state.md R14). -/
def engine (s : State) : Engine :=
  match s.qcode, s.batchOpen with
  | .ok, true => .executing
  | .ok, false => .idle
  | _, _ => .faulted

/-- `TMODE` allows a flavour (spec/41_bitdriver.md R100). -/
def modeAllows : Flavour → TMode → Bool
  | .jtag, .jtag => true
  | .jtag, .dual => true
  | .swd, .swd => true
  | .swd, .dual => true
  | _, _ => false

/-- A flavour is enabled: a session is active and its mode allows the flavour (spec/41_bitdriver.md R100, R101). -/
def enabled (f : Flavour) (s : State) : Bool := s.session = .active && modeAllows f s.tmode

end Sys2Proof.Machine
end

