-- ==== Sys2Proof/Machine/Configure.lean ====
section
/-! DEFINITION. The configuration operations (spec/45_session.md R170 to R172, R175, R177, R178). -/

namespace Sys2Proof.Machine

/-- The common rule of the configuration that a session freezes: `FAIL` and no change in a session (R177). -/
def whenInactive (k : State → State) (s : State) : State :=
  if s.session = .active then setStatus .fail s else k s

/-- `CFG_PIN` (R170): the role code is tested before the session. -/
def execCfgPin (role : Byte) (pin : PinOperand) (s : State) : Host.Outcome State Fault Refusal :=
  match roleOfCode role with
  | none => .next (setStatus .notSupported s)
  | some r => .next (whenInactive (fun s => setStatus .ok { s with pincfg := s.pincfg.set r pin }) s)

/-- `CFG_COEFF` (R171): a coefficient with bit 31 set fails. -/
def execCfgCoeff (c : Word) (s : State) : Host.Outcome State Fault Refusal :=
  .next (whenInactive (fun s =>
    if c.getLsbD 31 then setStatus .fail s else setStatus .ok { s with coeff := c.extractLsb' 0 31 }) s)

/-- `CFG_OFFSET` (R175). -/
def execCfgOffset (o : Word) (s : State) : Host.Outcome State Fault Refusal :=
  .next (whenInactive (fun s => setStatus .ok { s with offset := o }) s)

/-- `CFG_BASE` (R172). -/
def execCfgBase (a : Word) (s : State) : Host.Outcome State Fault Refusal :=
  .next (whenInactive (fun s => setStatus .ok { s with base := baseValue s.cfg a }) s)

/-- `CFG_AP_DELAY` (R178): works in both phases. -/
def execCfgApDelay (n : Byte) (s : State) : Host.Outcome State Fault Refusal :=
  .next (setStatus .ok { s with apDelay := apDelayValue s.cfg.toDecided n })

end Sys2Proof.Machine
end

