-- ==== Sys2Proof/Machine/PinMux.lean ====
section
/-! DEFINITION. The Pin Multiplexer's operations (spec/40_pinmux.md). -/

namespace Sys2Proof.Machine

/-- `CLAIM_OUT(p)` for an operand that may be absent or invalid (R91). -/
def claimOut (x : Option Nat) (s : State) : Res Unit :=
  (needPin x s).andThen fun p s => claimPin .output p s

/-- `CLAIM_IN(p)` for an operand that may be absent or invalid (R92). -/
def claimIn (x : Option Nat) (s : State) : Res Unit :=
  (needPin x s).andThen fun p s => claimPin .input p s

/-- `VALIDATE`: true when the index is within 0 and `PIN_MAX`, both inclusive (R90). -/
def execValidate (pin : PinOperand) (s : State) : Host.Outcome State Fault Refusal :=
  .next (setRout (bitWord (validPin s.cfg pin).isSome) s)

/-- `CLAIM_OUT` (R91). -/
def execClaimOut (pin : PinOperand) (s : State) : Host.Outcome State Fault Refusal :=
  finish (claimOut (validPin s.cfg pin) s)

/-- `CLAIM_IN` (R92). -/
def execClaimIn (pin : PinOperand) (s : State) : Host.Outcome State Fault Refusal :=
  finish (claimIn (validPin s.cfg pin) s)

/-- `RESTORE`: one request, and nothing for an unclaimed, invalid or absent pin (R93; spec/60_exceptions.md R211, R212). -/
def execRestore (pin : PinOperand) (s : State) : Host.Outcome State Fault Refusal :=
  match validPin s.cfg pin with
  | some p => finish (restorePin p s)
  | none => finish (rendezvous s)

end Sys2Proof.Machine
end

