-- ==== Sys2Proof/Machine/Driver.lean ====
section
/-! DEFINITION. The Bit-Level Driver's operations and the clock-cycle macros (spec/41_bitdriver.md). -/

namespace Sys2Proof.Machine

/-- The pins and levels one `DRIVE` names (R100, R101). -/
def driveLevels (f : Flavour) (clk tms data : Bool) (s : State) : Res (List (Nat × Bool)) :=
  match f with
  | .jtag =>
    (needPin (pinOf .tck s) s).andThen fun c s =>
    (needPin (pinOf .tms s) s).andThen fun m s =>
    (needPin (pinOf .tdi s) s).andThen fun d s =>
    .ok [(c, clk), (m, tms), (d, data)] s
  | .swd =>
    (needPin (pinOf .swclk s) s).andThen fun c s =>
    (needPin (pinOf .swdio s) s).andThen fun d s =>
    .ok [(c, clk), (d, data)] s

/-- The `tms` argument as the history shows it: absent with flavour SWD (R100). -/
def tmsShown (f : Flavour) (tms : Bool) : Option Bool :=
  match f with
  | .jtag => some tms
  | .swd => none

/-- `DRIVE` (R101): all named lines in one level write, then the wait (R102). -/
def drive (f : Flavour) (clk tms data : Bool) (s : State) : Res Unit :=
  if enabled f s then
    (driveLevels f clk tms data s).andThen fun ls s =>
    (levelWrite (setMask ls) (clrMask ls) s).andThen fun _ s =>
    .ok () (waitDelay (record (.lv f clk (tmsShown f tms) data) s))
  else .refused .flavourDisabled

/-- The role `READ` samples (R100). -/
def sampledRole (f : Flavour) : Role :=
  match f with
  | .jtag => .tdo
  | .swd => .swdio

/-- `READ` (R103): no wait, the bit also in `ROUT`. -/
def readLine (f : Flavour) (s : State) : Res Bool :=
  if enabled f s then
    (needPin (pinOf (sampledRole f) s) s).andThen fun p s =>
    (levelRead p s).andThen fun b s =>
    .ok b (setRout (bitWord b) (record (.smp f b) s))
  else .refused .flavourDisabled

/-- The reset lines that are present, with the levels `RESET` gives them (R104, R105). -/
def resetLevels (trst srst : Bool) (s : State) : List (Nat × Bool) :=
  (pinOf .trst s).toList.map (fun p => (p, resetLevel s.cfg.toDecided trst)) ++
    (pinOf .srst s).toList.map (fun p => (p, resetLevel s.cfg.toDecided srst))

/-- `RESET` (R104): both lines in one level write, absent lines are no-ops. -/
def driveReset (trst srst : Bool) (s : State) : Res Unit :=
  if s.session = .active then
    let ls := resetLevels trst srst s
    (levelWrite (setMask ls) (clrMask ls) s).andThen fun _ s => .ok () (record (.rst trst srst) s)
  else .refused .noSession

/-- `DRIVE_DIRECTION` (R106): sets the direction given. -/
def driveDirection (output : Bool) (s : State) : Res Unit :=
  if enabled .swd s then
    if output then
      (claimOut (pinOf .swdio s) s).andThen fun _ s => .ok () (record (.dir .out) (setDir .out s))
    else
      (claimIn (pinOf .swdio s) s).andThen fun _ s => .ok () (record (.dir .inp) (setDir .inp s))
  else .refused .flavourDisabled

/-! Clock cycles of flavour SWD (R108 to R111). -/

/-- `cyc_out(b)`: the core sends one bit (R108). -/
def cycOut (b : Bool) (s : State) : Res Unit :=
  (drive .swd false false b s).andThen fun _ s => drive .swd true false b s

/-- `cyc_in()`: the core takes one bit, sampled while the clock is low (R108). -/
def cycIn (s : State) : Res Bool :=
  (drive .swd false false false s).andThen fun _ s =>
  (readLine .swd s).andThen fun b s =>
  (drive .swd true false false s).andThen fun _ s => .ok b s

/-- `swd_out`: bits in wire order (R109). -/
def swdOut : List Bool → State → Res Unit
  | [], s => .ok () s
  | b :: bs, s => (cycOut b s).andThen fun _ s => swdOut bs s

/-- `swd_in(n)`: the bits received, in wire order (R109). -/
def swdIn : Nat → State → Res (List Bool)
  | 0, s => .ok [] s
  | n + 1, s =>
    (cycIn s).andThen fun b s =>
    (swdIn n s).andThen fun bs s => .ok (b :: bs) s

/-- `idle(n)`: cycles with the data line low (R111). -/
def idle (n : Nat) (s : State) : Res Unit := swdOut (List.replicate n false) s

/-- A turnaround: `TRN` cycles whose samples are discarded (spec/43_swd_engine.md R134). -/
def turnaround (s : State) : Res Unit := (swdIn s.cfg.trn s).andThen fun _ s => .ok () s

/-- `DRIVE` (R101). -/
def execDrive (f : Flavour) (clk tms data : Bool) (s : State) : Host.Outcome State Fault Refusal :=
  finish (drive f clk tms data s)

/-- `READ` (R103). -/
def execRead (f : Flavour) (s : State) : Host.Outcome State Fault Refusal :=
  finish ((readLine f s).andThen fun _ s => .ok () s)

/-- `RESET` (R104). -/
def execReset (trst srst : Bool) (s : State) : Host.Outcome State Fault Refusal := finish (driveReset trst srst s)

/-- `DRIVE_DIRECTION` (R106). -/
def execDriveDirection (output : Bool) (s : State) : Host.Outcome State Fault Refusal := finish (driveDirection output s)

end Sys2Proof.Machine
end

