-- ==== Sys2Proof/Machine/Jtag.lean ====
section
/-! DEFINITION. `EXEC_JTAG`: a stream of driver primitives of flavour JTAG (spec/45_session.md R180). -/

namespace Sys2Proof.Machine

/-- A stream word that is one of the three allowed primitives (R180; spec/30_encoding.md R65). -/
def isPrimitive : StreamWord → Bool
  | .drive _ _ _ | .read | .reset _ _ => true
  | .other _ => false

/-- One primitive, with the bits it returns: a `READ` returns one, the others none. -/
def runPrimitive (w : StreamWord) (s : State) : Res (List Bool) :=
  match w with
  | .drive tck tms tdi => (drive .jtag tck tms tdi s).andThen fun _ s => .ok [] s
  | .read => (readLine .jtag s).andThen fun b s => .ok [b] s
  | .reset trst srst => (driveReset trst srst s).andThen fun _ s => .ok [] s
  | .other _ => .ok [] s

/-- The primitives in list order, with the bits the `READ`s returned, in order. -/
def runStream : List StreamWord → State → Res (List Bool)
  | [], s => .ok [] s
  | w :: ws, s =>
    (runPrimitive w s).andThen fun b s =>
    (runStream ws s).andThen fun bs s => .ok (b ++ bs) s

/-- `EXEC_JTAG` (R180): the stream is checked before it is run. -/
def execExecJtag (_count : Word) (stream : List StreamWord) (s : State) : Host.Outcome State Fault Refusal :=
  if !stream.all isPrimitive then .next (setStatus .notSupported s)
  else if s.session ≠ .active then .refused .noSession
  else finish ((runStream stream s).andThen fun out s => returnCode .ok { s with jtagOut := out })

end Sys2Proof.Machine
end

