-- ==== Sys2Proof/Machine/SessionOps.lean ====
section
/-! DEFINITION. The session operations `INIT`, `QUIT`, `SWD_INIT` (spec/45_session.md R173, R174, R176, R179). -/

namespace Sys2Proof.Machine

/-- All four JTAG roles have a usable pin (R173). -/
def jtagOk (s : State) : Bool :=
  (pinOf .tck s).isSome && (pinOf .tms s).isSome && (pinOf .tdi s).isSome && (pinOf .tdo s).isSome

/-- Both SWD roles have a usable pin (R173). -/
def swdOk (s : State) : Bool := (pinOf .swclk s).isSome && (pinOf .swdio s).isSome

/-- The checks (a), (b), (c) of R173, which change nothing. -/
def initRefuses (s : State) : Bool :=
  s.session = .active
    || (jtagOk s && (pinOf .trst s).isNone && (pinOf .srst s).isNone)
    || (!jtagOk s && !swdOk s)

/-- The mode a session has (R174). -/
def initMode (jtag swd : Bool) : TMode :=
  match jtag, swd with
  | true, true => .dual
  | true, false => .jtag
  | false, true => .swd
  | false, false => .none

/-- `acquire()`: one request, then the platform's answer (R181). -/
def acquire (s : State) : Res Bool :=
  (rendezvous s).andThen fun _ s => .ok (drawAcquire s).1 (drawAcquire s).2

/-- `INIT` brings up the JTAG pins: TDO input, then TCK 0, TMS 1, TDI 0 before they become outputs (R174). -/
def initJtag (s : State) : Res Unit :=
  (claimIn (pinOf .tdo s) s).andThen fun _ s =>
  (levelWrite (pinOf .tms s).toList ((pinOf .tck s).toList ++ (pinOf .tdi s).toList) s).andThen fun _ s =>
  (claimOut (pinOf .tck s) s).andThen fun _ s =>
  (claimOut (pinOf .tms s) s).andThen fun _ s => claimOut (pinOf .tdi s) s

/-- `INIT` brings up the SWD pins: SWCLK 0, SWDIO 0 before they become outputs (R174). -/
def initSwd (s : State) : Res Unit :=
  (levelWrite [] ((pinOf .swclk s).toList ++ (pinOf .swdio s).toList) s).andThen fun _ s =>
  (claimOut (pinOf .swclk s) s).andThen fun _ s =>
  (claimOut (pinOf .swdio s) s).andThen fun _ s => .ok () (setDir .out s)

/-- `INIT` brings up a reset line that is present, deasserted (R174). -/
def initResetLine (r : Role) (s : State) : Res Unit :=
  match pinOf r s with
  | none => .ok () s
  | some p => (levelWrite [p] [] s).andThen fun _ s => claimOut (some p) s

/-- Runs a step of `INIT` when its mode is there. -/
def onlyIf (c : Bool) (k : State → Res Unit) (s : State) : Res Unit := if c then k s else .ok () s

/-- The effects of a successful `INIT` (R174). -/
def initEffects (s : State) : Res Unit :=
  let jtag := jtagOk s
  let swd := swdOk s
  let s := { s with resHeld := true, tmode := initMode jtag swd }
  (onlyIf jtag initJtag s).andThen fun _ s =>
  (onlyIf swd initSwd s).andThen fun _ s =>
  (initResetLine .trst s).andThen fun _ s =>
  (initResetLine .srst s).andThen fun _ s =>
  returnCode .ok { flushBatch s with session := .active }

/-- `INIT` (R173, R174). -/
def execInit (s : State) : Host.Outcome State Fault Refusal :=
  if initRefuses s then .next (setStatus .fail s)
  else
    finish ((acquire s).andThen fun ok s => if ok then initEffects s else returnCode .fail s)

/-- The pins a teardown restores: those claimed among `0..PIN_MAX`. R176 takes them in any order; the order here, rising
pin index, is the model's choice (DESIGN CHOICE, log entry 30). -/
def claimedPins (s : State) : List Nat :=
  (s.claimed.map Prod.fst).filter fun p => p ≤ s.cfg.pinMax

/-- `QUIT` (R176). -/
def execQuit (s : State) : Host.Outcome State Fault Refusal :=
  if s.session = .inactive then .next (setStatus .ok s)
  else
    finish ((restoreAll (claimedPins s) s).andThen fun _ s =>
      returnCode .ok { s with resHeld := false, session := .inactive, tmode := .none })

/-- `SWD_INIT`: a query (R179). -/
def execSwdInit (s : State) : Host.Outcome State Fault Refusal :=
  if enabled .swd s then .next (setStatus .ok s) else .next (setStatus .fail s)

end Sys2Proof.Machine
end

