-- ==== Sys2Proof/Machine/Speed.lean ====
section
/-! DEFINITION. The Speed Calibrator's operations (spec/42_speed.md). -/

namespace Sys2Proof.Machine

/-- `SET_SPEED` (R124): a frequency of zero is not supported and changes nothing else. -/
def execSetSpeed (khz : Word) (s : State) : Host.Outcome State Fault Refusal :=
  if khz = 0 then .next (setStatus .notSupported s)
  else .next (setStatus .ok { s with delay := BitVec.ofInt 32 (delayForKhz s.coeff s.offset khz) })

/-- `SPEED_TO_KHZ` (R123): a divisor that is not positive fails. -/
def execSpeedToKhz (delay : Word) (s : State) : Host.Outcome State Fault Refusal :=
  let d := khzDivisor s.offset delay
  if d ≤ 0 then .next (setStatus .fail s)
  else .next (setStatus .ok (setRout (BitVec.ofNat 32 (s.coeff.toNat / d.toNat)) s))

/-- `KHZ_TO_SPEED` (R120, R121). -/
def execKhzToSpeed (khz : Word) (s : State) : Host.Outcome State Fault Refusal :=
  if khz = 0 then .next (setStatus .notSupported s)
  else .next (setStatus .ok (setRout (BitVec.ofInt 32 (delayForKhz s.coeff s.offset khz)) s))

end Sys2Proof.Machine
end

