-- ==== Sys2Proof/Machine/Sequence.lean ====
section
/-! DEFINITION. The Special-Sequence Generator's operation, one meaning for each row (spec/44_sequences.md). -/

namespace Sys2Proof.Machine

/-- `line_reset()`: a run of ones, nothing after it (R161). -/
def lineReset (s : State) : Res Unit := swdOut (List.replicate s.cfg.lineResetLen true) s

/-- `jtag_to_swd()`: 16 bits, then the idle cycles (R162). -/
def jtagToSwd (s : State) : Res Unit :=
  (swdOut (wireBits s.cfg.seqJtagToSwd) s).andThen fun _ s => idle s.cfg.switchIdle s

/-- `swd_to_jtag()`: 16 bits, nothing after them (R163). -/
def swdToJtag (s : State) : Res Unit := swdOut (wireBits s.cfg.seqSwdToJtag) s

/-- The common part of `SWITCH_SEQ` with a known identifier (R160). -/
def switchSequence (seq : State → Res Unit) (s : State) : Host.Outcome State Fault Refusal :=
  if !enabled .swd s then .refused .noSwd
  else finish ((seq s).andThen fun _ s => returnCode .ok s)

/-- `SWITCH_SEQ LINE_RESET` (R161). -/
def execSwitchLineReset (s : State) : Host.Outcome State Fault Refusal := switchSequence lineReset s

/-- `SWITCH_SEQ JTAG_TO_SWD` (R162). -/
def execSwitchJtagToSwd (s : State) : Host.Outcome State Fault Refusal := switchSequence jtagToSwd s

/-- `SWITCH_SEQ SWD_TO_JTAG` (R163). -/
def execSwitchSwdToJtag (s : State) : Host.Outcome State Fault Refusal := switchSequence swdToJtag s

/-- `SWITCH_SEQ` with any other identifier: `NOT_SUPPORTED` before anything else, no bit sent (R164). -/
def execSwitchUnsupported (_id : Byte) (s : State) : Host.Outcome State Fault Refusal :=
  .next (setStatus .notSupported s)

end Sys2Proof.Machine
end

