-- ==== Sys2Proof/Machine/Swd.lean ====
section
/-! DEFINITION. The SWD Protocol Engine's operations (spec/43_swd_engine.md). -/

namespace Sys2Proof.Machine

/-- The request phase: eight bits of a request byte, SWDIO an output (R134). -/
def sendRequest (hdr : Byte) (s : State) : Res Unit := swdOut (wireBits hdr) s

/-- The data phase of a write: the value, then the parity bit (R138; spec/30_encoding.md R70). -/
def sendData (value : Word) (parity : Bool) (s : State) : Res Unit :=
  (swdOut (wireBits value) s).andThen fun _ s => cycOut parity s

/-- The request, the turn of the line to input, the turnaround and the three ACK bits (R134): common to both frames. -/
def requestAndAck (hdr : Byte) (s : State) : Res (BitVec 3) :=
  (sendRequest hdr s).andThen fun _ s =>
  (driveDirection false s).andThen fun _ s =>
  (turnaround s).andThen fun _ s =>
  (swdIn 3 s).andThen fun bs s => .ok (valueOfBits 3 bs) s

/-- The closing turnaround and the turn of the line back to output (R134). -/
def turnBack (s : State) : Res Unit :=
  (turnaround s).andThen fun _ s => driveDirection true s

/-- `idle(AP_DELAY)` after an access-port transaction that latched nothing (R144). -/
def settle (hdr : Byte) (s : State) : Res Unit :=
  if hdr.getLsbD 1 && s.qcode = .ok then idle s.apDelay s else .ok () s

/-- `STATUS <- QCODE ; return QCODE` (R135, R141). -/
def returnQCode (s : State) : Res Unit := returnCode (codeOfQ s.qcode) s

/-- The frame of a write that is not skipped (R135). -/
def writeFrame (hdr : Byte) (value : Word) (s : State) : Res Unit :=
  (requestAndAck hdr s).andThen fun ack s =>
  (turnBack s).andThen fun _ s =>
  if decodeAck s.cfg.toDecided ack = .ok then
    (sendData value (parityOdd value) s).andThen fun _ s => settle hdr s
  else .ok () (applyAck ack s)

/-- The data phase of a read: 32 bits, then the parity bit (R141). -/
def receiveData (s : State) : Res (Word × Bool) :=
  (swdIn 32 s).andThen fun bs s =>
  (cycIn s).andThen fun rp s => .ok (valueOfBits 32 bs, rp) s

/-- The frame of a read that is not skipped (R141). -/
def readFrame (hdr : Byte) (s : State) : Res Unit :=
  (requestAndAck hdr s).andThen fun ack s =>
  if decodeAck s.cfg.toDecided ack = .ok then
    (receiveData s).andThen fun d s =>
    (turnBack s).andThen fun _ s => settle hdr (acceptData d.1 d.2 s)
  else
    (turnBack s).andThen fun _ s => .ok () (applyAck ack s)

/-- A register operation past its preconditions: the batch opens, a latched fault skips the frame, and the status
mirrors `QCODE` (R130, R131, R135, R141). -/
def registerOperation (frame : State → Res Unit) (s : State) : Res Unit :=
  let s := { s with batchOpen := true }
  if s.qcode = .ok then (frame s).andThen fun _ s => returnQCode s else returnQCode s

/-- `READ_REG` (R141, R140), the tests in the order of spec/60_exceptions.md R198. -/
def execReadReg (cmd : Byte) (s : State) : Host.Outcome State Fault Refusal :=
  if !enabled .swd s then .refused .noSwd
  else if !cmd.getLsbD 2 then .refused .assertNoRnwOnRead
  else finish (registerOperation (readFrame (header cmd)) s)

/-- `WRITE_REG` (R135, R137), the tests in the order of spec/60_exceptions.md R198. -/
def execWriteReg (cmd : Byte) (value : Word) (s : State) : Host.Outcome State Fault Refusal :=
  if !enabled .swd s then .refused .noSwd
  else if cmd.getLsbD 2 then .refused .assertRnwOnWrite
  else finish (registerOperation (writeFrame (header cmd) value) s)

/-- `RUN_QUEUE` (R145): eight idle cycles, always, then the latched code is read out and cleared. -/
def execRunQueue (s : State) : Host.Outcome State Fault Refusal :=
  if !enabled .swd s then .refused .noSwd
  else
    finish ((idle s.cfg.flushIdle s).andThen fun _ s => returnCode (codeOfQ s.qcode) (flushBatch s))

end Sys2Proof.Machine
end

