-- ==== Sys2Proof/Machine/Wire.lean ====
section
/-! DEFINITION. The rows of the opcode table that are wire formats or status codes (spec/30_encoding.md R68 to R72): a
format the core sends is clocked out, a format it receives is judged, a status code is returned. Log entries 17, 18. -/

namespace Sys2Proof.Machine

/-- `swd_request.dp_write` (R68): the request phase of a debug-port write. -/
def execSwdRequestDpWrite (p a3 a2 : Bool) (s : State) : Host.Outcome State Fault Refusal :=
  finish (sendRequest (requestByte p a3 a2 false false) s)

/-- `swd_request.dp_read` (R68). -/
def execSwdRequestDpRead (p a3 a2 : Bool) (s : State) : Host.Outcome State Fault Refusal :=
  finish (sendRequest (requestByte p a3 a2 true false) s)

/-- `swd_request.ap_write` (R68). -/
def execSwdRequestApWrite (p a3 a2 : Bool) (s : State) : Host.Outcome State Fault Refusal :=
  finish (sendRequest (requestByte p a3 a2 false true) s)

/-- `swd_request.ap_read` (R68). -/
def execSwdRequestApRead (p a3 a2 : Bool) (s : State) : Host.Outcome State Fault Refusal :=
  finish (sendRequest (requestByte p a3 a2 true true) s)

/-- `swd_ack.OK`: latches nothing (spec/43_swd_engine.md R136). -/
def execSwdAckOk (s : State) : Host.Outcome State Fault Refusal := .next (applyAck s.cfg.ackOk s)

/-- `swd_ack.WAIT`: latches `WAIT` (spec/43_swd_engine.md R136). -/
def execSwdAckWait (s : State) : Host.Outcome State Fault Refusal := .next (applyAck s.cfg.ackWait s)

/-- `swd_ack.FAULT`: latches `FAIL` (spec/43_swd_engine.md R136). -/
def execSwdAckFault (s : State) : Host.Outcome State Fault Refusal := .next (applyAck s.cfg.ackFault s)

/-- `swd_ack.undecodable`: latches `FAIL` (spec/43_swd_engine.md R136). -/
def execSwdAckUndecodable (ack : BitVec 3) (s : State) : Host.Outcome State Fault Refusal := .next (applyAck ack s)

/-- `swd_data` (R70): while SWDIO is an output the core sends the 33 bits (spec/43_swd_engine.md R138); while it is an
input it has received them and accepts the value or latches (spec/43_swd_engine.md R142, R143). -/
def execSwdData (value : Word) (parity : Bool) (s : State) : Host.Outcome State Fault Refusal :=
  match s.swdioDir with
  | .out => finish (sendData value parity s)
  | .inp => .next (acceptData value parity s)

/-- `seq.LINE_RESET` (spec/44_sequences.md R161). -/
def execSeqLineReset (s : State) : Host.Outcome State Fault Refusal := finish (lineReset s)

/-- `seq.JTAG_TO_SWD`, its trailing idle included (spec/44_sequences.md R162). -/
def execSeqJtagToSwd (s : State) : Host.Outcome State Fault Refusal := finish (jtagToSwd s)

/-- `seq.SWD_TO_JTAG` (spec/44_sequences.md R163). -/
def execSeqSwdToJtag (s : State) : Host.Outcome State Fault Refusal := finish (swdToJtag s)

/-- `status.OK` (R72). -/
def execStatusOk (s : State) : Host.Outcome State Fault Refusal := .next (setStatus .ok s)

/-- `status.FAIL` (R72). -/
def execStatusFail (s : State) : Host.Outcome State Fault Refusal := .next (setStatus .fail s)

/-- `status.WAIT` (R72). -/
def execStatusWait (s : State) : Host.Outcome State Fault Refusal := .next (setStatus .wait s)

/-- `status.NOT_SUPPORTED` (R72). -/
def execStatusNotSupported (s : State) : Host.Outcome State Fault Refusal := .next (setStatus .notSupported s)

end Sys2Proof.Machine
end

