-- ==== Sys2Proof/Machine/Dispatch.lean ====
section
/-! DEFINITION. One arm for each operation. -/

namespace Sys2Proof.Machine

def exec (i : Instr) (s : State) : Host.Outcome State Fault Refusal :=
  match i with
  | .cfgPin role pin => Sys2Proof.Machine.execCfgPin role pin s
  | .cfgCoeff c => Sys2Proof.Machine.execCfgCoeff c s
  | .cfgOffset o => Sys2Proof.Machine.execCfgOffset o s
  | .cfgBase a => Sys2Proof.Machine.execCfgBase a s
  | .cfgApDelay n => Sys2Proof.Machine.execCfgApDelay n s
  | .init => Sys2Proof.Machine.execInit s
  | .quit => Sys2Proof.Machine.execQuit s
  | .setSpeed khz => Sys2Proof.Machine.execSetSpeed khz s
  | .speedToKhz delay => Sys2Proof.Machine.execSpeedToKhz delay s
  | .khzToSpeed khz => Sys2Proof.Machine.execKhzToSpeed khz s
  | .execJtag count stream => Sys2Proof.Machine.execExecJtag count stream s
  | .swdInit => Sys2Proof.Machine.execSwdInit s
  | .switchLineReset => Sys2Proof.Machine.execSwitchLineReset s
  | .switchJtagToSwd => Sys2Proof.Machine.execSwitchJtagToSwd s
  | .switchSwdToJtag => Sys2Proof.Machine.execSwitchSwdToJtag s
  | .switchUnsupported id => Sys2Proof.Machine.execSwitchUnsupported id s
  | .readReg cmd => Sys2Proof.Machine.execReadReg cmd s
  | .writeReg cmd value => Sys2Proof.Machine.execWriteReg cmd value s
  | .runQueue => Sys2Proof.Machine.execRunQueue s
  | .drive f clk tms data => Sys2Proof.Machine.execDrive f clk tms data s
  | .read f => Sys2Proof.Machine.execRead f s
  | .reset trst srst => Sys2Proof.Machine.execReset trst srst s
  | .driveDirection output => Sys2Proof.Machine.execDriveDirection output s
  | .validate pin => Sys2Proof.Machine.execValidate pin s
  | .claimOut pin => Sys2Proof.Machine.execClaimOut pin s
  | .claimIn pin => Sys2Proof.Machine.execClaimIn pin s
  | .restore pin => Sys2Proof.Machine.execRestore pin s
  | .swdRequestDpWrite p a3 a2 => Sys2Proof.Machine.execSwdRequestDpWrite p a3 a2 s
  | .swdRequestDpRead p a3 a2 => Sys2Proof.Machine.execSwdRequestDpRead p a3 a2 s
  | .swdRequestApWrite p a3 a2 => Sys2Proof.Machine.execSwdRequestApWrite p a3 a2 s
  | .swdRequestApRead p a3 a2 => Sys2Proof.Machine.execSwdRequestApRead p a3 a2 s
  | .swdAckOk => Sys2Proof.Machine.execSwdAckOk s
  | .swdAckWait => Sys2Proof.Machine.execSwdAckWait s
  | .swdAckFault => Sys2Proof.Machine.execSwdAckFault s
  | .swdAckUndecodable ack => Sys2Proof.Machine.execSwdAckUndecodable ack s
  | .swdData value parity => Sys2Proof.Machine.execSwdData value parity s
  | .seqLineReset => Sys2Proof.Machine.execSeqLineReset s
  | .seqJtagToSwd => Sys2Proof.Machine.execSeqJtagToSwd s
  | .seqSwdToJtag => Sys2Proof.Machine.execSeqSwdToJtag s
  | .statusOk => Sys2Proof.Machine.execStatusOk s
  | .statusFail => Sys2Proof.Machine.execStatusFail s
  | .statusWait => Sys2Proof.Machine.execStatusWait s
  | .statusNotSupported => Sys2Proof.Machine.execStatusNotSupported s

end Sys2Proof.Machine
end

