-- ==== Sys2Proof/Machine/Fetch.lean ====
section
/-! DEFINITION. Taking the next operation from the stream (spec/30_encoding.md R60, R65, R74, R75; spec/70_reset_and_hazards.md
R221), and putting one there. -/

namespace Sys2Proof.Machine

/-- What the core finds when it is ready for an operation. -/
inductive Fetched where
  /-- No whole operation is there: the core waits for the host (spec/60_exceptions.md R214). -/
  | idle
  /-- An operation, and the state in which it runs. -/
  | run (i : Instr) (s : State)
  /-- A command word that names no operation the host may issue: answered at once. -/
  | answered (s : State)
  /-- A component request without a meaning. -/
  | refused (r : Refusal)
  deriving DecidableEq, Repr

/-- The next `n` host words of the stream and what follows them, when that many are there. -/
def takeHost : List Request → Nat → Option (List CmdWord × List Request)
  | rs, 0 => some ([], rs)
  | .host w :: rs, n + 1 =>
    match takeHost rs n with
    | some (ws, rest) => some (w :: ws, rest)
    | none => none
  | _, _ + 1 => none

/-- The host's command word loads `A8` and `A32` (spec/10_state.md R11). Log entry 15. -/
def loadOperands (w : CmdWord) (s : State) : State := { s with a8 := a8Field w, a32 := a32Field w }

/-- A host operation, its words already taken off the stream: an unknown operation code and an internal one both answer
`NOT_SUPPORTED` and change nothing (spec/30_encoding.md R74). -/
def hostOperation (ws : List CmdWord) (s : State) : Fetched :=
  match decode (.words ws) with
  | .ok i => if i.level = .host then .run i s else .answered (setStatus .notSupported s)
  | .error _ => .answered (setStatus .notSupported s)

/-- The next operation of the stream. -/
def fetch (s : State) : Fetched :=
  match s.pending with
  | [] => .idle
  | .component f :: rest =>
    match decode f with
    | .ok i => .run i { s with pending := rest }
    | .error _ => .refused .badFrame
  | .host w :: rest =>
    match takeHost rest (extraWords w) with
    | none => .idle
    | some (ws, rest') => hostOperation (w :: ws) (loadOperands w { s with pending := rest' })

/-- How a frame comes to stand in the stream: a host operation, and a command word that names no operation, as the
host's words; any other as a component request. -/
def requestsOf (f : Frame) : List Request :=
  match f, decode f with
  | .words ws, .ok i => if i.level = .host then ws.map .host else [.component f]
  | .words ws, .error _ => ws.map .host
  | f, _ => [.component f]

/-- The stream with the operation of a table word at its head; unchanged when the table word has no format. -/
def issueTableWord (s : State) (nbits w : Nat) : State :=
  match frameOfTableWord nbits w with
  | none => s
  | some f => { s with pending := requestsOf f ++ s.pending }

end Sys2Proof.Machine
end

