-- ==== Sys2Proof/Machine/Step.lean ====
section
/-! DEFINITION. One step: one whole operation, or a wait for the host (spec/10_state.md R12, spec/60_exceptions.md R205, R214). -/

namespace Sys2Proof.Machine

/-- One step of the core. -/
def step (s : State) : Host.Outcome State Fault Refusal :=
  match fetch s with
  | .idle => .next s
  | .run i s' => exec i s'
  | .answered s' => .next s'
  | .refused r => .refused r

/-- The state with the instruction of a table word at the head of the operation stream. Log entry 20. -/
def State.withFetchWord (s : State) (nbits w : Nat) : State := issueTableWord s nbits w

end Sys2Proof.Machine
end

