-- ==== Sys2Proof/Safety.lean ====
section
/-! DEFINITION. What counts as a safe state, and the words the statements use: the invariant between operations
(spec/10_state.md R27), the events of the clock cycles (spec/41_bitdriver.md R108) and the frame of an operation on the
SWD wire. -/

namespace Sys2Proof.Machine

/-- A pin mode is a member of the platform's `PINMODE` (spec/00_scope.md R2). -/
def validMode (c : Config) : PinMode → Prop
  | .input => True
  | .output => True
  | .alt k => k < c.altModes

/-- A role has a usable pin and that pin is claimed. -/
def roleClaimed (r : Role) (s : State) : Prop := ∃ p, pinOf r s = some p ∧ s.isClaimed p = true

/-- What holds between operations (spec/10_state.md R27 b to e), with the ranges and canonical forms of the fields.
R27 (a) needs no clause: `QCode` has no other value. -/
structure SessionInv (s : State) : Prop where
  /-- R27 (b). -/
  activeMode : s.session = .active ↔ s.tmode ≠ .none
  /-- R27 (b). -/
  activeHeld : s.session = .active ↔ s.resHeld = true
  /-- R27 (c). -/
  inactiveUnclaimed : s.session = .inactive → ∀ p, s.isClaimed p = false
  /-- R27 (d): a claimed pin is valid. -/
  claimedValid : ∀ p, s.isClaimed p = true → p ≤ s.cfg.pinMax
  /-- R27 (d), for the JTAG roles. -/
  jtagClaimed : modeAllows .jtag s.tmode = true → ∀ r ∈ [Role.tck, .tms, .tdi, .tdo], roleClaimed r s
  /-- R27 (d), for the SWD roles. -/
  swdClaimed : modeAllows .swd s.tmode = true → ∀ r ∈ [Role.swclk, .swdio], roleClaimed r s
  /-- R27 (d), for the reset lines that are present. -/
  resetClaimed : s.session = .active → ∀ r ∈ [Role.trst, .srst], ∀ p, pinOf r s = some p → s.isClaimed p = true
  /-- R27 (e). -/
  swdioOut : modeAllows .swd s.tmode = true → s.swdioDir = .out ∧ ∀ p, pinOf .swdio s = some p → s.funcOf p = .output
  /-- The parameters with a value have it (spec/00_scope.md R2). -/
  decided : s.cfg.toDecided = Decided.spec
  /-- `AP_DELAY` has `AP_DELAY_W` bits (spec/10_state.md R18). -/
  apDelayFits : s.apDelay < 2 ^ s.cfg.apDelayW
  /-- `BASE` has `ADDR_W` bits (spec/10_state.md R17). -/
  baseFits : s.base < 2 ^ s.cfg.addrW
  /-- The pin tables are in canonical form (log entry 8). -/
  tablesWf : tableWf false s.claimed = true ∧ tableWf .input s.saved = true ∧ tableWf .input s.func = true ∧
    tableWf false s.latch = true
  /-- Every mode held is one of the platform's. -/
  modesValid : ∀ p, validMode s.cfg (s.funcOf p) ∧ validMode s.cfg (s.savedMode p)

/-- Only the host has issued operations (spec/30_encoding.md R61). -/
def HostOnly (s : State) : Prop := ∀ r ∈ s.pending, ∃ w, r = .host w

/-- The invariant of the machine between operations. -/
def Inv (s : State) : Prop := SessionInv s ∧ HostOnly s

/-- A session in which the SWD operations work (spec/60_exceptions.md R207), pins reached directly. -/
structure SwdSession (s : State) : Prop where
  inv : SessionInv s
  enabled : enabled .swd s = true
  direct : s.cfg.impl = .direct

/-- The mode a pin had before the session: what teardown writes back, or its function if it is not claimed
(spec/40_pinmux.md R96). -/
def preSessionMode (s : State) (p : Nat) : PinMode := if s.isClaimed p then s.savedMode p else s.funcOf p

/-- The events of cycles that send bits (spec/41_bitdriver.md R108). -/
def outEvents (bs : List Bool) : List Event :=
  bs.flatMap fun b => [.lv .swd false none b, .lv .swd true none b]

/-- The events of cycles that take bits (spec/41_bitdriver.md R108). -/
def inEvents (bs : List Bool) : List Event :=
  bs.flatMap fun b => [.lv .swd false none false, .smp .swd b, .lv .swd true none false]

/-- The events of a turn of SWDIO, at pin `p`, to input. -/
def toInput (p : Nat) : List Event := [.fn p .input, .dir .inp]

/-- The events of a turn of SWDIO, at pin `p`, to output. -/
def toOutput (p : Nat) : List Event := [.fn p .output, .dir .out]

/-- What an operation on the SWD wire leaves unchanged: every field but those named here; the latches of all pins but
SWCLK's and SWDIO's; the function of all pins but SWDIO's. Between operations SWDIO is an output, so its function
and `SWDIO_DIR` are as before too. -/
structure WireFrame (s t : State) : Prop where
  fields : t = { s with
    latch := t.latch, func := t.func, trace := t.trace, waited := t.waited, rout := t.rout, lineSrc := t.lineSrc,
    levelDraws := t.levelDraws, status := t.status, qcode := t.qcode, batchOpen := t.batchOpen, rdata := t.rdata,
    rpar := t.rpar }
  latchElsewhere : ∀ p, pinOf .swclk s ≠ some p → pinOf .swdio s ≠ some p → t.latchOf p = s.latchOf p
  funcSame : ∀ p, t.funcOf p = s.funcOf p

/-- One operation after another; the first one that does not answer a next state ends it. -/
def execAll : List Instr → State → Host.Outcome State Fault Refusal
  | [], s => .next s
  | i :: is, s =>
    match exec i s with
    | .next t => execAll is t
    | .fault r => .fault r
    | .refused r => .refused r

/-- The roles a session brings up, in the order it claims them: those of the modes it has, then the reset lines
(spec/45_session.md R174). -/
def sessionRoles (s : State) : List Role :=
  (if jtagOk s then [.tdo, .tck, .tms, .tdi] else []) ++ (if swdOk s then [.swclk, .swdio] else []) ++ [.trst, .srst]

/-- The pins a session brings up. -/
def sessionPins (s : State) : List Nat := (sessionRoles s).filterMap fun r => pinOf r s

/-- The function a session gives a role's pin (spec/45_session.md R174). -/
def sessionMode (r : Role) : PinMode := if r = .tdo then .input else .output

/-- The writes of `FUNC` that start a session (spec/45_session.md R174). -/
def sessionClaims (s : State) : List Event :=
  (sessionRoles s).filterMap fun r => (pinOf r s).map fun p => .fn p (sessionMode r)

/-- The roles of the level writes that start a session, one list for each write, in order (spec/45_session.md R174). -/
def levelGroups (s : State) : List (List Role) :=
  (if jtagOk s then [[.tms, .tck, .tdi]] else []) ++ (if swdOk s then [[.swclk, .swdio]] else []) ++ [[.trst], [.srst]]

/-- The level a session starts an output with (spec/70_reset_and_hazards.md R222). -/
def initialLevel : Role → Bool
  | .tms | .trst | .srst => true
  | .tck | .tdi | .tdo | .swclk | .swdio => false

/-- The operation a word of an `EXEC_JTAG` stream stands for (spec/45_session.md R180). -/
def primitiveInstr : StreamWord → Option Instr
  | .drive tck tms tdi => some (.drive .jtag tck tms tdi)
  | .read => some (.read .jtag)
  | .reset trst srst => some (.reset trst srst)
  | .other _ => none

/-- The bits that `READ`s of flavour JTAG returned, from their events. -/
def jtagSamples (evs : List Event) : List Bool :=
  evs.filterMap fun e =>
    match e with
    | .smp .jtag b => some b
    | _ => none

/-- The event of a `DRIVE`. -/
def isDriveEvent : Event → Bool
  | .lv _ _ _ _ => true
  | .smp _ _ | .dir _ | .rst _ _ | .fn _ _ => false

/-- A register operation whose direction bit is right (spec/43_swd_engine.md R137, R140). -/
def isRegisterOp : Instr → Bool
  | .writeReg cmd _ => !cmd.getLsbD 2
  | .readReg cmd => cmd.getLsbD 2
  | _ => false

/-- The lines of a flavour (spec/41_bitdriver.md R100). -/
def flavourRoles : Flavour → List Role
  | .jtag => [.tck, .tms, .tdi, .tdo]
  | .swd => [.swclk, .swdio]

/-- The primitives of a flavour run: it is enabled and its lines have usable pins. -/
def flavourReady (f : Flavour) (s : State) : Prop := enabled f s = true ∧ ∀ r ∈ flavourRoles f, pinOf r s ≠ none

/-- The primitives that put bits on the SWD wire (spec/41_bitdriver.md R108, R109). -/
def driveInstrs (bs : List Bool) : List Instr :=
  bs.flatMap fun b => [.drive .swd false false b, .drive .swd true false b]

/-- The bits that an operation or a row which only sends puts on the SWD wire (spec/43_swd_engine.md R145;
spec/44_sequences.md R161 to R163; spec/30_encoding.md R66, R68, R70); none for any other. -/
def sentBits : Instr → List Bool
  | .runQueue => List.replicate 8 false
  | .switchLineReset | .seqLineReset => List.replicate 56 true
  | .switchJtagToSwd | .seqJtagToSwd => wireBits 0xE79E#16 ++ List.replicate 8 false
  | .switchSwdToJtag | .seqSwdToJtag => wireBits 0xE73C#16
  | .swdRequestDpWrite p a3 a2 => [true, false, false, a2, a3, p, false, true]
  | .swdRequestDpRead p a3 a2 => [true, false, true, a2, a3, p, false, true]
  | .swdRequestApWrite p a3 a2 => [true, true, false, a2, a3, p, false, true]
  | .swdRequestApRead p a3 a2 => [true, true, true, a2, a3, p, false, true]
  | .swdData v p => wireBits v ++ [p]
  | .cfgPin _ _ | .cfgCoeff _ | .cfgOffset _ | .cfgBase _ | .cfgApDelay _ => []
  | .init | .quit | .setSpeed _ | .speedToKhz _ | .khzToSpeed _ | .execJtag _ _ | .swdInit => []
  | .switchUnsupported _ | .readReg _ | .writeReg _ _ => []
  | .drive _ _ _ _ | .read _ | .reset _ _ | .driveDirection _ => []
  | .validate _ | .claimOut _ | .claimIn _ | .restore _ => []
  | .swdAckOk | .swdAckWait | .swdAckFault | .swdAckUndecodable _ => []
  | .statusOk | .statusFail | .statusWait | .statusNotSupported => []

/-! The draws of a frame (spec/20_memory.md R46, spec/43_swd_engine.md R134). -/

/-- The bits `n` draws give, whatever the source holds. -/
def drawn : Nat → Source → List Bool
  | 0, _ => []
  | n + 1, src => (src.draw Config.freeLine).1 :: drawn n (src.draw Config.freeLine).2

/-- What is left of a source after `n` draws. -/
def leftAfter : Nat → Source → Source
  | 0, src => src
  | n + 1, src => leftAfter n (src.draw Config.freeLine).2

/-- The ACK that the draws of a frame give: the first one is the turnaround's, the next three are the ACK's bits. -/
def drawnAck (src : Source) : BitVec 3 := valueOfBits 3 (drawn 3 (leftAfter 1 src))

/-- The data that the draws of a read frame give, after the turnaround's and the ACK's. -/
def drawnData (src : Source) : Word := valueOfBits 32 (drawn 32 (leftAfter 4 src))

/-- The parity bit that the draws of a read frame give, after the data's. -/
def drawnParity (src : Source) : Bool := ((leftAfter 36 src).draw Config.freeLine).1

/-- The ACK that the draws of a frame give is `ACK_OK`. -/
def drawnOk (s : State) : Bool := drawnAck s.lineSrc = s.cfg.ackOk

/-! The primitives that an operation is made of, in order: where a co-processor that falls silent can stop it
(spec/60_exceptions.md R211, R212). -/

/-- The primitives of cycles that take `n` bits (spec/41_bitdriver.md R108, R109). -/
def sampleInstrs (n : Nat) : List Instr :=
  (List.replicate n [Instr.drive .swd false false false, .read .swd, .drive .swd true false false]).flatten

/-- The primitives of the first part of a frame: the request, the turn to input, the turnaround and the ACK
(spec/43_swd_engine.md R134). -/
def requestInstrs (hdr : Byte) : List Instr := driveInstrs (wireBits hdr) ++ .driveDirection false :: sampleInstrs 4

/-- The primitives of the last part of a frame: the turnaround and the turn back to output (spec/43_swd_engine.md R134). -/
def turnBackInstrs : List Instr := sampleInstrs 1 ++ [.driveDirection true]

/-- The primitives of a register operation's frame, as its draws make it, up to the acceptance of a value read
(spec/43_swd_engine.md R135, R138, R141). -/
def frameInstrs (i : Instr) (s : State) : List Instr :=
  match i with
  | .writeReg cmd v =>
    requestInstrs (header cmd) ++ turnBackInstrs ++ if drawnOk s then driveInstrs (wireBits v ++ [parityOdd v]) else []
  | .readReg cmd => requestInstrs (header cmd) ++ (if drawnOk s then sampleInstrs 33 else []) ++ turnBackInstrs
  | _ => []

/-- The primitives of the idle cycles after the frame, when it was one of an access port and latched nothing
(spec/43_swd_engine.md R144). -/
def settleInstrs (i : Instr) (s : State) : List Instr :=
  match i with
  | .writeReg cmd _ => if drawnOk s && cmd.getLsbD 1 then driveInstrs (List.replicate s.apDelay false) else []
  | .readReg cmd =>
    if drawnOk s && drawnParity s.lineSrc = parityOdd (drawnData s.lineSrc) && cmd.getLsbD 1 then
      driveInstrs (List.replicate s.apDelay false)
    else []
  | _ => []

/-- The state after the frame with the value delivered that the draws of `s` gave, when the operation is a read
(spec/43_swd_engine.md R142). -/
def delivered (i : Instr) (s t : State) : State :=
  match i with
  | .readReg _ => { t with rdata := drawnData s.lineSrc, rpar := drawnParity s.lineSrc }
  | _ => t

/-- The claim of the pin of a role, one step of `INIT`. -/
def claimStep (m : PinMode) (r : Role) (s : State) : List (State → State) :=
  (pinOf r s).toList.map fun p t => funcWrite p m (saveOnce p t)

/-- A level write of the pins of some roles, one step of `INIT`. -/
def levelStep (setRoles clrRoles : List Role) (s : State) : List (State → State) :=
  [applyLevels (setRoles.filterMap fun r => pinOf r s) (clrRoles.filterMap fun r => pinOf r s)]

/-- What a successful `INIT` does to the pins, one step for each request it makes after `acquire()`, in order
(spec/45_session.md R174). The direction of SWDIO is set with its claim. -/
def initSteps (s : State) : List (State → State) :=
  (if jtagOk s then
    claimStep .input .tdo s ++ levelStep [.tms] [.tck, .tdi] s ++ claimStep .output .tck s ++ claimStep .output .tms s ++
      claimStep .output .tdi s
  else []) ++
  (if swdOk s then
    levelStep [] [.swclk, .swdio] s ++ claimStep .output .swclk s ++
      (claimStep .output .swdio s).map fun f t => setDir .out (f t)
  else []) ++
  [Role.trst, .srst].flatMap fun r => if pinOf r s = none then [] else levelStep [r] [] s ++ claimStep .output r s

/-- The state seen with the pins reached directly: the co-processor's answers are of no account then
(spec/60_exceptions.md R211). -/
def asDirect (s : State) : State := { s with cfg := { s.cfg with impl := .direct }, coprocSrc := ⟨[], 0⟩ }

end Sys2Proof.Machine
end

