-- ==== Sys2Proof/Certificates/Slice0/Obligations.lean ====
section
/-! DEFINITION. The statements about the model, one for each rule or group of rules of the spec that says what an
operation or the machine does. -/

open Sys2Proof Sys2Proof.Machine

/-! ## Encoding and the step -/

/-- Decoding an encoded well-formed operation gives it back, for every row and every operand (spec/30_encoding.md R60 to R72). -/
def Obligations.DecodeEncodeAgree : Prop :=
  ∀ i : Instr, i.wf = true → decode (encode i) = .ok i

/-- Whatever the decoder accepts is well-formed (spec/30_encoding.md R65, R69, R71, R73). -/
def Obligations.DecodedIsWellFormed : Prop :=
  ∀ (f : Frame) (i : Instr), decode f = .ok i → i.wf = true

/-- Words that spec/95_test_vectors.md (P1 to P5, V12) and spec/30_encoding.md write out decode as it says. -/
def Obligations.SpecWordsDecode : Prop :=
  decode (.words [0x01060000000B#48]) = .ok (.cfgPin 6 (some 11)) ∧
  decode (.words [0x02000001BC32#48]) = .ok (.cfgCoeff 113714) ∧
  decode (.words [0x0300FFFFFFFB#48]) = .ok (.cfgOffset (-5)) ∧
  decode (.words [0x100000000000#48]) = .ok .init ∧
  decode (.words [0x1200000003E8#48]) = .ok (.setSpeed 1000) ∧
  decode (.words [0x210100000000#48]) = .ok .switchJtagToSwd ∧
  decode (.words [0x210700000000#48]) = .ok (.switchUnsupported 7) ∧
  decode (.words [0x22A500000000#48]) = .ok (.readReg 0xA5) ∧
  decode (.words [0x23A323000052#48]) = .ok (.writeReg 0xA3 0x23000052) ∧
  decode (.words [0x240000000000#48]) = .ok .runQueue ∧
  decode (.words [0x150000000003#48, 0x300200000000#48, 0x310000000000#48, 0x300300000000#48]) =
    .ok (.execJtag 3 [.drive false true false, .read, .drive true true false]) ∧
  decode (.words [0x330100000000#48]) = .ok (.driveDirection true) ∧
  decode (.words [0x40007FFFFFFF#48]) = .ok (.validate (some 0x7FFFFFFF)) ∧
  decode (.words [0x4100FFFFFFFF#48]) = .ok (.claimOut none) ∧
  decode (.request 0xA9#8) = .ok (.swdRequestDpWrite true false true) ∧
  decode (.request 0x9F#8) = .ok (.swdRequestApRead false true true) ∧
  decode (.ack 0b010#3) = .ok .swdAckWait ∧
  decode (.data 0x123000052#33) = .ok (.swdData 0x23000052 true) ∧
  decode (.seq16 0xE79E#16) = .ok .seqJtagToSwd ∧
  decode (.status 3#2) = .ok .statusNotSupported

/-- A step runs the operation the host's words decode to, with those words taken off the stream and the operands of the
command word in `A8` and `A32` (spec/30_encoding.md R60, R65; spec/10_state.md R11). That the words of an `EXEC_JTAG` stream
do not load `A8` and `A32` is the model's choice, log entry 15 (DEDUCED). -/
def Obligations.StepRunsHostOperation : Prop :=
  ∀ (s : State) (w : CmdWord) (ws : List CmdWord) (rest : List Request) (i : Instr),
    s.pending = (w :: ws).map Request.host ++ rest → decode (.words (w :: ws)) = .ok i → i.level = .host →
    step s = exec i { s with pending := rest, a8 := a8Field w, a32 := a32Field w }

/-- A step runs the operation a component request decodes to; a request that decodes to none is refused by name. The
component requests are the model's own (log entry 2). -/
def Obligations.StepRunsComponentRequest : Prop :=
  ∀ (s : State) (f : Frame) (rest : List Request), s.pending = .component f :: rest →
    (∀ i, decode f = .ok i → step s = exec i { s with pending := rest }) ∧
    (∀ e, decode f = .error e → step s = .refused .badFrame)

/-- On the host port an operation code that spec/30_encoding.md R61 does not list for the host, an internal one or an
unknown one, answers `NOT_SUPPORTED` and has no effect (R74). That such a word still loads `A8` and `A32` is the model's
choice, log entry 15 (DEDUCED). -/
def Obligations.HostPortAnswersNotSupported : Prop :=
  ∀ (s : State) (w : CmdWord) (rest : List Request), s.pending = .host w :: rest →
    opField w ∉ [0x01#8, 0x02#8, 0x03#8, 0x04#8, 0x05#8, 0x10#8, 0x11#8, 0x12#8, 0x13#8, 0x14#8, 0x15#8, 0x20#8, 0x21#8,
      0x22#8, 0x23#8, 0x24#8] →
    step s = .next { s with pending := rest, a8 := a8Field w, a32 := a32Field w, status := .notSupported }

/-- Between operations the core waits for the host (spec/60_exceptions.md R214); that a step then changes nothing is the
model's choice, log entry 29 (DEDUCED). An `EXEC_JTAG` is no operation until all its words are there (spec/30_encoding.md
R65, R75); that the step waits for them is the model's choice, log entry 16. -/
def Obligations.StepWaitsForHost : Prop :=
  (∀ s : State, s.pending = [] → step s = .next s) ∧
  (∀ (s : State) (w : CmdWord) (ws : List CmdWord), s.pending = (w :: ws).map Request.host →
    ws.length < extraWords w → step s = .next s)

/-! ## Reset and the invariant -/

/-- The values of power-on reset that the spec gives, on every platform, and the values of the parameters that have one
(spec/70_reset_and_hazards.md R220; spec/00_scope.md R2). -/
def Obligations.ResetValues : Prop :=
  ∀ c : Config,
    (State.resetOn c).status = .ok ∧ (State.resetOn c).qcode = .ok ∧ (State.resetOn c).batchOpen = false ∧
    engine (State.resetOn c) = .idle ∧ (∀ r, (State.resetOn c).pincfg.get r = none) ∧
    (State.resetOn c).coeff = c.defaultCoeff ∧ (State.resetOn c).offset = c.defaultOffset ∧
    (c.defaultBase < 2 ^ c.addrW → (State.resetOn c).base = c.defaultBase) ∧ (State.resetOn c).apDelay = 0 ∧
    (State.resetOn c).session = .inactive ∧ (State.resetOn c).tmode = .none ∧ (State.resetOn c).delay = 0 ∧
    (State.resetOn c).swdioDir = .out ∧ (∀ p, (State.resetOn c).isClaimed p = false) ∧
    (State.resetOn c).resHeld = false ∧ State.reset = State.resetOn Config.platform ∧
    State.reset.cfg.toDecided =
      { lineResetLen := 56, seqJtagToSwd := 0xE79E, seqSwdToJtag := 0xE73C, switchIdle := 8, flushIdle := 8, ackOk := 1,
        ackWait := 2, ackFault := 4, trn := 1, apDelayW := 8, resetActiveLow := true }

/-- The invariant holds right after reset, on every platform whose parameters have the values of spec/00_scope.md R2
(spec/10_state.md R27). -/
def Obligations.ResetMeetsInvariant : Prop :=
  (∀ c : Config, c.toDecided = Decided.spec → Inv (State.resetOn c)) ∧ Inv State.reset

/-- Every step keeps the invariant between operations (spec/10_state.md R27). -/
def Obligations.StepKeepsInvariant : Prop :=
  ∀ s t : State, Inv s → step s = .next t → Inv t

/-- The configuration is frozen while a session is active, for every operation, and no operation ever changes the
platform (spec/10_state.md R27 f; spec/45_session.md R182). -/
def Obligations.ConfigurationFrozenInSession : Prop :=
  ∀ (i : Instr) (s t : State), exec i s = .next t →
    t.cfg = s.cfg ∧
    (s.session = .active → t.pincfg = s.pincfg ∧ t.coeff = s.coeff ∧ t.offset = s.offset ∧ t.base = s.base)

/-- Only `INIT` and `QUIT` move between the two phases, and the mode and the resources move with them
(spec/60_exceptions.md R207). -/
def Obligations.OnlyInitAndQuitChangePhase : Prop :=
  ∀ (i : Instr) (s t : State), exec i s = .next t → i ≠ .init → i ≠ .quit →
    t.session = s.session ∧ t.tmode = s.tmode ∧ t.resHeld = s.resHeld

/-- No operation loses the mode a pin had before the session: what teardown would write back stays the same through
every operation (spec/40_pinmux.md R96). -/
def Obligations.PreSessionModeKept : Prop :=
  ∀ (i : Instr) (s t : State), exec i s = .next t → ∀ p, preSessionMode t p = preSessionMode s p

/-! ## Pin Multiplexer -/

/-- `VALIDATE`: 1 for an index from 0 to `PIN_MAX` inclusive, else 0, and nothing else changes (spec/40_pinmux.md R90). -/
def Obligations.ValidateAnswersRange : Prop :=
  ∀ s : State,
    (∀ p : BitVec 31, p.toNat ≤ s.cfg.pinMax → exec (.validate (some p)) s = .next { s with rout := 1 }) ∧
    (∀ p : BitVec 31, s.cfg.pinMax < p.toNat → exec (.validate (some p)) s = .next { s with rout := 0 }) ∧
    exec (.validate none) s = .next { s with rout := 0 }

/-- `CLAIM_OUT` and `CLAIM_IN` of a valid pin: the mode is saved at the first claim alone, the pin is claimed and takes
its new function, and every other pin and field is as before. Of an invalid or absent pin they have no meaning
(spec/40_pinmux.md R91, R92; spec/60_exceptions.md R200 d). -/
def Obligations.ClaimsSaveOnceAndSetMode : Prop :=
  ∀ s : State,
    (∀ p : BitVec 31, s.cfg.impl = .direct → p.toNat ≤ s.cfg.pinMax →
      ∀ e ∈ [(Instr.claimOut (some p), PinMode.output), (Instr.claimIn (some p), PinMode.input)],
        ∃ t, exec e.1 s = .next t ∧
          t.funcOf p.toNat = e.2 ∧ t.isClaimed p.toNat = true ∧
          t.savedMode p.toNat = (if s.isClaimed p.toNat then s.savedMode p.toNat else s.funcOf p.toNat) ∧
          (∀ q, q ≠ p.toNat →
            t.funcOf q = s.funcOf q ∧ t.isClaimed q = s.isClaimed q ∧ t.savedMode q = s.savedMode q) ∧
          t.trace = s.trace ++ [.fn p.toNat e.2] ∧
          t = { s with func := t.func, saved := t.saved, claimed := t.claimed, trace := t.trace }) ∧
    (∀ p : BitVec 31, s.cfg.pinMax < p.toNat →
      exec (.claimOut (some p)) s = .refused .badPin ∧ exec (.claimIn (some p)) s = .refused .badPin) ∧
    exec (.claimOut none) s = .refused .badPin ∧ exec (.claimIn none) s = .refused .badPin

/-- `RESTORE` writes the saved mode back and gives the pin up; it changes nothing for an unclaimed, invalid or absent pin
(spec/40_pinmux.md R93). -/
def Obligations.RestoreWritesBackMode : Prop :=
  ∀ s : State,
    (∀ p : BitVec 31, s.cfg.impl = .direct → p.toNat ≤ s.cfg.pinMax → s.isClaimed p.toNat = true →
      ∃ t, exec (.restore (some p)) s = .next t ∧
        t.funcOf p.toNat = s.savedMode p.toNat ∧ t.isClaimed p.toNat = false ∧
        (∀ q, q ≠ p.toNat → t.funcOf q = s.funcOf q ∧ t.isClaimed q = s.isClaimed q) ∧
        t.trace = s.trace ++ [.fn p.toNat (s.savedMode p.toNat)] ∧
        t = { s with func := t.func, claimed := t.claimed, trace := t.trace }) ∧
    (s.cfg.impl = .direct →
      (∀ p : BitVec 31, s.cfg.pinMax < p.toNat ∨ s.isClaimed p.toNat = false → exec (.restore (some p)) s = .next s) ∧
      exec (.restore none) s = .next s)

/-! ## Bit-Level Driver -/

/-- `DRIVE` of flavour JTAG sets TCK, TMS and TDI together: a pin driven to one level takes it, a pin driven to both takes
any, no other pin moves; then it waits (spec/41_bitdriver.md R101, R102; spec/20_memory.md R42). -/
def Obligations.DriveJtagSetsLines : Prop :=
  ∀ (s : State) (clk tms data : Bool) (c m d : Nat), enabled .jtag s = true → s.cfg.impl = .direct →
    pinOf .tck s = some c → pinOf .tms s = some m → pinOf .tdi s = some d →
    ∃ t, exec (.drive .jtag clk tms data) s = .next t ∧
      (∀ p v, (p, v) ∈ [(c, clk), (m, tms), (d, data)] → (p, !v) ∉ [(c, clk), (m, tms), (d, data)] → t.latchOf p = v) ∧
      (∀ p, p ∉ [c, m, d] → t.latchOf p = s.latchOf p) ∧
      ((∀ p v, (p, v) ∈ [(c, clk), (m, tms), (d, data)] → (p, !v) ∉ [(c, clk), (m, tms), (d, data)]) →
        t.levelDraws = s.levelDraws) ∧
      t.trace = s.trace ++ [.lv .jtag clk (some tms) data] ∧ t.waited = s.waited + s.delay.toNat ∧
      t = { s with latch := t.latch, levelDraws := t.levelDraws, trace := t.trace, waited := t.waited }

/-- `DRIVE` of flavour SWD sets SWCLK and SWDIO together, whatever its `tms` argument is (spec/41_bitdriver.md R100 to R102). -/
def Obligations.DriveSwdSetsLines : Prop :=
  ∀ (s : State) (clk tms data : Bool) (c d : Nat), enabled .swd s = true → s.cfg.impl = .direct →
    pinOf .swclk s = some c → pinOf .swdio s = some d →
    ∃ t, exec (.drive .swd clk tms data) s = .next t ∧
      (c ≠ d ∨ clk = data → t.latchOf c = clk ∧ t.latchOf d = data ∧ t.levelDraws = s.levelDraws) ∧
      (∀ p, p ≠ c → p ≠ d → t.latchOf p = s.latchOf p) ∧
      t.trace = s.trace ++ [.lv .swd clk none data] ∧ t.waited = s.waited + s.delay.toNat ∧
      t = { s with latch := t.latch, levelDraws := t.levelDraws, trace := t.trace, waited := t.waited }

/-- `READ` samples TDO or SWDIO: the core's own latch when the pin is an output, else the next bit the environment
gives, or a free value when none is given; the bit is in `ROUT`, and no wait follows (spec/41_bitdriver.md R103;
spec/10_state.md R24; spec/20_memory.md R46). -/
def Obligations.ReadSamplesLine : Prop :=
  ∀ (s : State) (f : Flavour) (p : Nat), enabled f s = true → s.cfg.impl = .direct →
    pinOf (match f with | .jtag => .tdo | .swd => .swdio) s = some p →
    (s.funcOf p = .output →
      exec (.read f) s = .next { s with
        rout := if s.latchOf p then 1 else 0, trace := s.trace ++ [.smp f (s.latchOf p)] }) ∧
    (∀ b bs, s.funcOf p ≠ .output → s.lineSrc.given = b :: bs →
      exec (.read f) s = .next { s with
        rout := if b then 1 else 0, trace := s.trace ++ [.smp f b], lineSrc := ⟨bs, s.lineSrc.used⟩ }) ∧
    (s.funcOf p ≠ .output → s.lineSrc.given = [] →
      exec (.read f) s = .next { s with
        rout := if Config.freeLine s.lineSrc.used then 1 else 0
        trace := s.trace ++ [.smp f (Config.freeLine s.lineSrc.used)]
        lineSrc := ⟨[], s.lineSrc.used + 1⟩ })

/-- `RESET` drives each reset line that is present, low when asserted and high when not where `RESET_ACTIVE_LOW` is true,
the other way round where it is false, and an absent line not at all (spec/41_bitdriver.md R104, R105). -/
def Obligations.ResetDrivesLines : Prop :=
  ∀ (s : State) (trst srst : Bool), s.session = .active → s.cfg.impl = .direct →
    ∃ t, exec (.reset trst srst) s = .next t ∧
      (∀ p, pinOf .trst s = some p → pinOf .srst s ≠ some p ∨ trst = srst →
        t.latchOf p = if s.cfg.resetActiveLow then !trst else trst) ∧
      (∀ p, pinOf .srst s = some p → pinOf .trst s ≠ some p ∨ trst = srst →
        t.latchOf p = if s.cfg.resetActiveLow then !srst else srst) ∧
      (∀ p, pinOf .trst s ≠ some p → pinOf .srst s ≠ some p → t.latchOf p = s.latchOf p) ∧
      t.trace = s.trace ++ [.rst trst srst] ∧
      t = { s with latch := t.latch, levelDraws := t.levelDraws, trace := t.trace }

/-- `DRIVE_DIRECTION` sets the direction given, claiming the pin of SWDIO (spec/41_bitdriver.md R106). -/
def Obligations.DriveDirectionSetsDirection : Prop :=
  ∀ (s : State) (d : Nat) (output : Bool), enabled .swd s = true → s.cfg.impl = .direct → pinOf .swdio s = some d →
    ∃ t, exec (.driveDirection output) s = .next t ∧
      t.swdioDir = (if output then .out else .inp) ∧ t.funcOf d = (if output then .output else .input) ∧
      t.isClaimed d = true ∧ t.savedMode d = (if s.isClaimed d then s.savedMode d else s.funcOf d) ∧
      (∀ q, q ≠ d → t.funcOf q = s.funcOf q ∧ t.isClaimed q = s.isClaimed q ∧ t.savedMode q = s.savedMode q) ∧
      t.trace = s.trace ++ (if output then toOutput d else toInput d) ∧
      t = { s with
        func := t.func, saved := t.saved, claimed := t.claimed, trace := t.trace, swdioDir := t.swdioDir }

/-- Driver primitives of a flavour that is not enabled, and `RESET` and a valid `EXEC_JTAG` outside a session, have no
meaning; nor has an `EXEC_JTAG` whose stream holds a `DRIVE` or a `READ` in a session without JTAG, when the `RESET`s before
it complete; the rows the core sends are refused by the driver too, log entry 17, on a platform whose parameters have the
values of the spec, so that there are bits to send (spec/60_exceptions.md R200 a to c; spec/45_session.md R180;
spec/00_scope.md R2). -/
def Obligations.DriverRefusedWhenDisabled : Prop :=
  ∀ s : State,
    (∀ f clk tms data, enabled f s = false → exec (.drive f clk tms data) s = .refused .flavourDisabled) ∧
    (∀ f, enabled f s = false → exec (.read f) s = .refused .flavourDisabled) ∧
    (∀ o, enabled .swd s = false → exec (.driveDirection o) s = .refused .flavourDisabled) ∧
    (∀ a b, s.session = .inactive → exec (.reset a b) s = .refused .noSession) ∧
    (∀ n ws, s.session = .inactive → (∀ w ∈ ws, primitiveInstr w ≠ none) →
      exec (.execJtag n ws) s = .refused .noSession) ∧
    (∀ n ws, s.session = .active → modeAllows .jtag s.tmode = false → s.cfg.impl = .direct →
      (∀ w ∈ ws, primitiveInstr w ≠ none) → (∃ w ∈ ws, ∀ a b, w ≠ .reset a b) →
      exec (.execJtag n ws) s = .refused .flavourDisabled) ∧
    (∀ p a3 a2 v, enabled .swd s = false → s.cfg.toDecided = Decided.spec →
      (∀ i ∈ [Instr.swdRequestDpWrite p a3 a2, .swdRequestDpRead p a3 a2, .swdRequestApWrite p a3 a2,
          .swdRequestApRead p a3 a2, .seqLineReset, .seqJtagToSwd, .seqSwdToJtag],
        exec i s = .refused .flavourDisabled) ∧
      (s.swdioDir = .out → exec (.swdData v p) s = .refused .flavourDisabled))

/-! ## Speed Calibrator -/

/-- `KHZ_TO_SPEED` gives `max(0, COEFF div khz - OFFSET)` in `ROUT`, in both phases and without overflow, and changes no
other register; for a frequency of zero it is not supported and `ROUT` is unchanged (spec/42_speed.md R120). -/
def Obligations.DelayFromKhz : Prop :=
  ∀ s : State,
    (∀ khz : Word, khz ≠ 0 → ∃ t, exec (.khzToSpeed khz) s = .next t ∧
      (t.rout.toNat : Int) = max 0 ((s.coeff.toNat : Int) / khz.toNat - s.offset.toInt) ∧
      t = { s with rout := t.rout, status := .ok }) ∧
    exec (.khzToSpeed 0) s = .next { s with status := .notSupported }

/-- `SET_SPEED` puts the delay of a positive frequency in `DELAY`, in both phases and without overflow, and changes no
other register (spec/42_speed.md R124, R125). -/
def Obligations.SetSpeedSetsDelay : Prop :=
  ∀ (s : State) (khz : Word), khz ≠ 0 →
    ∃ t, exec (.setSpeed khz) s = .next t ∧
      (t.delay.toNat : Int) = max 0 ((s.coeff.toNat : Int) / khz.toNat - s.offset.toInt) ∧
      t = { s with delay := t.delay, status := .ok }

/-- A frequency of zero is not supported, for any coefficient and offset, and is never latched (spec/42_speed.md R121). -/
def Obligations.ZeroFrequencyUnsupported : Prop :=
  ∀ s : State,
    exec (.khzToSpeed 0) s = .next { s with status := .notSupported } ∧
    exec (.setSpeed 0) s = .next { s with status := .notSupported }

/-- `SPEED_TO_KHZ` gives `COEFF div (delay + OFFSET)`, and `FAIL` when the divisor is not positive (spec/42_speed.md R123). -/
def Obligations.SpeedToKhzDivides : Prop :=
  ∀ (s : State) (delay : Word),
    (0 < (delay.toNat : Int) + s.offset.toInt →
      ∃ t, exec (.speedToKhz delay) s = .next t ∧
        (t.rout.toNat : Int) = (s.coeff.toNat : Int) / (delay.toNat + s.offset.toInt) ∧
        t = { s with rout := t.rout, status := .ok }) ∧
    ((delay.toNat : Int) + s.offset.toInt ≤ 0 → exec (.speedToKhz delay) s = .next { s with status := .fail })

/-- The delay does not grow when the frequency does (spec/42_speed.md R122). -/
def Obligations.DelayNonIncreasingInKhz : Prop :=
  ∀ (s t u : State) (k l : Word), k ≠ 0 → k.toNat ≤ l.toNat →
    exec (.khzToSpeed k) s = .next t → exec (.khzToSpeed l) s = .next u → u.rout.toNat ≤ t.rout.toNat

/-! ## Configuration -/

/-- `CFG_PIN` stores the operand for the role its code names; another code is not supported in either phase
(spec/45_session.md R170; spec/30_encoding.md R63). -/
def Obligations.CfgPinConfiguresRole : Prop :=
  ∀ (s : State) (x : PinOperand),
    (∀ e ∈ [(0#8, Role.tck), (1#8, .tms), (2#8, .tdi), (3#8, .tdo), (4#8, .trst), (5#8, .srst), (6#8, .swclk), (7#8, .swdio)],
      (s.session = .inactive → ∃ t, exec (.cfgPin e.1 x) s = .next t ∧ t.pincfg.get e.2 = x ∧
        (∀ r, r ≠ e.2 → t.pincfg.get r = s.pincfg.get r) ∧ t = { s with pincfg := t.pincfg, status := .ok }) ∧
      (s.session = .active → exec (.cfgPin e.1 x) s = .next { s with status := .fail })) ∧
    (∀ code : Byte, 7 < code.toNat → exec (.cfgPin code x) s = .next { s with status := .notSupported })

/-- `CFG_COEFF`, `CFG_OFFSET` and `CFG_BASE` outside a session; in a session the three fail and change nothing
(spec/45_session.md R171, R172, R175, R177; spec/30_encoding.md R62). -/
def Obligations.CfgTimingAndBase : Prop :=
  ∀ s : State,
    (s.session = .inactive →
      (∀ c : Word, c.toNat < 2 ^ 31 → ∃ t, exec (.cfgCoeff c) s = .next t ∧ t.coeff.toNat = c.toNat ∧
        t = { s with coeff := t.coeff, status := .ok }) ∧
      (∀ c : Word, 2 ^ 31 ≤ c.toNat → exec (.cfgCoeff c) s = .next { s with status := .fail }) ∧
      (∀ o : Word, exec (.cfgOffset o) s = .next { s with offset := o, status := .ok }) ∧
      (∀ a : Word, exec (.cfgBase a) s = .next { s with base := a.toNat % 2 ^ s.cfg.addrW, status := .ok })) ∧
    (s.session = .active →
      ∀ a, ∀ i ∈ [Instr.cfgCoeff a, .cfgOffset a, .cfgBase a], exec i s = .next { s with status := .fail })

/-- `CFG_AP_DELAY` works in both phases and takes the whole of its operand, which fits the register (spec/45_session.md
R178; spec/30_encoding.md R62). With another `AP_DELAY_W` the cut is the model's choice, log entry 31. -/
def Obligations.CfgApDelaySetsCount : Prop :=
  ∀ (s : State) (n : Byte),
    exec (.cfgApDelay n) s = .next { s with apDelay := n.toNat % 2 ^ s.cfg.apDelayW, status := .ok } ∧
    (s.cfg.toDecided = Decided.spec → exec (.cfgApDelay n) s = .next { s with apDelay := n.toNat, status := .ok })

/-! ## Session -/

/-- `INIT` fails and changes nothing else in a session, with four JTAG pins and no reset line, and with no mode satisfied; it
fails and claims nothing when the draw, given or free, says that the resources cannot be had (spec/45_session.md R173 a to d,
R181). -/
def Obligations.InitFails : Prop :=
  ∀ s : State,
    (s.session = .active ∨
      ((∀ r ∈ [Role.tck, .tms, .tdi, .tdo], pinOf r s ≠ none) ∧ pinOf .trst s = none ∧ pinOf .srst s = none) ∨
      ((∃ r ∈ [Role.tck, .tms, .tdi, .tdo], pinOf r s = none) ∧ ∃ r ∈ [Role.swclk, .swdio], pinOf r s = none) →
      exec .init s = .next { s with status := .fail }) ∧
    ∀ src, initRefuses s = false → s.cfg.impl = .direct → s.acquireSrc.draw Config.freeAcquire = (false, src) →
      exec .init s = .next { s with status := .fail, acquireSrc := src }

/-- A successful `INIT`, its draw given or free, starts a session: the mode follows from the usable pins, the mode each pin
had is saved, the pins of the session are claimed, and every other pin and register is as before. TDO is an input, the
other roles are outputs and start at the levels of spec/70_reset_and_hazards.md R222; on a pin that roles share the last
claim gives the function and the last level write that names it gives the level, unless that write names it with both
levels; a pin of TDO alone keeps its latch (spec/45_session.md R174, R181; spec/40_pinmux.md R95). -/
def Obligations.InitStartsSession : Prop :=
  ∀ (s : State) (src : Source), SessionInv s → initRefuses s = false → s.cfg.impl = .direct →
    s.acquireSrc.draw Config.freeAcquire = (true, src) →
    ∃ t, exec .init s = .next t ∧
      t.session = .active ∧ t.resHeld = true ∧ t.qcode = .ok ∧ t.batchOpen = false ∧ t.status = .ok ∧
      (t.tmode = .dual ↔ jtagOk s = true ∧ swdOk s = true) ∧
      (t.tmode = .jtag ↔ jtagOk s = true ∧ swdOk s = false) ∧
      (t.tmode = .swd ↔ jtagOk s = false ∧ swdOk s = true) ∧
      (swdOk s = true → t.swdioDir = .out) ∧ (swdOk s = false → t.swdioDir = s.swdioDir) ∧
      (∀ p ∈ sessionPins s, t.isClaimed p = true ∧ t.savedMode p = s.funcOf p) ∧
      (∀ p, p ∉ sessionPins s → t.isClaimed p = false ∧ t.savedMode p = s.savedMode p ∧ t.funcOf p = s.funcOf p ∧
        t.latchOf p = s.latchOf p) ∧
      ((sessionPins s).Nodup → ∀ r ∈ sessionRoles s, ∀ p, pinOf r s = some p →
        t.funcOf p = sessionMode r ∧ (r ≠ .tdo → t.latchOf p = initialLevel r)) ∧
      (∀ before r after p, sessionRoles s = before ++ r :: after → pinOf r s = some p →
        (∀ q ∈ after, pinOf q s ≠ some p) → t.funcOf p = sessionMode r) ∧
      (∀ before g after p v, levelGroups s = before ++ g :: after → (∃ r ∈ g, pinOf r s = some p) →
        (∀ r ∈ g, pinOf r s = some p → initialLevel r = v) → (∀ h ∈ after, ∀ r ∈ h, pinOf r s ≠ some p) →
        t.latchOf p = v) ∧
      (∀ p, (∀ g ∈ levelGroups s, ∀ r ∈ g, pinOf r s ≠ some p) → t.latchOf p = s.latchOf p) ∧
      t.trace = s.trace ++ sessionClaims s ∧
      t = { s with
        session := t.session, tmode := t.tmode, resHeld := t.resHeld, qcode := t.qcode, batchOpen := t.batchOpen,
        status := t.status, swdioDir := t.swdioDir, claimed := t.claimed, saved := t.saved, func := t.func,
        latch := t.latch, levelDraws := t.levelDraws, trace := t.trace, acquireSrc := src }

/-- `QUIT` gives every pin back in the mode it had before the session and ends it; the latched code, the delays, the
latches and the configuration stay. Outside a session it changes nothing (spec/45_session.md R176; spec/40_pinmux.md R96). -/
def Obligations.QuitRestoresPins : Prop :=
  (∀ s : State, SessionInv s → s.session = .active → s.cfg.impl = .direct →
    ∃ t, exec .quit s = .next t ∧
      t.session = .inactive ∧ t.tmode = .none ∧ t.resHeld = false ∧ t.status = .ok ∧
      (∀ p, t.isClaimed p = false ∧ t.funcOf p = (if s.isClaimed p then s.savedMode p else s.funcOf p)) ∧
      (∃ evs, t.trace = s.trace ++ evs) ∧
      t = { s with
        session := t.session, tmode := t.tmode, resHeld := t.resHeld, status := t.status, claimed := t.claimed,
        func := t.func, trace := t.trace }) ∧
  (∀ s : State, s.session = .inactive → exec .quit s = .next { s with status := .ok })

/-- `SWD_INIT` is a query: `OK` in a session of SWD capability, else `FAIL` (spec/45_session.md R179). -/
def Obligations.SwdInitAnswersCapability : Prop :=
  ∀ s : State,
    (s.session = .active → s.tmode = .swd ∨ s.tmode = .dual → exec .swdInit s = .next { s with status := .ok }) ∧
    (s.session = .inactive ∨ s.tmode = .none ∨ s.tmode = .jtag → exec .swdInit s = .next { s with status := .fail })

/-- A stream with any other word makes `EXEC_JTAG` answer `NOT_SUPPORTED`, in every state, with no primitive performed
(spec/45_session.md R180; spec/30_encoding.md R74). -/
def Obligations.ExecJtagChecksStream : Prop :=
  ∀ (s : State) (n : Word) (ws : List StreamWord), (∃ w ∈ ws, primitiveInstr w = none) →
    exec (.execJtag n ws) s = .next { s with status := .notSupported }

/-- `EXEC_JTAG` performs its primitives in list order, each with its own effect, and returns the bits its `READ`s
returned, in order; in a session without JTAG a stream of `RESET`s alone still runs (spec/45_session.md R180). -/
def Obligations.ExecJtagRunsPrimitives : Prop :=
  ∀ (s : State) (n : Word) (ws : List StreamWord), SessionInv s → s.session = .active → s.cfg.impl = .direct →
    (∀ w ∈ ws, primitiveInstr w ≠ none) →
    (modeAllows .jtag s.tmode = true ∨ ∀ w ∈ ws, ∃ a b, w = .reset a b) →
    ∃ t u evs, exec (.execJtag n ws) s = .next t ∧ execAll (ws.filterMap primitiveInstr) s = .next u ∧
      u.trace = s.trace ++ evs ∧ t = { u with status := .ok, jtagOut := jtagSamples evs } ∧
      u = { s with
        latch := u.latch, levelDraws := u.levelDraws, trace := u.trace, waited := u.waited, rout := u.rout,
        lineSrc := u.lineSrc } ∧
      (∀ p, (∀ r ∈ [Role.tck, .tms, .tdi, .trst, .srst], pinOf r s ≠ some p) → u.latchOf p = s.latchOf p)

/-! ## SWD Protocol Engine -/

/-- The parity bit is 1 exactly when the value has an even number of ones (spec/43_swd_engine.md R132). -/
def Obligations.ParityOddCountsOnes : Prop :=
  ∀ v : Word, parityOdd v = true ↔ ((List.range 32).filter fun k => v.getLsbD k).length % 2 = 0

/-- The request byte: bits 1 to 5 as the caller gave them, bits 0 and 7 one, bit 6 zero (spec/30_encoding.md R67). -/
def Obligations.HeaderForcesFraming : Prop :=
  ∀ cmd : Byte,
    (∀ k, 1 ≤ k → k ≤ 5 → (header cmd).getLsbD k = cmd.getLsbD k) ∧
    (header cmd).getLsbD 0 = true ∧ (header cmd).getLsbD 6 = false ∧ (header cmd).getLsbD 7 = true

/-- A write whose ACK is OK: the request, the turnarounds, the value and its parity bit, and after an access-port request
`AP_DELAY` idle cycles; nothing is latched (spec/43_swd_engine.md R134, R135, R138, R144). -/
def Obligations.WriteRegTransmits : Prop :=
  ∀ (s : State) (cmd : Byte) (v : Word) (d : Nat) (x y : Bool) (rest : List Bool), SwdSession s →
    cmd.getLsbD 2 = false → s.qcode = .ok → pinOf .swdio s = some d →
    s.lineSrc.given = [x, true, false, false, y] ++ rest →
    ∃ t, exec (.writeReg cmd v) s = .next t ∧
      t.qcode = .ok ∧ t.status = .ok ∧ t.batchOpen = true ∧ t.rdata = s.rdata ∧ t.rpar = s.rpar ∧
      t.trace = s.trace ++ (outEvents (wireBits (header cmd)) ++ toInput d ++ inEvents [x, true, false, false, y] ++
        toOutput d ++ outEvents (wireBits v ++ [parityOdd v]) ++
        outEvents (if cmd.getLsbD 1 then List.replicate s.apDelay false else [])) ∧
      t.lineSrc = ⟨rest, s.lineSrc.used⟩ ∧ WireFrame s t

/-- A register operation whose ACK is not OK: no data phase and no idle cycle; WAIT latches `WAIT`, every other ACK
`FAIL` (spec/43_swd_engine.md R134 to R136, R138, R141, R142). -/
def Obligations.BadAckLatchesFault : Prop :=
  ∀ (s : State) (i : Instr) (cmd : Byte) (d : Nat) (x y a0 a1 a2 : Bool) (rest : List Bool), SwdSession s →
    isRegisterOp i = true → (i = .readReg cmd ∨ ∃ v, i = .writeReg cmd v) →
    s.qcode = .ok → pinOf .swdio s = some d → [a0, a1, a2] ≠ [true, false, false] →
    s.lineSrc.given = [x, a0, a1, a2, y] ++ rest →
    ∃ t, exec i s = .next t ∧
      t.qcode = (if [a0, a1, a2] = [false, true, false] then .wait else .fail) ∧ t.status = codeOfQ t.qcode ∧
      t.batchOpen = true ∧ t.rdata = s.rdata ∧ t.rpar = s.rpar ∧
      t.trace = s.trace ++ (outEvents (wireBits (header cmd)) ++ toInput d ++ inEvents [x, a0, a1, a2, y] ++ toOutput d) ∧
      t.lineSrc = ⟨rest, s.lineSrc.used⟩ ∧ WireFrame s t

/-- A read whose ACK is OK and whose parity matches: the value and its parity bit are delivered. With the bits a write
of `v` puts on the wire this is the round trip (spec/43_swd_engine.md R141, R142, R144, R148). -/
def Obligations.ReadRegAccepts : Prop :=
  ∀ (s : State) (cmd : Byte) (v : Word) (d : Nat) (x y : Bool) (rest : List Bool), SwdSession s →
    cmd.getLsbD 2 = true → s.qcode = .ok → pinOf .swdio s = some d →
    s.lineSrc.given = [x, true, false, false] ++ wireBits v ++ [parityOdd v, y] ++ rest →
    ∃ t, exec (.readReg cmd) s = .next t ∧
      t.qcode = .ok ∧ t.status = .ok ∧ t.batchOpen = true ∧ t.rdata = v ∧ t.rpar = parityOdd v ∧
      t.trace = s.trace ++ (outEvents (wireBits (header cmd)) ++ toInput d ++
        inEvents ([x, true, false, false] ++ wireBits v ++ [parityOdd v, y]) ++ toOutput d ++
        outEvents (if cmd.getLsbD 1 then List.replicate s.apDelay false else [])) ∧
      t.lineSrc = ⟨rest, s.lineSrc.used⟩ ∧ WireFrame s t

/-- A parity mismatch overrides the OK ACK: `FAIL` is latched, the slot keeps its value and no idle cycle follows
(spec/43_swd_engine.md R141 to R144). -/
def Obligations.ReadRegRejectsBadParity : Prop :=
  ∀ (s : State) (cmd : Byte) (v : Word) (d : Nat) (x y : Bool) (rest : List Bool), SwdSession s →
    cmd.getLsbD 2 = true → s.qcode = .ok → pinOf .swdio s = some d →
    s.lineSrc.given = [x, true, false, false] ++ wireBits v ++ [!parityOdd v, y] ++ rest →
    ∃ t, exec (.readReg cmd) s = .next t ∧
      t.qcode = .fail ∧ t.status = .fail ∧ t.batchOpen = true ∧ t.rdata = s.rdata ∧ t.rpar = s.rpar ∧
      t.trace = s.trace ++ (outEvents (wireBits (header cmd)) ++ toInput d ++
        inEvents ([x, true, false, false] ++ wireBits v ++ [!parityOdd v, y]) ++ toOutput d) ∧
      t.lineSrc = ⟨rest, s.lineSrc.used⟩ ∧ WireFrame s t

/-- For every sequence of draws, given or free, a register operation with the right direction bit completes: the batch is
open, the status mirrors `QCODE`, and SWDIO is an output again (spec/43_swd_engine.md R130, R135, R141; spec/20_memory.md R46). -/
def Obligations.RegisterOperationsComplete : Prop :=
  ∀ (s : State) (i : Instr), SwdSession s → isRegisterOp i = true →
    ∃ t, exec i s = .next t ∧ t.batchOpen = true ∧ t.status = codeOfQ t.qcode ∧ t.swdioDir = .out ∧ WireFrame s t

/-- While a fault is latched a register operation is skipped: nothing reaches the wire, and the code is reported
(spec/43_swd_engine.md R131, R135, R141). -/
def Obligations.FaultedOperationSkipped : Prop :=
  ∀ (s : State) (i : Instr), enabled .swd s = true → isRegisterOp i = true → s.qcode ≠ .ok →
    exec i s = .next { s with batchOpen := true, status := codeOfQ s.qcode }

/-- Without a session of SWD capability the engine's and the sequences' operations have no meaning; with one, a direction
bit that is wrong is an assertion failure, whatever `QCODE` holds (spec/60_exceptions.md R200 a, e; spec/43_swd_engine.md
R137, R140). -/
def Obligations.EngineRefusals : Prop :=
  ∀ s : State,
    (enabled .swd s = false →
      (∀ cmd v, exec (.writeReg cmd v) s = .refused .noSwd) ∧ (∀ cmd, exec (.readReg cmd) s = .refused .noSwd) ∧
      ∀ i ∈ [Instr.runQueue, .switchLineReset, .switchJtagToSwd, .switchSwdToJtag], exec i s = .refused .noSwd) ∧
    (enabled .swd s = true →
      (∀ cmd v, cmd.getLsbD 2 = true → exec (.writeReg cmd v) s = .refused .assertRnwOnWrite) ∧
      (∀ cmd, cmd.getLsbD 2 = false → exec (.readReg cmd) s = .refused .assertNoRnwOnRead))

/-- `RUN_QUEUE` emits eight idle cycles, faulted or not, returns the latched code and clears it (spec/43_swd_engine.md R145). -/
def Obligations.RunQueueFlushes : Prop :=
  ∀ s : State, SwdSession s →
    ∃ t, exec .runQueue s = .next t ∧
      t.status = codeOfQ s.qcode ∧ t.qcode = .ok ∧ t.batchOpen = false ∧ engine t = .idle ∧
      t.rdata = s.rdata ∧ t.rpar = s.rpar ∧ t.rout = s.rout ∧ t.lineSrc = s.lineSrc ∧
      t.trace = s.trace ++ outEvents (List.replicate 8 false) ∧ WireFrame s t

/-- The sticky-error property: after a fault every register operation of the batch, however many there are, changes no
hardware state and reports the same code, and `RUN_QUEUE` then returns that code and clears it (spec/43_swd_engine.md R147). -/
def Obligations.StickyErrorBatch : Prop :=
  ∀ (s : State) (ops : List Instr), SwdSession s → s.qcode ≠ .ok → ops ≠ [] → (∀ i ∈ ops, isRegisterOp i = true) →
    execAll ops s = .next { s with batchOpen := true, status := codeOfQ s.qcode } ∧
    ∃ u, execAll (ops ++ [.runQueue]) s = .next u ∧ u.status = codeOfQ s.qcode ∧ u.qcode = .ok ∧ engine u = .idle

/-- Nothing but the register operations, the flush and a new session touches the batch: every other operation of a port
leaves `QCODE` and `BATCH_OPEN` as they are; and no operation but the flush and a new session drops or replaces a fault
once latched (spec/43_swd_engine.md R130, R131; spec/60_exceptions.md R197). -/
def Obligations.OnlyFlushAndInitClearFault : Prop :=
  ∀ (i : Instr) (s t : State), exec i s = .next t → i ≠ .runQueue → i ≠ .init →
    (s.qcode ≠ .ok → t.qcode = s.qcode) ∧
    (i.level ≠ .format → (∀ cmd v, i ≠ .writeReg cmd v) → (∀ cmd, i ≠ .readReg cmd) →
      t.qcode = s.qcode ∧ t.batchOpen = s.batchOpen)

/-! ## Special sequences -/

/-- `SWITCH_SEQ` puts exactly its bits on the wire, in every state of the engine (spec/44_sequences.md R160 to R163). -/
def Obligations.SwitchSequencesOnWire : Prop :=
  ∀ s : State, SwdSession s →
    ∀ e ∈ [(Instr.switchLineReset, List.replicate 56 true),
        (.switchJtagToSwd, wireBits 0xE79E#16 ++ List.replicate 8 false), (.switchSwdToJtag, wireBits 0xE73C#16)],
      ∃ t, exec e.1 s = .next t ∧
        t.trace = s.trace ++ outEvents e.2 ∧ t.status = .ok ∧ t.qcode = s.qcode ∧ t.batchOpen = s.batchOpen ∧
        t.rdata = s.rdata ∧ t.rpar = s.rpar ∧ t.rout = s.rout ∧ t.lineSrc = s.lineSrc ∧ WireFrame s t ∧
        ∀ c d, pinOf .swclk s = some c → pinOf .swdio s = some d → c ≠ d →
          t.latchOf c = true ∧ t.latchOf d = e.2.getLastD false

/-- An unknown sequence identifier is not supported and sends nothing, even outside a session (spec/44_sequences.md R164). -/
def Obligations.UnknownSequenceUnsupported : Prop :=
  ∀ (s : State) (id : Byte), 3 ≤ id.toNat →
    decodeSwitch id = .switchUnsupported id ∧
    exec (.switchUnsupported id) s = .next { s with status := .notSupported }

/-! ## Wire formats and status codes, alone -/

/-- The rows the core sends. A request row sends its eight bits, bit 0 first: 1, APnDP, RnW, A2, A3, parity, 0, 1
(spec/30_encoding.md R66, R68); a sequence row the bits of `SWITCH_SEQ` (spec/44_sequences.md R161 to R163). They return
no status. That the row alone is clocked out is the model's choice, log entry 17. -/
def Obligations.SentRowsOnWire : Prop :=
  ∀ (s : State) (p a3 a2 : Bool), SwdSession s →
    ∀ e ∈ [(Instr.swdRequestDpWrite p a3 a2, [true, false, false, a2, a3, p, false, true]),
        (.swdRequestDpRead p a3 a2, [true, false, true, a2, a3, p, false, true]),
        (.swdRequestApWrite p a3 a2, [true, true, false, a2, a3, p, false, true]),
        (.swdRequestApRead p a3 a2, [true, true, true, a2, a3, p, false, true]),
        (.seqLineReset, List.replicate 56 true), (.seqJtagToSwd, wireBits 0xE79E#16 ++ List.replicate 8 false),
        (.seqSwdToJtag, wireBits 0xE73C#16)],
      ∃ t, exec e.1 s = .next t ∧
        t.trace = s.trace ++ outEvents e.2 ∧ t.status = s.status ∧ t.qcode = s.qcode ∧ t.batchOpen = s.batchOpen ∧
        t.rdata = s.rdata ∧ t.rpar = s.rpar ∧ t.rout = s.rout ∧ t.lineSrc = s.lineSrc ∧ WireFrame s t

/-- What a received ACK latches: OK nothing, WAIT `WAIT`, FAULT and every undecodable value `FAIL`, and no ACK anything over
a fault already latched (spec/43_swd_engine.md R136; spec/60_exceptions.md R196). The row alone: log entry 17. -/
def Obligations.AckRowsLatch : Prop :=
  ∀ s : State,
    (s.cfg.toDecided = Decided.spec → s.qcode = .ok →
      exec .swdAckOk s = .next s ∧ exec .swdAckWait s = .next { s with qcode := .wait } ∧
      exec .swdAckFault s = .next { s with qcode := .fail } ∧
      ∀ a ∈ [0b000#3, 0b011#3, 0b101#3, 0b110#3, 0b111#3],
        exec (.swdAckUndecodable a) s = .next { s with qcode := .fail }) ∧
    (s.qcode ≠ .ok →
      (∀ i ∈ [Instr.swdAckOk, .swdAckWait, .swdAckFault], exec i s = .next s) ∧
      ∀ a : BitVec 3, exec (.swdAckUndecodable a) s = .next s)

/-- The data row: while SWDIO is an output the core sends the 33 bits; while it is an input it accepts the value when the
parity matches and latches `FAIL` when it does not (spec/30_encoding.md R70; spec/43_swd_engine.md R138, R142, R143). The
row alone: log entry 17. -/
def Obligations.DataRowSendsOrAccepts : Prop :=
  ∀ (s : State) (v : Word) (p : Bool),
    (SwdSession s → ∃ t, exec (.swdData v p) s = .next t ∧ t.trace = s.trace ++ outEvents (wireBits v ++ [p]) ∧
      t.status = s.status ∧ t.qcode = s.qcode ∧ t.batchOpen = s.batchOpen ∧ t.rdata = s.rdata ∧ t.rpar = s.rpar ∧
      t.rout = s.rout ∧ t.lineSrc = s.lineSrc ∧ WireFrame s t) ∧
    (s.swdioDir = .inp → s.qcode = .ok → p = parityOdd v →
      exec (.swdData v p) s = .next { s with rdata := v, rpar := p }) ∧
    (s.swdioDir = .inp → s.qcode = .ok → p ≠ parityOdd v → exec (.swdData v p) s = .next { s with qcode := .fail }) ∧
    (s.swdioDir = .inp → s.qcode ≠ .ok → exec (.swdData v p) s = .next s)

/-- A status row returns its code in `STATUS` and changes nothing else (spec/30_encoding.md R72). The row alone: log
entry 18. -/
def Obligations.StatusRowsReturnCode : Prop :=
  ∀ s : State,
    ∀ e ∈ [(Instr.statusOk, Code.ok), (.statusFail, .fail), (.statusWait, .wait), (.statusNotSupported, .notSupported)],
      exec e.1 s = .next { s with status := e.2 }

/-! ## The wire -/

/-- The driver waits `DELAY` iterations once after each `DRIVE` and nowhere else, and the history of the wire only grows
(spec/41_bitdriver.md R102; spec/10_state.md R30). The counter of iterations is the model's, log entry 22. -/
def Obligations.OneWaitPerDrive : Prop :=
  ∀ (i : Instr) (s t : State), exec i s = .next t →
    ∃ evs, t.trace = s.trace ++ evs ∧ t.waited = s.waited + (evs.filter isDriveEvent).length * s.delay.toNat

/-- After any whole number of clock cycles SWCLK is high: an operation of the host or a wire format that makes cycles
leaves it high, one that makes none leaves it as it was (spec/41_bitdriver.md R112). `EXEC_JTAG`, whose primitives are
no cycles (R113), and the two operations that claim and restore the pins are not among them. -/
def Obligations.SwclkHighAfterCycles : Prop :=
  ∀ (i : Instr) (s t : State) (c d : Nat), SessionInv s → enabled .swd s = true → pinOf .swclk s = some c →
    pinOf .swdio s = some d → c ≠ d → i.level ≠ .internal → i ≠ .init → i ≠ .quit → (∀ n ws, i ≠ .execJtag n ws) →
    exec i s = .next t → t.latchOf c = (if t.trace = s.trace then s.latchOf c else true)

/-! ## The co-processor -/

/-- With `IMPL = DIRECT` no operation hangs (spec/60_exceptions.md R212). -/
def Obligations.DirectNeverHangs : Prop :=
  ∀ (i : Instr) (s : State) (e : Fault), s.cfg.impl = .direct → exec i s ≠ .fault e

/-- The co-processor implements the same signal-level contract: an operation that completes with it does what it does when
the pins are reached directly, on the same draws (spec/60_exceptions.md R211; spec/93_implementation_defined.md U17). -/
def Obligations.CoprocessorAgreesWithDirect : Prop :=
  ∀ (i : Instr) (s t : State), s.cfg.impl = .coproc → exec i s = .next t → exec i (asDirect s) = .next (asDirect t)

/-- And it completes when the co-processor answers: for every operation that completes directly there is the number of
requests it makes of the co-processor; with as many answers it completes through the co-processor, and with fewer it hangs
at the request that is not answered, with the history of the steps before it, which the direct run has too
(spec/60_exceptions.md R211, R212). -/
def Obligations.AnsweringCoprocessorCompletes : Prop :=
  ∀ (i : Instr) (s t : State), s.cfg.impl = .coproc → exec i (asDirect s) = .next t →
    ∃ n, (∃ u, exec i { s with coprocSrc := ⟨List.replicate n true, 0⟩ } = .next u ∧ asDirect u = t ∧
        u.coprocSrc = ⟨[], 0⟩) ∧
      ∀ k < n, ∀ (rest : List Bool) (used : Nat), ∃ h before after,
        exec i { s with coprocSrc := ⟨List.replicate k true ++ false :: rest, used⟩ } = .fault (.stuck h) ∧
        h.coprocSrc = ⟨rest, used⟩ ∧ h.trace = s.trace ++ before ∧ t.trace = h.trace ++ after

/-- A co-processor that falls silent hangs the core at the request it does not answer, with the effects of the earlier steps
in force and no status returned (spec/60_exceptions.md R212). First the operations whose first request is not answered, for
every operand: nothing of them is in force but, in a register operation, the open batch. Then each operation that makes more
requests, silent after `k` answers. The operations that only send, with the rows the core sends, which run alone by log entry
17: what `k` of their `DRIVE`s did is in force. An `EXEC_JTAG` that hangs in one of its primitives: what the primitives before
it did. A register operation, its draws given or free: what `k` of its primitives did and, in the idle cycles after a read,
the value delivered. `INIT` past `acquire()`: the resources, the mode and `k` of its steps. `QUIT`: `k` of the claimed pins
are given back, which ones the statement leaves open. That the request's own effect is not in force is the model's choice,
log entry 11; so is that `acquire()` and each level write of `INIT` is a request and that every `RESTORE` makes its own, log
entry 10. -/
def Obligations.SilentCoprocessorHangs : Prop :=
  (∀ (s : State) (rest : List Bool), s.cfg.impl = .coproc → s.coprocSrc.given = false :: rest →
    ∀ hung : State, hung = { s with coprocSrc := ⟨rest, s.coprocSrc.used⟩ } →
    (∀ f clk tms data, flavourReady f s → exec (.drive f clk tms data) s = .fault (.stuck hung)) ∧
    (∀ f, flavourReady f s → exec (.read f) s = .fault (.stuck hung)) ∧
    (∀ trst srst, s.session = .active → exec (.reset trst srst) s = .fault (.stuck hung)) ∧
    (∀ output, flavourReady .swd s → exec (.driveDirection output) s = .fault (.stuck hung)) ∧
    (∀ x, validPin s.cfg x ≠ none →
      exec (.claimOut x) s = .fault (.stuck hung) ∧ exec (.claimIn x) s = .fault (.stuck hung)) ∧
    (∀ x, exec (.restore x) s = .fault (.stuck hung)) ∧
    (initRefuses s = false → exec .init s = .fault (.stuck hung)) ∧
    (∀ p, s.session = .active → p ≤ s.cfg.pinMax → s.isClaimed p = true → exec .quit s = .fault (.stuck hung)) ∧
    (∀ i, flavourReady .swd s → isRegisterOp i = true → s.qcode = .ok →
      exec i s = .fault (.stuck { hung with batchOpen := true })) ∧
    (∀ n w ws, (flavourReady .jtag s ∨ s.session = .active ∧ ∃ a b, w = .reset a b) →
      (∀ v ∈ w :: ws, primitiveInstr v ≠ none) → exec (.execJtag n (w :: ws)) s = .fault (.stuck hung))) ∧
  (∀ (s : State) (i : Instr) (k : Nat) (rest : List Bool), s.cfg.impl = .coproc → s.cfg.toDecided = Decided.spec →
    flavourReady .swd s → (∀ v p, i = .swdData v p → s.swdioDir = .out) → k < (driveInstrs (sentBits i)).length →
    s.coprocSrc.given = List.replicate k true ++ false :: rest →
    ∃ u, execAll ((driveInstrs (sentBits i)).take k) s = .next u ∧
      exec i s = .fault (.stuck { u with coprocSrc := ⟨rest, u.coprocSrc.used⟩ })) ∧
  (∀ (s u h : State) (n : Word) (before after : List StreamWord) (w : StreamWord) (i : Instr),
    (∀ v ∈ before ++ w :: after, primitiveInstr v ≠ none) → execAll (before.filterMap primitiveInstr) s = .next u →
    primitiveInstr w = some i → exec i u = .fault (.stuck h) →
    exec (.execJtag n (before ++ w :: after)) s = .fault (.stuck h)) ∧
  (∀ (s : State) (i : Instr) (k : Nat) (rest : List Bool), s.cfg.impl = .coproc → SessionInv s → enabled .swd s = true →
    isRegisterOp i = true → s.qcode = .ok → s.coprocSrc.given = List.replicate k true ++ false :: rest →
    (k < (frameInstrs i s).length →
      ∃ u, execAll ((frameInstrs i s).take k) { s with batchOpen := true } = .next u ∧
        exec i s = .fault (.stuck { u with coprocSrc := ⟨rest, u.coprocSrc.used⟩ })) ∧
    (∀ j, k = (frameInstrs i s).length + j → j < (settleInstrs i s).length →
      ∃ m u, execAll (frameInstrs i s) { s with batchOpen := true } = .next m ∧
        execAll ((settleInstrs i s).take j) (delivered i s m) = .next u ∧
        exec i s = .fault (.stuck { u with coprocSrc := ⟨rest, u.coprocSrc.used⟩ }))) ∧
  (∀ (s : State) (src : Source) (k : Nat) (rest : List Bool), s.cfg.impl = .coproc → initRefuses s = false →
    s.acquireSrc.draw Config.freeAcquire = (true, src) → k < (initSteps s).length →
    s.coprocSrc.given = List.replicate (k + 1) true ++ false :: rest →
    exec .init s = .fault (.stuck (((initSteps s).take k).foldl (fun t step => step t) { s with
      acquireSrc := src, resHeld := true, tmode := initMode (jtagOk s) (swdOk s)
      coprocSrc := ⟨rest, s.coprocSrc.used⟩ }))) ∧
  (∀ (s : State) (k : Nat) (rest : List Bool), s.cfg.impl = .coproc → SessionInv s → s.session = .active →
    k < (claimedPins s).length → s.coprocSrc.given = List.replicate k true ++ false :: rest →
    ∃ (back : List Nat) (h : State), exec .quit s = .fault (.stuck h) ∧
      back.length = k ∧ back.Nodup ∧ (∀ p ∈ back, s.isClaimed p = true) ∧
      (∀ p, h.isClaimed p = if p ∈ back then false else s.isClaimed p) ∧
      (∀ p, h.funcOf p = if p ∈ back then s.savedMode p else s.funcOf p) ∧
      h.trace = s.trace ++ (back.map fun p => .fn p (s.savedMode p)) ∧
      h = { s with
        func := h.func, claimed := h.claimed, trace := h.trace, coprocSrc := ⟨rest, s.coprocSrc.used⟩ })
end

