-- ==== Sys2Proof/Laws/State.lean ====
section
/-! SUPPORT. One lemma for each field of State under each named update, so that no later proof unfolds one. -/

namespace Sys2Proof.Machine

/-! `setStatus`. -/

@[simp] theorem setStatus_cfg (c : Code) (s : State) : (setStatus c s).cfg = s.cfg := rfl
@[simp] theorem setStatus_a8 (c : Code) (s : State) : (setStatus c s).a8 = s.a8 := rfl
@[simp] theorem setStatus_a32 (c : Code) (s : State) : (setStatus c s).a32 = s.a32 := rfl
@[simp] theorem setStatus_status (c : Code) (s : State) : (setStatus c s).status = c := rfl
@[simp] theorem setStatus_rdata (c : Code) (s : State) : (setStatus c s).rdata = s.rdata := rfl
@[simp] theorem setStatus_rpar (c : Code) (s : State) : (setStatus c s).rpar = s.rpar := rfl
@[simp] theorem setStatus_rout (c : Code) (s : State) : (setStatus c s).rout = s.rout := rfl
@[simp] theorem setStatus_qcode (c : Code) (s : State) : (setStatus c s).qcode = s.qcode := rfl
@[simp] theorem setStatus_batchOpen (c : Code) (s : State) : (setStatus c s).batchOpen = s.batchOpen := rfl
@[simp] theorem setStatus_pincfg (c : Code) (s : State) : (setStatus c s).pincfg = s.pincfg := rfl
@[simp] theorem setStatus_coeff (c : Code) (s : State) : (setStatus c s).coeff = s.coeff := rfl
@[simp] theorem setStatus_offset (c : Code) (s : State) : (setStatus c s).offset = s.offset := rfl
@[simp] theorem setStatus_base (c : Code) (s : State) : (setStatus c s).base = s.base := rfl
@[simp] theorem setStatus_apDelay (c : Code) (s : State) : (setStatus c s).apDelay = s.apDelay := rfl
@[simp] theorem setStatus_session (c : Code) (s : State) : (setStatus c s).session = s.session := rfl
@[simp] theorem setStatus_tmode (c : Code) (s : State) : (setStatus c s).tmode = s.tmode := rfl
@[simp] theorem setStatus_delay (c : Code) (s : State) : (setStatus c s).delay = s.delay := rfl
@[simp] theorem setStatus_swdioDir (c : Code) (s : State) : (setStatus c s).swdioDir = s.swdioDir := rfl
@[simp] theorem setStatus_resHeld (c : Code) (s : State) : (setStatus c s).resHeld = s.resHeld := rfl
@[simp] theorem setStatus_claimed (c : Code) (s : State) : (setStatus c s).claimed = s.claimed := rfl
@[simp] theorem setStatus_saved (c : Code) (s : State) : (setStatus c s).saved = s.saved := rfl
@[simp] theorem setStatus_func (c : Code) (s : State) : (setStatus c s).func = s.func := rfl
@[simp] theorem setStatus_latch (c : Code) (s : State) : (setStatus c s).latch = s.latch := rfl
@[simp] theorem setStatus_trace (c : Code) (s : State) : (setStatus c s).trace = s.trace := rfl
@[simp] theorem setStatus_waited (c : Code) (s : State) : (setStatus c s).waited = s.waited := rfl
@[simp] theorem setStatus_jtagOut (c : Code) (s : State) : (setStatus c s).jtagOut = s.jtagOut := rfl
@[simp] theorem setStatus_pending (c : Code) (s : State) : (setStatus c s).pending = s.pending := rfl
@[simp] theorem setStatus_lineSrc (c : Code) (s : State) : (setStatus c s).lineSrc = s.lineSrc := rfl
@[simp] theorem setStatus_acquireSrc (c : Code) (s : State) : (setStatus c s).acquireSrc = s.acquireSrc := rfl
@[simp] theorem setStatus_coprocSrc (c : Code) (s : State) : (setStatus c s).coprocSrc = s.coprocSrc := rfl
@[simp] theorem setStatus_levelDraws (c : Code) (s : State) : (setStatus c s).levelDraws = s.levelDraws := rfl

/-! `record`. -/

@[simp] theorem record_cfg (e : Event) (s : State) : (record e s).cfg = s.cfg := rfl
@[simp] theorem record_a8 (e : Event) (s : State) : (record e s).a8 = s.a8 := rfl
@[simp] theorem record_a32 (e : Event) (s : State) : (record e s).a32 = s.a32 := rfl
@[simp] theorem record_status (e : Event) (s : State) : (record e s).status = s.status := rfl
@[simp] theorem record_rdata (e : Event) (s : State) : (record e s).rdata = s.rdata := rfl
@[simp] theorem record_rpar (e : Event) (s : State) : (record e s).rpar = s.rpar := rfl
@[simp] theorem record_rout (e : Event) (s : State) : (record e s).rout = s.rout := rfl
@[simp] theorem record_qcode (e : Event) (s : State) : (record e s).qcode = s.qcode := rfl
@[simp] theorem record_batchOpen (e : Event) (s : State) : (record e s).batchOpen = s.batchOpen := rfl
@[simp] theorem record_pincfg (e : Event) (s : State) : (record e s).pincfg = s.pincfg := rfl
@[simp] theorem record_coeff (e : Event) (s : State) : (record e s).coeff = s.coeff := rfl
@[simp] theorem record_offset (e : Event) (s : State) : (record e s).offset = s.offset := rfl
@[simp] theorem record_base (e : Event) (s : State) : (record e s).base = s.base := rfl
@[simp] theorem record_apDelay (e : Event) (s : State) : (record e s).apDelay = s.apDelay := rfl
@[simp] theorem record_session (e : Event) (s : State) : (record e s).session = s.session := rfl
@[simp] theorem record_tmode (e : Event) (s : State) : (record e s).tmode = s.tmode := rfl
@[simp] theorem record_delay (e : Event) (s : State) : (record e s).delay = s.delay := rfl
@[simp] theorem record_swdioDir (e : Event) (s : State) : (record e s).swdioDir = s.swdioDir := rfl
@[simp] theorem record_resHeld (e : Event) (s : State) : (record e s).resHeld = s.resHeld := rfl
@[simp] theorem record_claimed (e : Event) (s : State) : (record e s).claimed = s.claimed := rfl
@[simp] theorem record_saved (e : Event) (s : State) : (record e s).saved = s.saved := rfl
@[simp] theorem record_func (e : Event) (s : State) : (record e s).func = s.func := rfl
@[simp] theorem record_latch (e : Event) (s : State) : (record e s).latch = s.latch := rfl
@[simp] theorem record_trace (e : Event) (s : State) : (record e s).trace = s.trace ++ [e] := rfl
@[simp] theorem record_waited (e : Event) (s : State) : (record e s).waited = s.waited := rfl
@[simp] theorem record_jtagOut (e : Event) (s : State) : (record e s).jtagOut = s.jtagOut := rfl
@[simp] theorem record_pending (e : Event) (s : State) : (record e s).pending = s.pending := rfl
@[simp] theorem record_lineSrc (e : Event) (s : State) : (record e s).lineSrc = s.lineSrc := rfl
@[simp] theorem record_acquireSrc (e : Event) (s : State) : (record e s).acquireSrc = s.acquireSrc := rfl
@[simp] theorem record_coprocSrc (e : Event) (s : State) : (record e s).coprocSrc = s.coprocSrc := rfl
@[simp] theorem record_levelDraws (e : Event) (s : State) : (record e s).levelDraws = s.levelDraws := rfl

/-! `waitDelay`. -/

@[simp] theorem waitDelay_cfg (s : State) : (waitDelay s).cfg = s.cfg := rfl
@[simp] theorem waitDelay_a8 (s : State) : (waitDelay s).a8 = s.a8 := rfl
@[simp] theorem waitDelay_a32 (s : State) : (waitDelay s).a32 = s.a32 := rfl
@[simp] theorem waitDelay_status (s : State) : (waitDelay s).status = s.status := rfl
@[simp] theorem waitDelay_rdata (s : State) : (waitDelay s).rdata = s.rdata := rfl
@[simp] theorem waitDelay_rpar (s : State) : (waitDelay s).rpar = s.rpar := rfl
@[simp] theorem waitDelay_rout (s : State) : (waitDelay s).rout = s.rout := rfl
@[simp] theorem waitDelay_qcode (s : State) : (waitDelay s).qcode = s.qcode := rfl
@[simp] theorem waitDelay_batchOpen (s : State) : (waitDelay s).batchOpen = s.batchOpen := rfl
@[simp] theorem waitDelay_pincfg (s : State) : (waitDelay s).pincfg = s.pincfg := rfl
@[simp] theorem waitDelay_coeff (s : State) : (waitDelay s).coeff = s.coeff := rfl
@[simp] theorem waitDelay_offset (s : State) : (waitDelay s).offset = s.offset := rfl
@[simp] theorem waitDelay_base (s : State) : (waitDelay s).base = s.base := rfl
@[simp] theorem waitDelay_apDelay (s : State) : (waitDelay s).apDelay = s.apDelay := rfl
@[simp] theorem waitDelay_session (s : State) : (waitDelay s).session = s.session := rfl
@[simp] theorem waitDelay_tmode (s : State) : (waitDelay s).tmode = s.tmode := rfl
@[simp] theorem waitDelay_delay (s : State) : (waitDelay s).delay = s.delay := rfl
@[simp] theorem waitDelay_swdioDir (s : State) : (waitDelay s).swdioDir = s.swdioDir := rfl
@[simp] theorem waitDelay_resHeld (s : State) : (waitDelay s).resHeld = s.resHeld := rfl
@[simp] theorem waitDelay_claimed (s : State) : (waitDelay s).claimed = s.claimed := rfl
@[simp] theorem waitDelay_saved (s : State) : (waitDelay s).saved = s.saved := rfl
@[simp] theorem waitDelay_func (s : State) : (waitDelay s).func = s.func := rfl
@[simp] theorem waitDelay_latch (s : State) : (waitDelay s).latch = s.latch := rfl
@[simp] theorem waitDelay_trace (s : State) : (waitDelay s).trace = s.trace := rfl
@[simp] theorem waitDelay_waited (s : State) : (waitDelay s).waited = s.waited + s.delay.toNat := rfl
@[simp] theorem waitDelay_jtagOut (s : State) : (waitDelay s).jtagOut = s.jtagOut := rfl
@[simp] theorem waitDelay_pending (s : State) : (waitDelay s).pending = s.pending := rfl
@[simp] theorem waitDelay_lineSrc (s : State) : (waitDelay s).lineSrc = s.lineSrc := rfl
@[simp] theorem waitDelay_acquireSrc (s : State) : (waitDelay s).acquireSrc = s.acquireSrc := rfl
@[simp] theorem waitDelay_coprocSrc (s : State) : (waitDelay s).coprocSrc = s.coprocSrc := rfl
@[simp] theorem waitDelay_levelDraws (s : State) : (waitDelay s).levelDraws = s.levelDraws := rfl

/-! `funcWrite`. -/

@[simp] theorem funcWrite_cfg (p : Nat) (m : PinMode) (s : State) : (funcWrite p m s).cfg = s.cfg := rfl
@[simp] theorem funcWrite_a8 (p : Nat) (m : PinMode) (s : State) : (funcWrite p m s).a8 = s.a8 := rfl
@[simp] theorem funcWrite_a32 (p : Nat) (m : PinMode) (s : State) : (funcWrite p m s).a32 = s.a32 := rfl
@[simp] theorem funcWrite_status (p : Nat) (m : PinMode) (s : State) : (funcWrite p m s).status = s.status := rfl
@[simp] theorem funcWrite_rdata (p : Nat) (m : PinMode) (s : State) : (funcWrite p m s).rdata = s.rdata := rfl
@[simp] theorem funcWrite_rpar (p : Nat) (m : PinMode) (s : State) : (funcWrite p m s).rpar = s.rpar := rfl
@[simp] theorem funcWrite_rout (p : Nat) (m : PinMode) (s : State) : (funcWrite p m s).rout = s.rout := rfl
@[simp] theorem funcWrite_qcode (p : Nat) (m : PinMode) (s : State) : (funcWrite p m s).qcode = s.qcode := rfl
@[simp] theorem funcWrite_batchOpen (p : Nat) (m : PinMode) (s : State) : (funcWrite p m s).batchOpen = s.batchOpen := rfl
@[simp] theorem funcWrite_pincfg (p : Nat) (m : PinMode) (s : State) : (funcWrite p m s).pincfg = s.pincfg := rfl
@[simp] theorem funcWrite_coeff (p : Nat) (m : PinMode) (s : State) : (funcWrite p m s).coeff = s.coeff := rfl
@[simp] theorem funcWrite_offset (p : Nat) (m : PinMode) (s : State) : (funcWrite p m s).offset = s.offset := rfl
@[simp] theorem funcWrite_base (p : Nat) (m : PinMode) (s : State) : (funcWrite p m s).base = s.base := rfl
@[simp] theorem funcWrite_apDelay (p : Nat) (m : PinMode) (s : State) : (funcWrite p m s).apDelay = s.apDelay := rfl
@[simp] theorem funcWrite_session (p : Nat) (m : PinMode) (s : State) : (funcWrite p m s).session = s.session := rfl
@[simp] theorem funcWrite_tmode (p : Nat) (m : PinMode) (s : State) : (funcWrite p m s).tmode = s.tmode := rfl
@[simp] theorem funcWrite_delay (p : Nat) (m : PinMode) (s : State) : (funcWrite p m s).delay = s.delay := rfl
@[simp] theorem funcWrite_swdioDir (p : Nat) (m : PinMode) (s : State) : (funcWrite p m s).swdioDir = s.swdioDir := rfl
@[simp] theorem funcWrite_resHeld (p : Nat) (m : PinMode) (s : State) : (funcWrite p m s).resHeld = s.resHeld := rfl
@[simp] theorem funcWrite_claimed (p : Nat) (m : PinMode) (s : State) : (funcWrite p m s).claimed = s.claimed := rfl
@[simp] theorem funcWrite_saved (p : Nat) (m : PinMode) (s : State) : (funcWrite p m s).saved = s.saved := rfl
@[simp] theorem funcWrite_func (p : Nat) (m : PinMode) (s : State) : (funcWrite p m s).func = tableWrite .input s.func p m := rfl
@[simp] theorem funcWrite_latch (p : Nat) (m : PinMode) (s : State) : (funcWrite p m s).latch = s.latch := rfl
@[simp] theorem funcWrite_trace (p : Nat) (m : PinMode) (s : State) : (funcWrite p m s).trace = s.trace ++ [.fn p m] := rfl
@[simp] theorem funcWrite_waited (p : Nat) (m : PinMode) (s : State) : (funcWrite p m s).waited = s.waited := rfl
@[simp] theorem funcWrite_jtagOut (p : Nat) (m : PinMode) (s : State) : (funcWrite p m s).jtagOut = s.jtagOut := rfl
@[simp] theorem funcWrite_pending (p : Nat) (m : PinMode) (s : State) : (funcWrite p m s).pending = s.pending := rfl
@[simp] theorem funcWrite_lineSrc (p : Nat) (m : PinMode) (s : State) : (funcWrite p m s).lineSrc = s.lineSrc := rfl
@[simp] theorem funcWrite_acquireSrc (p : Nat) (m : PinMode) (s : State) : (funcWrite p m s).acquireSrc = s.acquireSrc := rfl
@[simp] theorem funcWrite_coprocSrc (p : Nat) (m : PinMode) (s : State) : (funcWrite p m s).coprocSrc = s.coprocSrc := rfl
@[simp] theorem funcWrite_levelDraws (p : Nat) (m : PinMode) (s : State) : (funcWrite p m s).levelDraws = s.levelDraws := rfl

/-! `setRout`. -/

@[simp] theorem setRout_cfg (w : Word) (s : State) : (setRout w s).cfg = s.cfg := rfl
@[simp] theorem setRout_a8 (w : Word) (s : State) : (setRout w s).a8 = s.a8 := rfl
@[simp] theorem setRout_a32 (w : Word) (s : State) : (setRout w s).a32 = s.a32 := rfl
@[simp] theorem setRout_status (w : Word) (s : State) : (setRout w s).status = s.status := rfl
@[simp] theorem setRout_rdata (w : Word) (s : State) : (setRout w s).rdata = s.rdata := rfl
@[simp] theorem setRout_rpar (w : Word) (s : State) : (setRout w s).rpar = s.rpar := rfl
@[simp] theorem setRout_rout (w : Word) (s : State) : (setRout w s).rout = w := rfl
@[simp] theorem setRout_qcode (w : Word) (s : State) : (setRout w s).qcode = s.qcode := rfl
@[simp] theorem setRout_batchOpen (w : Word) (s : State) : (setRout w s).batchOpen = s.batchOpen := rfl
@[simp] theorem setRout_pincfg (w : Word) (s : State) : (setRout w s).pincfg = s.pincfg := rfl
@[simp] theorem setRout_coeff (w : Word) (s : State) : (setRout w s).coeff = s.coeff := rfl
@[simp] theorem setRout_offset (w : Word) (s : State) : (setRout w s).offset = s.offset := rfl
@[simp] theorem setRout_base (w : Word) (s : State) : (setRout w s).base = s.base := rfl
@[simp] theorem setRout_apDelay (w : Word) (s : State) : (setRout w s).apDelay = s.apDelay := rfl
@[simp] theorem setRout_session (w : Word) (s : State) : (setRout w s).session = s.session := rfl
@[simp] theorem setRout_tmode (w : Word) (s : State) : (setRout w s).tmode = s.tmode := rfl
@[simp] theorem setRout_delay (w : Word) (s : State) : (setRout w s).delay = s.delay := rfl
@[simp] theorem setRout_swdioDir (w : Word) (s : State) : (setRout w s).swdioDir = s.swdioDir := rfl
@[simp] theorem setRout_resHeld (w : Word) (s : State) : (setRout w s).resHeld = s.resHeld := rfl
@[simp] theorem setRout_claimed (w : Word) (s : State) : (setRout w s).claimed = s.claimed := rfl
@[simp] theorem setRout_saved (w : Word) (s : State) : (setRout w s).saved = s.saved := rfl
@[simp] theorem setRout_func (w : Word) (s : State) : (setRout w s).func = s.func := rfl
@[simp] theorem setRout_latch (w : Word) (s : State) : (setRout w s).latch = s.latch := rfl
@[simp] theorem setRout_trace (w : Word) (s : State) : (setRout w s).trace = s.trace := rfl
@[simp] theorem setRout_waited (w : Word) (s : State) : (setRout w s).waited = s.waited := rfl
@[simp] theorem setRout_jtagOut (w : Word) (s : State) : (setRout w s).jtagOut = s.jtagOut := rfl
@[simp] theorem setRout_pending (w : Word) (s : State) : (setRout w s).pending = s.pending := rfl
@[simp] theorem setRout_lineSrc (w : Word) (s : State) : (setRout w s).lineSrc = s.lineSrc := rfl
@[simp] theorem setRout_acquireSrc (w : Word) (s : State) : (setRout w s).acquireSrc = s.acquireSrc := rfl
@[simp] theorem setRout_coprocSrc (w : Word) (s : State) : (setRout w s).coprocSrc = s.coprocSrc := rfl
@[simp] theorem setRout_levelDraws (w : Word) (s : State) : (setRout w s).levelDraws = s.levelDraws := rfl

/-! `setDir`. -/

@[simp] theorem setDir_cfg (d : Dir) (s : State) : (setDir d s).cfg = s.cfg := rfl
@[simp] theorem setDir_a8 (d : Dir) (s : State) : (setDir d s).a8 = s.a8 := rfl
@[simp] theorem setDir_a32 (d : Dir) (s : State) : (setDir d s).a32 = s.a32 := rfl
@[simp] theorem setDir_status (d : Dir) (s : State) : (setDir d s).status = s.status := rfl
@[simp] theorem setDir_rdata (d : Dir) (s : State) : (setDir d s).rdata = s.rdata := rfl
@[simp] theorem setDir_rpar (d : Dir) (s : State) : (setDir d s).rpar = s.rpar := rfl
@[simp] theorem setDir_rout (d : Dir) (s : State) : (setDir d s).rout = s.rout := rfl
@[simp] theorem setDir_qcode (d : Dir) (s : State) : (setDir d s).qcode = s.qcode := rfl
@[simp] theorem setDir_batchOpen (d : Dir) (s : State) : (setDir d s).batchOpen = s.batchOpen := rfl
@[simp] theorem setDir_pincfg (d : Dir) (s : State) : (setDir d s).pincfg = s.pincfg := rfl
@[simp] theorem setDir_coeff (d : Dir) (s : State) : (setDir d s).coeff = s.coeff := rfl
@[simp] theorem setDir_offset (d : Dir) (s : State) : (setDir d s).offset = s.offset := rfl
@[simp] theorem setDir_base (d : Dir) (s : State) : (setDir d s).base = s.base := rfl
@[simp] theorem setDir_apDelay (d : Dir) (s : State) : (setDir d s).apDelay = s.apDelay := rfl
@[simp] theorem setDir_session (d : Dir) (s : State) : (setDir d s).session = s.session := rfl
@[simp] theorem setDir_tmode (d : Dir) (s : State) : (setDir d s).tmode = s.tmode := rfl
@[simp] theorem setDir_delay (d : Dir) (s : State) : (setDir d s).delay = s.delay := rfl
@[simp] theorem setDir_swdioDir (d : Dir) (s : State) : (setDir d s).swdioDir = d := rfl
@[simp] theorem setDir_resHeld (d : Dir) (s : State) : (setDir d s).resHeld = s.resHeld := rfl
@[simp] theorem setDir_claimed (d : Dir) (s : State) : (setDir d s).claimed = s.claimed := rfl
@[simp] theorem setDir_saved (d : Dir) (s : State) : (setDir d s).saved = s.saved := rfl
@[simp] theorem setDir_func (d : Dir) (s : State) : (setDir d s).func = s.func := rfl
@[simp] theorem setDir_latch (d : Dir) (s : State) : (setDir d s).latch = s.latch := rfl
@[simp] theorem setDir_trace (d : Dir) (s : State) : (setDir d s).trace = s.trace := rfl
@[simp] theorem setDir_waited (d : Dir) (s : State) : (setDir d s).waited = s.waited := rfl
@[simp] theorem setDir_jtagOut (d : Dir) (s : State) : (setDir d s).jtagOut = s.jtagOut := rfl
@[simp] theorem setDir_pending (d : Dir) (s : State) : (setDir d s).pending = s.pending := rfl
@[simp] theorem setDir_lineSrc (d : Dir) (s : State) : (setDir d s).lineSrc = s.lineSrc := rfl
@[simp] theorem setDir_acquireSrc (d : Dir) (s : State) : (setDir d s).acquireSrc = s.acquireSrc := rfl
@[simp] theorem setDir_coprocSrc (d : Dir) (s : State) : (setDir d s).coprocSrc = s.coprocSrc := rfl
@[simp] theorem setDir_levelDraws (d : Dir) (s : State) : (setDir d s).levelDraws = s.levelDraws := rfl

/-! `flushBatch`. -/

@[simp] theorem flushBatch_cfg (s : State) : (flushBatch s).cfg = s.cfg := rfl
@[simp] theorem flushBatch_a8 (s : State) : (flushBatch s).a8 = s.a8 := rfl
@[simp] theorem flushBatch_a32 (s : State) : (flushBatch s).a32 = s.a32 := rfl
@[simp] theorem flushBatch_status (s : State) : (flushBatch s).status = s.status := rfl
@[simp] theorem flushBatch_rdata (s : State) : (flushBatch s).rdata = s.rdata := rfl
@[simp] theorem flushBatch_rpar (s : State) : (flushBatch s).rpar = s.rpar := rfl
@[simp] theorem flushBatch_rout (s : State) : (flushBatch s).rout = s.rout := rfl
@[simp] theorem flushBatch_qcode (s : State) : (flushBatch s).qcode = .ok := rfl
@[simp] theorem flushBatch_batchOpen (s : State) : (flushBatch s).batchOpen = false := rfl
@[simp] theorem flushBatch_pincfg (s : State) : (flushBatch s).pincfg = s.pincfg := rfl
@[simp] theorem flushBatch_coeff (s : State) : (flushBatch s).coeff = s.coeff := rfl
@[simp] theorem flushBatch_offset (s : State) : (flushBatch s).offset = s.offset := rfl
@[simp] theorem flushBatch_base (s : State) : (flushBatch s).base = s.base := rfl
@[simp] theorem flushBatch_apDelay (s : State) : (flushBatch s).apDelay = s.apDelay := rfl
@[simp] theorem flushBatch_session (s : State) : (flushBatch s).session = s.session := rfl
@[simp] theorem flushBatch_tmode (s : State) : (flushBatch s).tmode = s.tmode := rfl
@[simp] theorem flushBatch_delay (s : State) : (flushBatch s).delay = s.delay := rfl
@[simp] theorem flushBatch_swdioDir (s : State) : (flushBatch s).swdioDir = s.swdioDir := rfl
@[simp] theorem flushBatch_resHeld (s : State) : (flushBatch s).resHeld = s.resHeld := rfl
@[simp] theorem flushBatch_claimed (s : State) : (flushBatch s).claimed = s.claimed := rfl
@[simp] theorem flushBatch_saved (s : State) : (flushBatch s).saved = s.saved := rfl
@[simp] theorem flushBatch_func (s : State) : (flushBatch s).func = s.func := rfl
@[simp] theorem flushBatch_latch (s : State) : (flushBatch s).latch = s.latch := rfl
@[simp] theorem flushBatch_trace (s : State) : (flushBatch s).trace = s.trace := rfl
@[simp] theorem flushBatch_waited (s : State) : (flushBatch s).waited = s.waited := rfl
@[simp] theorem flushBatch_jtagOut (s : State) : (flushBatch s).jtagOut = s.jtagOut := rfl
@[simp] theorem flushBatch_pending (s : State) : (flushBatch s).pending = s.pending := rfl
@[simp] theorem flushBatch_lineSrc (s : State) : (flushBatch s).lineSrc = s.lineSrc := rfl
@[simp] theorem flushBatch_acquireSrc (s : State) : (flushBatch s).acquireSrc = s.acquireSrc := rfl
@[simp] theorem flushBatch_coprocSrc (s : State) : (flushBatch s).coprocSrc = s.coprocSrc := rfl
@[simp] theorem flushBatch_levelDraws (s : State) : (flushBatch s).levelDraws = s.levelDraws := rfl

/-! `loadOperands`. -/

@[simp] theorem loadOperands_cfg (w : CmdWord) (s : State) : (loadOperands w s).cfg = s.cfg := rfl
@[simp] theorem loadOperands_a8 (w : CmdWord) (s : State) : (loadOperands w s).a8 = a8Field w := rfl
@[simp] theorem loadOperands_a32 (w : CmdWord) (s : State) : (loadOperands w s).a32 = a32Field w := rfl
@[simp] theorem loadOperands_status (w : CmdWord) (s : State) : (loadOperands w s).status = s.status := rfl
@[simp] theorem loadOperands_rdata (w : CmdWord) (s : State) : (loadOperands w s).rdata = s.rdata := rfl
@[simp] theorem loadOperands_rpar (w : CmdWord) (s : State) : (loadOperands w s).rpar = s.rpar := rfl
@[simp] theorem loadOperands_rout (w : CmdWord) (s : State) : (loadOperands w s).rout = s.rout := rfl
@[simp] theorem loadOperands_qcode (w : CmdWord) (s : State) : (loadOperands w s).qcode = s.qcode := rfl
@[simp] theorem loadOperands_batchOpen (w : CmdWord) (s : State) : (loadOperands w s).batchOpen = s.batchOpen := rfl
@[simp] theorem loadOperands_pincfg (w : CmdWord) (s : State) : (loadOperands w s).pincfg = s.pincfg := rfl
@[simp] theorem loadOperands_coeff (w : CmdWord) (s : State) : (loadOperands w s).coeff = s.coeff := rfl
@[simp] theorem loadOperands_offset (w : CmdWord) (s : State) : (loadOperands w s).offset = s.offset := rfl
@[simp] theorem loadOperands_base (w : CmdWord) (s : State) : (loadOperands w s).base = s.base := rfl
@[simp] theorem loadOperands_apDelay (w : CmdWord) (s : State) : (loadOperands w s).apDelay = s.apDelay := rfl
@[simp] theorem loadOperands_session (w : CmdWord) (s : State) : (loadOperands w s).session = s.session := rfl
@[simp] theorem loadOperands_tmode (w : CmdWord) (s : State) : (loadOperands w s).tmode = s.tmode := rfl
@[simp] theorem loadOperands_delay (w : CmdWord) (s : State) : (loadOperands w s).delay = s.delay := rfl
@[simp] theorem loadOperands_swdioDir (w : CmdWord) (s : State) : (loadOperands w s).swdioDir = s.swdioDir := rfl
@[simp] theorem loadOperands_resHeld (w : CmdWord) (s : State) : (loadOperands w s).resHeld = s.resHeld := rfl
@[simp] theorem loadOperands_claimed (w : CmdWord) (s : State) : (loadOperands w s).claimed = s.claimed := rfl
@[simp] theorem loadOperands_saved (w : CmdWord) (s : State) : (loadOperands w s).saved = s.saved := rfl
@[simp] theorem loadOperands_func (w : CmdWord) (s : State) : (loadOperands w s).func = s.func := rfl
@[simp] theorem loadOperands_latch (w : CmdWord) (s : State) : (loadOperands w s).latch = s.latch := rfl
@[simp] theorem loadOperands_trace (w : CmdWord) (s : State) : (loadOperands w s).trace = s.trace := rfl
@[simp] theorem loadOperands_waited (w : CmdWord) (s : State) : (loadOperands w s).waited = s.waited := rfl
@[simp] theorem loadOperands_jtagOut (w : CmdWord) (s : State) : (loadOperands w s).jtagOut = s.jtagOut := rfl
@[simp] theorem loadOperands_pending (w : CmdWord) (s : State) : (loadOperands w s).pending = s.pending := rfl
@[simp] theorem loadOperands_lineSrc (w : CmdWord) (s : State) : (loadOperands w s).lineSrc = s.lineSrc := rfl
@[simp] theorem loadOperands_acquireSrc (w : CmdWord) (s : State) : (loadOperands w s).acquireSrc = s.acquireSrc := rfl
@[simp] theorem loadOperands_coprocSrc (w : CmdWord) (s : State) : (loadOperands w s).coprocSrc = s.coprocSrc := rfl
@[simp] theorem loadOperands_levelDraws (w : CmdWord) (s : State) : (loadOperands w s).levelDraws = s.levelDraws := rfl

/-! `drawLine`. -/

@[simp] theorem drawLine_cfg (s : State) : ((drawLine s).2).cfg = s.cfg := rfl
@[simp] theorem drawLine_a8 (s : State) : ((drawLine s).2).a8 = s.a8 := rfl
@[simp] theorem drawLine_a32 (s : State) : ((drawLine s).2).a32 = s.a32 := rfl
@[simp] theorem drawLine_status (s : State) : ((drawLine s).2).status = s.status := rfl
@[simp] theorem drawLine_rdata (s : State) : ((drawLine s).2).rdata = s.rdata := rfl
@[simp] theorem drawLine_rpar (s : State) : ((drawLine s).2).rpar = s.rpar := rfl
@[simp] theorem drawLine_rout (s : State) : ((drawLine s).2).rout = s.rout := rfl
@[simp] theorem drawLine_qcode (s : State) : ((drawLine s).2).qcode = s.qcode := rfl
@[simp] theorem drawLine_batchOpen (s : State) : ((drawLine s).2).batchOpen = s.batchOpen := rfl
@[simp] theorem drawLine_pincfg (s : State) : ((drawLine s).2).pincfg = s.pincfg := rfl
@[simp] theorem drawLine_coeff (s : State) : ((drawLine s).2).coeff = s.coeff := rfl
@[simp] theorem drawLine_offset (s : State) : ((drawLine s).2).offset = s.offset := rfl
@[simp] theorem drawLine_base (s : State) : ((drawLine s).2).base = s.base := rfl
@[simp] theorem drawLine_apDelay (s : State) : ((drawLine s).2).apDelay = s.apDelay := rfl
@[simp] theorem drawLine_session (s : State) : ((drawLine s).2).session = s.session := rfl
@[simp] theorem drawLine_tmode (s : State) : ((drawLine s).2).tmode = s.tmode := rfl
@[simp] theorem drawLine_delay (s : State) : ((drawLine s).2).delay = s.delay := rfl
@[simp] theorem drawLine_swdioDir (s : State) : ((drawLine s).2).swdioDir = s.swdioDir := rfl
@[simp] theorem drawLine_resHeld (s : State) : ((drawLine s).2).resHeld = s.resHeld := rfl
@[simp] theorem drawLine_claimed (s : State) : ((drawLine s).2).claimed = s.claimed := rfl
@[simp] theorem drawLine_saved (s : State) : ((drawLine s).2).saved = s.saved := rfl
@[simp] theorem drawLine_func (s : State) : ((drawLine s).2).func = s.func := rfl
@[simp] theorem drawLine_latch (s : State) : ((drawLine s).2).latch = s.latch := rfl
@[simp] theorem drawLine_trace (s : State) : ((drawLine s).2).trace = s.trace := rfl
@[simp] theorem drawLine_waited (s : State) : ((drawLine s).2).waited = s.waited := rfl
@[simp] theorem drawLine_jtagOut (s : State) : ((drawLine s).2).jtagOut = s.jtagOut := rfl
@[simp] theorem drawLine_pending (s : State) : ((drawLine s).2).pending = s.pending := rfl
@[simp] theorem drawLine_lineSrc (s : State) : ((drawLine s).2).lineSrc = (s.lineSrc.draw Config.freeLine).2 := rfl
@[simp] theorem drawLine_acquireSrc (s : State) : ((drawLine s).2).acquireSrc = s.acquireSrc := rfl
@[simp] theorem drawLine_coprocSrc (s : State) : ((drawLine s).2).coprocSrc = s.coprocSrc := rfl
@[simp] theorem drawLine_levelDraws (s : State) : ((drawLine s).2).levelDraws = s.levelDraws := rfl

/-! `drawAcquire`. -/

@[simp] theorem drawAcquire_cfg (s : State) : ((drawAcquire s).2).cfg = s.cfg := rfl
@[simp] theorem drawAcquire_a8 (s : State) : ((drawAcquire s).2).a8 = s.a8 := rfl
@[simp] theorem drawAcquire_a32 (s : State) : ((drawAcquire s).2).a32 = s.a32 := rfl
@[simp] theorem drawAcquire_status (s : State) : ((drawAcquire s).2).status = s.status := rfl
@[simp] theorem drawAcquire_rdata (s : State) : ((drawAcquire s).2).rdata = s.rdata := rfl
@[simp] theorem drawAcquire_rpar (s : State) : ((drawAcquire s).2).rpar = s.rpar := rfl
@[simp] theorem drawAcquire_rout (s : State) : ((drawAcquire s).2).rout = s.rout := rfl
@[simp] theorem drawAcquire_qcode (s : State) : ((drawAcquire s).2).qcode = s.qcode := rfl
@[simp] theorem drawAcquire_batchOpen (s : State) : ((drawAcquire s).2).batchOpen = s.batchOpen := rfl
@[simp] theorem drawAcquire_pincfg (s : State) : ((drawAcquire s).2).pincfg = s.pincfg := rfl
@[simp] theorem drawAcquire_coeff (s : State) : ((drawAcquire s).2).coeff = s.coeff := rfl
@[simp] theorem drawAcquire_offset (s : State) : ((drawAcquire s).2).offset = s.offset := rfl
@[simp] theorem drawAcquire_base (s : State) : ((drawAcquire s).2).base = s.base := rfl
@[simp] theorem drawAcquire_apDelay (s : State) : ((drawAcquire s).2).apDelay = s.apDelay := rfl
@[simp] theorem drawAcquire_session (s : State) : ((drawAcquire s).2).session = s.session := rfl
@[simp] theorem drawAcquire_tmode (s : State) : ((drawAcquire s).2).tmode = s.tmode := rfl
@[simp] theorem drawAcquire_delay (s : State) : ((drawAcquire s).2).delay = s.delay := rfl
@[simp] theorem drawAcquire_swdioDir (s : State) : ((drawAcquire s).2).swdioDir = s.swdioDir := rfl
@[simp] theorem drawAcquire_resHeld (s : State) : ((drawAcquire s).2).resHeld = s.resHeld := rfl
@[simp] theorem drawAcquire_claimed (s : State) : ((drawAcquire s).2).claimed = s.claimed := rfl
@[simp] theorem drawAcquire_saved (s : State) : ((drawAcquire s).2).saved = s.saved := rfl
@[simp] theorem drawAcquire_func (s : State) : ((drawAcquire s).2).func = s.func := rfl
@[simp] theorem drawAcquire_latch (s : State) : ((drawAcquire s).2).latch = s.latch := rfl
@[simp] theorem drawAcquire_trace (s : State) : ((drawAcquire s).2).trace = s.trace := rfl
@[simp] theorem drawAcquire_waited (s : State) : ((drawAcquire s).2).waited = s.waited := rfl
@[simp] theorem drawAcquire_jtagOut (s : State) : ((drawAcquire s).2).jtagOut = s.jtagOut := rfl
@[simp] theorem drawAcquire_pending (s : State) : ((drawAcquire s).2).pending = s.pending := rfl
@[simp] theorem drawAcquire_lineSrc (s : State) : ((drawAcquire s).2).lineSrc = s.lineSrc := rfl
@[simp] theorem drawAcquire_acquireSrc (s : State) : ((drawAcquire s).2).acquireSrc = (s.acquireSrc.draw Config.freeAcquire).2 := rfl
@[simp] theorem drawAcquire_coprocSrc (s : State) : ((drawAcquire s).2).coprocSrc = s.coprocSrc := rfl
@[simp] theorem drawAcquire_levelDraws (s : State) : ((drawAcquire s).2).levelDraws = s.levelDraws := rfl

/-! `applyLevels`. -/

@[simp] theorem applyLevels_cfg (a b : List Nat) (s : State) : (applyLevels a b s).cfg = s.cfg := by
  simp only [applyLevels]; split <;> rfl
@[simp] theorem applyLevels_a8 (a b : List Nat) (s : State) : (applyLevels a b s).a8 = s.a8 := by
  simp only [applyLevels]; split <;> rfl
@[simp] theorem applyLevels_a32 (a b : List Nat) (s : State) : (applyLevels a b s).a32 = s.a32 := by
  simp only [applyLevels]; split <;> rfl
@[simp] theorem applyLevels_status (a b : List Nat) (s : State) : (applyLevels a b s).status = s.status := by
  simp only [applyLevels]; split <;> rfl
@[simp] theorem applyLevels_rdata (a b : List Nat) (s : State) : (applyLevels a b s).rdata = s.rdata := by
  simp only [applyLevels]; split <;> rfl
@[simp] theorem applyLevels_rpar (a b : List Nat) (s : State) : (applyLevels a b s).rpar = s.rpar := by
  simp only [applyLevels]; split <;> rfl
@[simp] theorem applyLevels_rout (a b : List Nat) (s : State) : (applyLevels a b s).rout = s.rout := by
  simp only [applyLevels]; split <;> rfl
@[simp] theorem applyLevels_qcode (a b : List Nat) (s : State) : (applyLevels a b s).qcode = s.qcode := by
  simp only [applyLevels]; split <;> rfl
@[simp] theorem applyLevels_batchOpen (a b : List Nat) (s : State) : (applyLevels a b s).batchOpen = s.batchOpen := by
  simp only [applyLevels]; split <;> rfl
@[simp] theorem applyLevels_pincfg (a b : List Nat) (s : State) : (applyLevels a b s).pincfg = s.pincfg := by
  simp only [applyLevels]; split <;> rfl
@[simp] theorem applyLevels_coeff (a b : List Nat) (s : State) : (applyLevels a b s).coeff = s.coeff := by
  simp only [applyLevels]; split <;> rfl
@[simp] theorem applyLevels_offset (a b : List Nat) (s : State) : (applyLevels a b s).offset = s.offset := by
  simp only [applyLevels]; split <;> rfl
@[simp] theorem applyLevels_base (a b : List Nat) (s : State) : (applyLevels a b s).base = s.base := by
  simp only [applyLevels]; split <;> rfl
@[simp] theorem applyLevels_apDelay (a b : List Nat) (s : State) : (applyLevels a b s).apDelay = s.apDelay := by
  simp only [applyLevels]; split <;> rfl
@[simp] theorem applyLevels_session (a b : List Nat) (s : State) : (applyLevels a b s).session = s.session := by
  simp only [applyLevels]; split <;> rfl
@[simp] theorem applyLevels_tmode (a b : List Nat) (s : State) : (applyLevels a b s).tmode = s.tmode := by
  simp only [applyLevels]; split <;> rfl
@[simp] theorem applyLevels_delay (a b : List Nat) (s : State) : (applyLevels a b s).delay = s.delay := by
  simp only [applyLevels]; split <;> rfl
@[simp] theorem applyLevels_swdioDir (a b : List Nat) (s : State) : (applyLevels a b s).swdioDir = s.swdioDir := by
  simp only [applyLevels]; split <;> rfl
@[simp] theorem applyLevels_resHeld (a b : List Nat) (s : State) : (applyLevels a b s).resHeld = s.resHeld := by
  simp only [applyLevels]; split <;> rfl
@[simp] theorem applyLevels_claimed (a b : List Nat) (s : State) : (applyLevels a b s).claimed = s.claimed := by
  simp only [applyLevels]; split <;> rfl
@[simp] theorem applyLevels_saved (a b : List Nat) (s : State) : (applyLevels a b s).saved = s.saved := by
  simp only [applyLevels]; split <;> rfl
@[simp] theorem applyLevels_func (a b : List Nat) (s : State) : (applyLevels a b s).func = s.func := by
  simp only [applyLevels]; split <;> rfl
@[simp] theorem applyLevels_trace (a b : List Nat) (s : State) : (applyLevels a b s).trace = s.trace := by
  simp only [applyLevels]; split <;> rfl
@[simp] theorem applyLevels_waited (a b : List Nat) (s : State) : (applyLevels a b s).waited = s.waited := by
  simp only [applyLevels]; split <;> rfl
@[simp] theorem applyLevels_jtagOut (a b : List Nat) (s : State) : (applyLevels a b s).jtagOut = s.jtagOut := by
  simp only [applyLevels]; split <;> rfl
@[simp] theorem applyLevels_pending (a b : List Nat) (s : State) : (applyLevels a b s).pending = s.pending := by
  simp only [applyLevels]; split <;> rfl
@[simp] theorem applyLevels_lineSrc (a b : List Nat) (s : State) : (applyLevels a b s).lineSrc = s.lineSrc := by
  simp only [applyLevels]; split <;> rfl
@[simp] theorem applyLevels_acquireSrc (a b : List Nat) (s : State) : (applyLevels a b s).acquireSrc = s.acquireSrc := by
  simp only [applyLevels]; split <;> rfl
@[simp] theorem applyLevels_coprocSrc (a b : List Nat) (s : State) : (applyLevels a b s).coprocSrc = s.coprocSrc := by
  simp only [applyLevels]; split <;> rfl

/-! `saveOnce`. -/

@[simp] theorem saveOnce_cfg (p : Nat) (s : State) : (saveOnce p s).cfg = s.cfg := by
  simp only [saveOnce]; split <;> rfl
@[simp] theorem saveOnce_a8 (p : Nat) (s : State) : (saveOnce p s).a8 = s.a8 := by
  simp only [saveOnce]; split <;> rfl
@[simp] theorem saveOnce_a32 (p : Nat) (s : State) : (saveOnce p s).a32 = s.a32 := by
  simp only [saveOnce]; split <;> rfl
@[simp] theorem saveOnce_status (p : Nat) (s : State) : (saveOnce p s).status = s.status := by
  simp only [saveOnce]; split <;> rfl
@[simp] theorem saveOnce_rdata (p : Nat) (s : State) : (saveOnce p s).rdata = s.rdata := by
  simp only [saveOnce]; split <;> rfl
@[simp] theorem saveOnce_rpar (p : Nat) (s : State) : (saveOnce p s).rpar = s.rpar := by
  simp only [saveOnce]; split <;> rfl
@[simp] theorem saveOnce_rout (p : Nat) (s : State) : (saveOnce p s).rout = s.rout := by
  simp only [saveOnce]; split <;> rfl
@[simp] theorem saveOnce_qcode (p : Nat) (s : State) : (saveOnce p s).qcode = s.qcode := by
  simp only [saveOnce]; split <;> rfl
@[simp] theorem saveOnce_batchOpen (p : Nat) (s : State) : (saveOnce p s).batchOpen = s.batchOpen := by
  simp only [saveOnce]; split <;> rfl
@[simp] theorem saveOnce_pincfg (p : Nat) (s : State) : (saveOnce p s).pincfg = s.pincfg := by
  simp only [saveOnce]; split <;> rfl
@[simp] theorem saveOnce_coeff (p : Nat) (s : State) : (saveOnce p s).coeff = s.coeff := by
  simp only [saveOnce]; split <;> rfl
@[simp] theorem saveOnce_offset (p : Nat) (s : State) : (saveOnce p s).offset = s.offset := by
  simp only [saveOnce]; split <;> rfl
@[simp] theorem saveOnce_base (p : Nat) (s : State) : (saveOnce p s).base = s.base := by
  simp only [saveOnce]; split <;> rfl
@[simp] theorem saveOnce_apDelay (p : Nat) (s : State) : (saveOnce p s).apDelay = s.apDelay := by
  simp only [saveOnce]; split <;> rfl
@[simp] theorem saveOnce_session (p : Nat) (s : State) : (saveOnce p s).session = s.session := by
  simp only [saveOnce]; split <;> rfl
@[simp] theorem saveOnce_tmode (p : Nat) (s : State) : (saveOnce p s).tmode = s.tmode := by
  simp only [saveOnce]; split <;> rfl
@[simp] theorem saveOnce_delay (p : Nat) (s : State) : (saveOnce p s).delay = s.delay := by
  simp only [saveOnce]; split <;> rfl
@[simp] theorem saveOnce_swdioDir (p : Nat) (s : State) : (saveOnce p s).swdioDir = s.swdioDir := by
  simp only [saveOnce]; split <;> rfl
@[simp] theorem saveOnce_resHeld (p : Nat) (s : State) : (saveOnce p s).resHeld = s.resHeld := by
  simp only [saveOnce]; split <;> rfl
@[simp] theorem saveOnce_func (p : Nat) (s : State) : (saveOnce p s).func = s.func := by
  simp only [saveOnce]; split <;> rfl
@[simp] theorem saveOnce_latch (p : Nat) (s : State) : (saveOnce p s).latch = s.latch := by
  simp only [saveOnce]; split <;> rfl
@[simp] theorem saveOnce_trace (p : Nat) (s : State) : (saveOnce p s).trace = s.trace := by
  simp only [saveOnce]; split <;> rfl
@[simp] theorem saveOnce_waited (p : Nat) (s : State) : (saveOnce p s).waited = s.waited := by
  simp only [saveOnce]; split <;> rfl
@[simp] theorem saveOnce_jtagOut (p : Nat) (s : State) : (saveOnce p s).jtagOut = s.jtagOut := by
  simp only [saveOnce]; split <;> rfl
@[simp] theorem saveOnce_pending (p : Nat) (s : State) : (saveOnce p s).pending = s.pending := by
  simp only [saveOnce]; split <;> rfl
@[simp] theorem saveOnce_lineSrc (p : Nat) (s : State) : (saveOnce p s).lineSrc = s.lineSrc := by
  simp only [saveOnce]; split <;> rfl
@[simp] theorem saveOnce_acquireSrc (p : Nat) (s : State) : (saveOnce p s).acquireSrc = s.acquireSrc := by
  simp only [saveOnce]; split <;> rfl
@[simp] theorem saveOnce_coprocSrc (p : Nat) (s : State) : (saveOnce p s).coprocSrc = s.coprocSrc := by
  simp only [saveOnce]; split <;> rfl
@[simp] theorem saveOnce_levelDraws (p : Nat) (s : State) : (saveOnce p s).levelDraws = s.levelDraws := by
  simp only [saveOnce]; split <;> rfl

/-! `latchFault`. -/

@[simp] theorem latchFault_cfg (c : QCode) (s : State) : (latchFault c s).cfg = s.cfg := by
  simp only [latchFault]; split <;> rfl
@[simp] theorem latchFault_a8 (c : QCode) (s : State) : (latchFault c s).a8 = s.a8 := by
  simp only [latchFault]; split <;> rfl
@[simp] theorem latchFault_a32 (c : QCode) (s : State) : (latchFault c s).a32 = s.a32 := by
  simp only [latchFault]; split <;> rfl
@[simp] theorem latchFault_status (c : QCode) (s : State) : (latchFault c s).status = s.status := by
  simp only [latchFault]; split <;> rfl
@[simp] theorem latchFault_rdata (c : QCode) (s : State) : (latchFault c s).rdata = s.rdata := by
  simp only [latchFault]; split <;> rfl
@[simp] theorem latchFault_rpar (c : QCode) (s : State) : (latchFault c s).rpar = s.rpar := by
  simp only [latchFault]; split <;> rfl
@[simp] theorem latchFault_rout (c : QCode) (s : State) : (latchFault c s).rout = s.rout := by
  simp only [latchFault]; split <;> rfl
@[simp] theorem latchFault_batchOpen (c : QCode) (s : State) : (latchFault c s).batchOpen = s.batchOpen := by
  simp only [latchFault]; split <;> rfl
@[simp] theorem latchFault_pincfg (c : QCode) (s : State) : (latchFault c s).pincfg = s.pincfg := by
  simp only [latchFault]; split <;> rfl
@[simp] theorem latchFault_coeff (c : QCode) (s : State) : (latchFault c s).coeff = s.coeff := by
  simp only [latchFault]; split <;> rfl
@[simp] theorem latchFault_offset (c : QCode) (s : State) : (latchFault c s).offset = s.offset := by
  simp only [latchFault]; split <;> rfl
@[simp] theorem latchFault_base (c : QCode) (s : State) : (latchFault c s).base = s.base := by
  simp only [latchFault]; split <;> rfl
@[simp] theorem latchFault_apDelay (c : QCode) (s : State) : (latchFault c s).apDelay = s.apDelay := by
  simp only [latchFault]; split <;> rfl
@[simp] theorem latchFault_session (c : QCode) (s : State) : (latchFault c s).session = s.session := by
  simp only [latchFault]; split <;> rfl
@[simp] theorem latchFault_tmode (c : QCode) (s : State) : (latchFault c s).tmode = s.tmode := by
  simp only [latchFault]; split <;> rfl
@[simp] theorem latchFault_delay (c : QCode) (s : State) : (latchFault c s).delay = s.delay := by
  simp only [latchFault]; split <;> rfl
@[simp] theorem latchFault_swdioDir (c : QCode) (s : State) : (latchFault c s).swdioDir = s.swdioDir := by
  simp only [latchFault]; split <;> rfl
@[simp] theorem latchFault_resHeld (c : QCode) (s : State) : (latchFault c s).resHeld = s.resHeld := by
  simp only [latchFault]; split <;> rfl
@[simp] theorem latchFault_claimed (c : QCode) (s : State) : (latchFault c s).claimed = s.claimed := by
  simp only [latchFault]; split <;> rfl
@[simp] theorem latchFault_saved (c : QCode) (s : State) : (latchFault c s).saved = s.saved := by
  simp only [latchFault]; split <;> rfl
@[simp] theorem latchFault_func (c : QCode) (s : State) : (latchFault c s).func = s.func := by
  simp only [latchFault]; split <;> rfl
@[simp] theorem latchFault_latch (c : QCode) (s : State) : (latchFault c s).latch = s.latch := by
  simp only [latchFault]; split <;> rfl
@[simp] theorem latchFault_trace (c : QCode) (s : State) : (latchFault c s).trace = s.trace := by
  simp only [latchFault]; split <;> rfl
@[simp] theorem latchFault_waited (c : QCode) (s : State) : (latchFault c s).waited = s.waited := by
  simp only [latchFault]; split <;> rfl
@[simp] theorem latchFault_jtagOut (c : QCode) (s : State) : (latchFault c s).jtagOut = s.jtagOut := by
  simp only [latchFault]; split <;> rfl
@[simp] theorem latchFault_pending (c : QCode) (s : State) : (latchFault c s).pending = s.pending := by
  simp only [latchFault]; split <;> rfl
@[simp] theorem latchFault_lineSrc (c : QCode) (s : State) : (latchFault c s).lineSrc = s.lineSrc := by
  simp only [latchFault]; split <;> rfl
@[simp] theorem latchFault_acquireSrc (c : QCode) (s : State) : (latchFault c s).acquireSrc = s.acquireSrc := by
  simp only [latchFault]; split <;> rfl
@[simp] theorem latchFault_coprocSrc (c : QCode) (s : State) : (latchFault c s).coprocSrc = s.coprocSrc := by
  simp only [latchFault]; split <;> rfl
@[simp] theorem latchFault_levelDraws (c : QCode) (s : State) : (latchFault c s).levelDraws = s.levelDraws := by
  simp only [latchFault]; split <;> rfl

/-! `acceptData`. -/

@[simp] theorem acceptData_cfg (v : Word) (b : Bool) (s : State) : (acceptData v b s).cfg = s.cfg := by
  simp only [acceptData]; split; · rfl
  split <;> simp
@[simp] theorem acceptData_a8 (v : Word) (b : Bool) (s : State) : (acceptData v b s).a8 = s.a8 := by
  simp only [acceptData]; split; · rfl
  split <;> simp
@[simp] theorem acceptData_a32 (v : Word) (b : Bool) (s : State) : (acceptData v b s).a32 = s.a32 := by
  simp only [acceptData]; split; · rfl
  split <;> simp
@[simp] theorem acceptData_status (v : Word) (b : Bool) (s : State) : (acceptData v b s).status = s.status := by
  simp only [acceptData]; split; · rfl
  split <;> simp
@[simp] theorem acceptData_rout (v : Word) (b : Bool) (s : State) : (acceptData v b s).rout = s.rout := by
  simp only [acceptData]; split; · rfl
  split <;> simp
@[simp] theorem acceptData_batchOpen (v : Word) (b : Bool) (s : State) : (acceptData v b s).batchOpen = s.batchOpen := by
  simp only [acceptData]; split; · rfl
  split <;> simp
@[simp] theorem acceptData_pincfg (v : Word) (b : Bool) (s : State) : (acceptData v b s).pincfg = s.pincfg := by
  simp only [acceptData]; split; · rfl
  split <;> simp
@[simp] theorem acceptData_coeff (v : Word) (b : Bool) (s : State) : (acceptData v b s).coeff = s.coeff := by
  simp only [acceptData]; split; · rfl
  split <;> simp
@[simp] theorem acceptData_offset (v : Word) (b : Bool) (s : State) : (acceptData v b s).offset = s.offset := by
  simp only [acceptData]; split; · rfl
  split <;> simp
@[simp] theorem acceptData_base (v : Word) (b : Bool) (s : State) : (acceptData v b s).base = s.base := by
  simp only [acceptData]; split; · rfl
  split <;> simp
@[simp] theorem acceptData_apDelay (v : Word) (b : Bool) (s : State) : (acceptData v b s).apDelay = s.apDelay := by
  simp only [acceptData]; split; · rfl
  split <;> simp
@[simp] theorem acceptData_session (v : Word) (b : Bool) (s : State) : (acceptData v b s).session = s.session := by
  simp only [acceptData]; split; · rfl
  split <;> simp
@[simp] theorem acceptData_tmode (v : Word) (b : Bool) (s : State) : (acceptData v b s).tmode = s.tmode := by
  simp only [acceptData]; split; · rfl
  split <;> simp
@[simp] theorem acceptData_delay (v : Word) (b : Bool) (s : State) : (acceptData v b s).delay = s.delay := by
  simp only [acceptData]; split; · rfl
  split <;> simp
@[simp] theorem acceptData_swdioDir (v : Word) (b : Bool) (s : State) : (acceptData v b s).swdioDir = s.swdioDir := by
  simp only [acceptData]; split; · rfl
  split <;> simp
@[simp] theorem acceptData_resHeld (v : Word) (b : Bool) (s : State) : (acceptData v b s).resHeld = s.resHeld := by
  simp only [acceptData]; split; · rfl
  split <;> simp
@[simp] theorem acceptData_claimed (v : Word) (b : Bool) (s : State) : (acceptData v b s).claimed = s.claimed := by
  simp only [acceptData]; split; · rfl
  split <;> simp
@[simp] theorem acceptData_saved (v : Word) (b : Bool) (s : State) : (acceptData v b s).saved = s.saved := by
  simp only [acceptData]; split; · rfl
  split <;> simp
@[simp] theorem acceptData_func (v : Word) (b : Bool) (s : State) : (acceptData v b s).func = s.func := by
  simp only [acceptData]; split; · rfl
  split <;> simp
@[simp] theorem acceptData_latch (v : Word) (b : Bool) (s : State) : (acceptData v b s).latch = s.latch := by
  simp only [acceptData]; split; · rfl
  split <;> simp
@[simp] theorem acceptData_trace (v : Word) (b : Bool) (s : State) : (acceptData v b s).trace = s.trace := by
  simp only [acceptData]; split; · rfl
  split <;> simp
@[simp] theorem acceptData_waited (v : Word) (b : Bool) (s : State) : (acceptData v b s).waited = s.waited := by
  simp only [acceptData]; split; · rfl
  split <;> simp
@[simp] theorem acceptData_jtagOut (v : Word) (b : Bool) (s : State) : (acceptData v b s).jtagOut = s.jtagOut := by
  simp only [acceptData]; split; · rfl
  split <;> simp
@[simp] theorem acceptData_pending (v : Word) (b : Bool) (s : State) : (acceptData v b s).pending = s.pending := by
  simp only [acceptData]; split; · rfl
  split <;> simp
@[simp] theorem acceptData_lineSrc (v : Word) (b : Bool) (s : State) : (acceptData v b s).lineSrc = s.lineSrc := by
  simp only [acceptData]; split; · rfl
  split <;> simp
@[simp] theorem acceptData_acquireSrc (v : Word) (b : Bool) (s : State) : (acceptData v b s).acquireSrc = s.acquireSrc := by
  simp only [acceptData]; split; · rfl
  split <;> simp
@[simp] theorem acceptData_coprocSrc (v : Word) (b : Bool) (s : State) : (acceptData v b s).coprocSrc = s.coprocSrc := by
  simp only [acceptData]; split; · rfl
  split <;> simp
@[simp] theorem acceptData_levelDraws (v : Word) (b : Bool) (s : State) : (acceptData v b s).levelDraws = s.levelDraws := by
  simp only [acceptData]; split; · rfl
  split <;> simp

/-! `applyAck`, over `latchFault`. -/

@[simp] theorem applyAck_cfg (a : BitVec 3) (s : State) : (applyAck a s).cfg = s.cfg := by
  simp [applyAck]
@[simp] theorem applyAck_a8 (a : BitVec 3) (s : State) : (applyAck a s).a8 = s.a8 := by
  simp [applyAck]
@[simp] theorem applyAck_a32 (a : BitVec 3) (s : State) : (applyAck a s).a32 = s.a32 := by
  simp [applyAck]
@[simp] theorem applyAck_status (a : BitVec 3) (s : State) : (applyAck a s).status = s.status := by
  simp [applyAck]
@[simp] theorem applyAck_rdata (a : BitVec 3) (s : State) : (applyAck a s).rdata = s.rdata := by
  simp [applyAck]
@[simp] theorem applyAck_rpar (a : BitVec 3) (s : State) : (applyAck a s).rpar = s.rpar := by
  simp [applyAck]
@[simp] theorem applyAck_rout (a : BitVec 3) (s : State) : (applyAck a s).rout = s.rout := by
  simp [applyAck]
@[simp] theorem applyAck_batchOpen (a : BitVec 3) (s : State) : (applyAck a s).batchOpen = s.batchOpen := by
  simp [applyAck]
@[simp] theorem applyAck_pincfg (a : BitVec 3) (s : State) : (applyAck a s).pincfg = s.pincfg := by
  simp [applyAck]
@[simp] theorem applyAck_coeff (a : BitVec 3) (s : State) : (applyAck a s).coeff = s.coeff := by
  simp [applyAck]
@[simp] theorem applyAck_offset (a : BitVec 3) (s : State) : (applyAck a s).offset = s.offset := by
  simp [applyAck]
@[simp] theorem applyAck_base (a : BitVec 3) (s : State) : (applyAck a s).base = s.base := by
  simp [applyAck]
@[simp] theorem applyAck_apDelay (a : BitVec 3) (s : State) : (applyAck a s).apDelay = s.apDelay := by
  simp [applyAck]
@[simp] theorem applyAck_session (a : BitVec 3) (s : State) : (applyAck a s).session = s.session := by
  simp [applyAck]
@[simp] theorem applyAck_tmode (a : BitVec 3) (s : State) : (applyAck a s).tmode = s.tmode := by
  simp [applyAck]
@[simp] theorem applyAck_delay (a : BitVec 3) (s : State) : (applyAck a s).delay = s.delay := by
  simp [applyAck]
@[simp] theorem applyAck_swdioDir (a : BitVec 3) (s : State) : (applyAck a s).swdioDir = s.swdioDir := by
  simp [applyAck]
@[simp] theorem applyAck_resHeld (a : BitVec 3) (s : State) : (applyAck a s).resHeld = s.resHeld := by
  simp [applyAck]
@[simp] theorem applyAck_claimed (a : BitVec 3) (s : State) : (applyAck a s).claimed = s.claimed := by
  simp [applyAck]
@[simp] theorem applyAck_saved (a : BitVec 3) (s : State) : (applyAck a s).saved = s.saved := by
  simp [applyAck]
@[simp] theorem applyAck_func (a : BitVec 3) (s : State) : (applyAck a s).func = s.func := by
  simp [applyAck]
@[simp] theorem applyAck_latch (a : BitVec 3) (s : State) : (applyAck a s).latch = s.latch := by
  simp [applyAck]
@[simp] theorem applyAck_trace (a : BitVec 3) (s : State) : (applyAck a s).trace = s.trace := by
  simp [applyAck]
@[simp] theorem applyAck_waited (a : BitVec 3) (s : State) : (applyAck a s).waited = s.waited := by
  simp [applyAck]
@[simp] theorem applyAck_jtagOut (a : BitVec 3) (s : State) : (applyAck a s).jtagOut = s.jtagOut := by
  simp [applyAck]
@[simp] theorem applyAck_pending (a : BitVec 3) (s : State) : (applyAck a s).pending = s.pending := by
  simp [applyAck]
@[simp] theorem applyAck_lineSrc (a : BitVec 3) (s : State) : (applyAck a s).lineSrc = s.lineSrc := by
  simp [applyAck]
@[simp] theorem applyAck_acquireSrc (a : BitVec 3) (s : State) : (applyAck a s).acquireSrc = s.acquireSrc := by
  simp [applyAck]
@[simp] theorem applyAck_coprocSrc (a : BitVec 3) (s : State) : (applyAck a s).coprocSrc = s.coprocSrc := by
  simp [applyAck]
@[simp] theorem applyAck_levelDraws (a : BitVec 3) (s : State) : (applyAck a s).levelDraws = s.levelDraws := by
  simp [applyAck]

end Sys2Proof.Machine
end

