-- ==== Sys2Proof/Laws/Table.lean ====
section
/-! SUPPORT. Pin tables: read after write, and the canonical form kept (log entry 8). -/

namespace Sys2Proof.Machine

variable {α : Type}

theorem tableRead_erase_same (d : α) (t : PinTable α) (p : Nat) : tableRead d (tableErase p t) p = d := by
  induction t with
  | nil => rfl
  | cons e t ih =>
    obtain ⟨q, v⟩ := e
    by_cases h : q = p
    · subst h; simpa [tableErase] using ih
    · simpa [tableErase, h, tableRead] using ih

theorem tableRead_erase_other (d : α) (t : PinTable α) {p q : Nat} (h : q ≠ p) :
    tableRead d (tableErase p t) q = tableRead d t q := by
  induction t with
  | nil => rfl
  | cons e t ih =>
    obtain ⟨r, v⟩ := e
    by_cases hr : r = p
    · subst hr; simpa [tableErase, tableRead, h.symm] using ih
    · simp only [tableErase, ne_eq, hr, not_false_eq_true, bne_iff_ne, List.filter_cons_of_pos, tableRead] at ih ⊢
      rw [ih]

theorem tableRead_insert_same (d : α) (t : PinTable α) (p : Nat) (v : α) (h : ∀ e ∈ t, e.1 ≠ p) :
    tableRead d (tableInsert p v t) p = v := by
  induction t with
  | nil => simp [tableInsert, tableRead]
  | cons e t ih =>
    obtain ⟨q, w⟩ := e
    have hq : q ≠ p := h (q, w) (by simp)
    simp only [tableInsert]
    split
    · simp [tableRead]
    · simp only [tableRead, hq, ↓reduceIte]
      exact ih fun e he => h e (by simp [he])

theorem tableRead_insert_other (d : α) (t : PinTable α) {p q : Nat} (v : α) (h : q ≠ p) :
    tableRead d (tableInsert p v t) q = tableRead d t q := by
  induction t with
  | nil => simp [tableInsert, tableRead, h.symm]
  | cons e t ih =>
    obtain ⟨r, w⟩ := e
    simp only [tableInsert]
    split
    · simp [tableRead, h.symm]
    · simp only [tableRead, ih]

theorem mem_tableErase {t : PinTable α} {p : Nat} {e : Nat × α} : e ∈ tableErase p t ↔ e ∈ t ∧ e.1 ≠ p := by
  simp [tableErase]

variable [DecidableEq α]

/-- A read after a write to the same pin gives the value written. -/
@[simp] theorem tableRead_write_same (d : α) (t : PinTable α) (p : Nat) (v : α) :
    tableRead d (tableWrite d t p v) p = v := by
  simp only [tableWrite]
  split
  · next h => rw [tableRead_erase_same, h]
  · exact tableRead_insert_same d _ p v fun e he => (mem_tableErase.1 he).2

/-- A write leaves every other pin alone. -/
theorem tableRead_write_other (d : α) (t : PinTable α) {p q : Nat} (v : α) (h : q ≠ p) :
    tableRead d (tableWrite d t p v) q = tableRead d t q := by
  simp only [tableWrite]
  split
  · exact tableRead_erase_other d t h
  · rw [tableRead_insert_other d _ v h, tableRead_erase_other d t h]

/-- What a read after a write gives. -/
theorem tableRead_write (d : α) (t : PinTable α) (p q : Nat) (v : α) :
    tableRead d (tableWrite d t p v) q = if q = p then v else tableRead d t q := by
  split
  · next h => rw [h, tableRead_write_same]
  · next h => exact tableRead_write_other d t v h

omit [DecidableEq α] in
theorem mem_tableInsert {t : PinTable α} {p : Nat} {v : α} {e : Nat × α} (h : e ∈ tableInsert p v t) :
    e = (p, v) ∨ e ∈ t := by
  induction t with
  | nil => simpa [tableInsert] using h
  | cons x t ih =>
    obtain ⟨q, w⟩ := x
    simp only [tableInsert] at h
    split at h
    · simpa using h
    · simp only [List.mem_cons] at h ⊢
      rcases h with h | h
      · exact .inr (.inl h)
      · rcases ih h with h | h
        · exact .inl h
        · exact .inr (.inr h)

omit [DecidableEq α] in
theorem tableInsert_sorted {t : PinTable α} {p : Nat} {v : α} (ht : (t.map Prod.fst).Pairwise (· < ·))
    (hp : ∀ e ∈ t, e.1 ≠ p) : ((tableInsert p v t).map Prod.fst).Pairwise (· < ·) := by
  induction t with
  | nil => simp [tableInsert]
  | cons x t ih =>
    obtain ⟨q, w⟩ := x
    simp only [List.map_cons, List.pairwise_cons, List.mem_map, forall_exists_index, and_imp,
      forall_apply_eq_imp_iff₂] at ht
    have hq : q ≠ p := hp (q, w) (by simp)
    simp only [tableInsert]
    split
    · next hlt =>
      simp only [List.map_cons, List.pairwise_cons, List.mem_cons, List.mem_map, forall_eq_or_imp]
      refine ⟨⟨hlt, ?_⟩, ?_, ht.2⟩
      · rintro a ⟨e, he, rfl⟩; exact lt_trans hlt (ht.1 e he)
      · rintro a ⟨e, he, rfl⟩; exact ht.1 e he
    · next hlt =>
      simp only [List.map_cons, List.pairwise_cons, List.mem_map, forall_exists_index, and_imp]
      refine ⟨?_, ih ht.2 fun e he => hp e (by simp [he])⟩
      rintro a e he rfl
      rcases mem_tableInsert he with rfl | he
      · simp only; omega
      · exact ht.1 e he

theorem tableWf_iff {d : α} {t : PinTable α} :
    tableWf d t = true ↔ (t.map Prod.fst).Pairwise (· < ·) ∧ ∀ e ∈ t, e.2 ≠ d := by
  simp [tableWf]

/-- Every write keeps the canonical form. -/
theorem tableWf_write {d : α} {t : PinTable α} (p : Nat) (v : α) (h : tableWf d t = true) :
    tableWf d (tableWrite d t p v) = true := by
  rw [tableWf_iff] at h ⊢
  have hs : ((tableErase p t).map Prod.fst).Pairwise (· < ·) :=
    h.1.sublist (List.Sublist.map _ List.filter_sublist)
  have hd : ∀ e ∈ tableErase p t, e.2 ≠ d := fun e he => h.2 e (mem_tableErase.1 he).1
  simp only [tableWrite]
  split
  · exact ⟨hs, hd⟩
  · next hv =>
    refine ⟨tableInsert_sorted hs fun e he => (mem_tableErase.1 he).2, fun e he => ?_⟩
    rcases mem_tableInsert he with rfl | he
    · exact hv
    · exact hd e he

theorem tableWf_latchAll (v : Bool) (pins : List Nat) (t : PinTable Bool) (h : tableWf false t = true) :
    tableWf false (latchAll v pins t) = true := by
  induction pins generalizing t with
  | nil => exact h
  | cons p ps ih => exact ih _ (tableWf_write p v h)

/-- What a latch reads after a list of pins was set to one level. -/
theorem tableRead_latchAll (v : Bool) (pins : List Nat) (t : PinTable Bool) (q : Nat) :
    tableRead false (latchAll v pins t) q = if q ∈ pins then v else tableRead false t q := by
  induction pins generalizing t with
  | nil => simp [latchAll]
  | cons p ps ih =>
    have : latchAll v (p :: ps) t = latchAll v ps (tableWrite false t p v) := rfl
    rw [this, ih, tableRead_write]
    by_cases h1 : q ∈ ps <;> by_cases h2 : q = p <;> simp [h1, h2]

omit [DecidableEq α] in
/-- A listed entry is what a sorted table reads for its pin. -/
theorem tableRead_of_mem {d : α} {t : PinTable α} (h : (t.map Prod.fst).Pairwise (· < ·)) {p : Nat} {v : α}
    (hm : (p, v) ∈ t) : tableRead d t p = v := by
  induction t with
  | nil => simp at hm
  | cons e t ih =>
    obtain ⟨q, w⟩ := e
    simp only [List.map_cons, List.pairwise_cons, List.mem_map, forall_exists_index, and_imp,
      forall_apply_eq_imp_iff₂] at h
    simp only [List.mem_cons, Prod.mk.injEq] at hm
    rcases hm with ⟨rfl, rfl⟩ | hm
    · simp [tableRead]
    · have : q ≠ p := by have := h.1 _ hm; simp only at this; omega
      simp only [tableRead, this, ↓reduceIte]
      exact ih h.2 hm

omit [DecidableEq α] in
/-- A pin that reads other than the default is listed. -/
theorem mem_keys_of_read {d : α} {t : PinTable α} {p : Nat} (h : tableRead d t p ≠ d) : p ∈ t.map Prod.fst := by
  induction t with
  | nil => simp [tableRead] at h
  | cons e t ih =>
    obtain ⟨q, w⟩ := e
    simp only [tableRead] at h
    by_cases hq : q = p
    · simp [hq]
    · simp only [hq, ↓reduceIte] at h
      simp only [List.map_cons, List.mem_cons]
      exact .inr (ih h)

end Sys2Proof.Machine
end

