-- ==== Sys2Proof/Laws/Ops.lean ====
section
/-! SUPPORT. One lemma for each shared operation, saying once what it can do. -/

namespace Sys2Proof.Machine

variable {α β : Type}

/-! Sequencing. -/

@[simp] theorem andThen_ok (a : α) (s : State) (f : α → State → Res β) : (Res.ok a s).andThen f = f a s := rfl
@[simp] theorem andThen_stuck (h : State) (f : α → State → Res β) : (Res.stuck h : Res α).andThen f = .stuck h := rfl
@[simp] theorem andThen_refused (e : Refusal) (f : α → State → Res β) :
    (Res.refused e : Res α).andThen f = .refused e := rfl

/-- A sequence ends with a value exactly when both of its parts do. -/
theorem andThen_eq_ok {r : Res α} {f : α → State → Res β} {b : β} {t : State} :
    r.andThen f = .ok b t ↔ ∃ a s, r = .ok a s ∧ f a s = .ok b t := by
  cases r <;> simp

/-- A sequence hangs in its first part or in its second. -/
theorem andThen_eq_stuck {r : Res α} {f : α → State → Res β} {h : State} :
    r.andThen f = .stuck h ↔ r = .stuck h ∨ ∃ a s, r = .ok a s ∧ f a s = .stuck h := by
  cases r <;> simp

@[simp] theorem finish_ok (s : State) : finish (.ok () s) = .next s := rfl
@[simp] theorem finish_stuck (h : State) : finish (.stuck h) = .fault (.stuck h) := rfl
@[simp] theorem finish_refused (e : Refusal) : finish (.refused e) = .refused e := rfl

/-- An operation answers a next state exactly when it ends with a value. -/
@[simp] theorem finish_eq_next {r : Res Unit} {t : State} : finish r = .next t ↔ r = .ok () t := by
  cases r <;> simp [finish]

/-- An operation faults exactly when it hangs. -/
@[simp] theorem finish_eq_fault {r : Res Unit} {e : Fault} : finish r = .fault e ↔ ∃ h, r = .stuck h ∧ e = .stuck h := by
  cases r <;> simp [finish, eq_comm]

/-! Requests of the co-processor. -/

theorem rendezvous_direct {s : State} (h : s.cfg.impl = .direct) : rendezvous s = .ok () s := by
  simp [rendezvous, h]

/-- A request that completes changes the answers left and nothing else. -/
theorem rendezvous_ok {s t : State} {u : Unit} (h : rendezvous s = .ok u t) :
    t = { s with coprocSrc := t.coprocSrc } := by
  unfold rendezvous at h
  split at h
  · cases h; rfl
  · simp only at h
    split at h <;> cases h
    rfl

/-! The accesses to the I/O controller. -/

theorem levelWrite_direct {s : State} (a b : List Nat) (h : s.cfg.impl = .direct) :
    levelWrite a b s = .ok () (applyLevels a b s) := by
  simp [levelWrite, rendezvous_direct h]

theorem levelRead_direct {s : State} (p : Nat) (h : s.cfg.impl = .direct) :
    levelRead p s = .ok (lineLevel p s).1 (lineLevel p s).2 := by
  simp [levelRead, rendezvous_direct h]

/-- A pin of an output reads back its own latch, with no draw (spec/10_state.md R24). -/
theorem lineLevel_output {s : State} {p : Nat} (h : s.funcOf p = .output) : lineLevel p s = (s.latchOf p, s) := by
  simp [lineLevel, h]

/-- A pin that is no output shows a draw (spec/10_state.md R24). -/
theorem lineLevel_input {s : State} {p : Nat} (h : s.funcOf p ≠ .output) : lineLevel p s = drawLine s := by
  simp [lineLevel, h]

/-- A draw takes the oldest bit given. -/
theorem drawLine_given {s : State} {b : Bool} {bs : List Bool} (h : s.lineSrc.given = b :: bs) :
    drawLine s = (b, { s with lineSrc := { s.lineSrc with given := bs } }) := by
  simp [drawLine, Source.draw, h]

/-- Reading a level changes the draws left and nothing else. -/
theorem lineLevel_state (p : Nat) (s : State) : (lineLevel p s).2 = { s with lineSrc := (lineLevel p s).2.lineSrc } := by
  unfold lineLevel; split <;> rfl

/-- What the latches read after a level write: a pin in one mask alone takes that mask's level, a pin in neither keeps
its own (spec/20_memory.md R42). -/
theorem latchOf_applyLevels (a b : List Nat) (s : State) (p : Nat) (h : ¬(p ∈ a ∧ p ∈ b)) :
    (applyLevels a b s).latchOf p = if p ∈ b then false else if p ∈ a then true else s.latchOf p := by
  have hbase : tableRead false (latchAll false b (latchAll true a s.latch)) p =
      if p ∈ b then false else if p ∈ a then true else s.latchOf p := by
    rw [tableRead_latchAll, tableRead_latchAll]; rfl
  simp only [applyLevels]
  split
  · exact hbase
  · rw [← hbase]
    simp only [State.latchOf]
    have hp : p ∉ a.filter fun q => b.contains q := by simpa using h
    generalize (a.filter fun q => b.contains q) = l at hp
    generalize latchAll false b (latchAll true a s.latch) = t
    induction l generalizing t with
    | nil => rfl
    | cons q l ih =>
      simp only [List.mem_cons, not_or] at hp
      rw [List.foldl_cons, ih hp.2, tableRead_write_other false t _ hp.1]

/-- With no pin in both masks no free value is drawn. -/
theorem levelDraws_applyLevels (a b : List Nat) (s : State) (h : ∀ p ∈ a, p ∉ b) :
    (applyLevels a b s).levelDraws = s.levelDraws := by
  have : (a.filter fun q => b.contains q) = [] := by simpa [List.filter_eq_nil_iff] using h
  simp only [applyLevels, this]; rfl

/-- A level write changes the latches and the count of free levels, and nothing else. -/
theorem applyLevels_state (a b : List Nat) (s : State) :
    applyLevels a b s = { s with latch := (applyLevels a b s).latch, levelDraws := (applyLevels a b s).levelDraws } := by
  simp only [applyLevels]; split <;> rfl

/-- A level write keeps the canonical form of the latches. -/
theorem tableWf_applyLevels (a b : List Nat) (s : State) (h : tableWf false s.latch = true) :
    tableWf false (applyLevels a b s).latch = true := by
  have h' := tableWf_latchAll false b _ (tableWf_latchAll true a _ h)
  simp only [applyLevels]
  split
  · exact h'
  · generalize (a.filter fun q => b.contains q) = l
    generalize latchAll false b (latchAll true a s.latch) = t at h'
    induction l generalizing t with
    | nil => exact h'
    | cons q l ih => exact ih _ (tableWf_write q _ h')

/-! Claiming and restoring pins. -/

theorem claimPin_direct {s : State} (m : PinMode) (p : Nat) (h : s.cfg.impl = .direct) :
    claimPin m p s = .ok () (funcWrite p m (saveOnce p s)) := by
  simp [claimPin, rendezvous_direct h]

theorem isClaimed_saveOnce (p q : Nat) (s : State) :
    (saveOnce p s).isClaimed q = if q = p then true else s.isClaimed q := by
  unfold saveOnce
  by_cases h : s.isClaimed p = true
  · simp only [h, ↓reduceIte]; split
    · next hq => rw [hq, h]
    · rfl
  · rw [if_neg h]; exact tableRead_write false s.claimed p q true

theorem savedMode_saveOnce (p q : Nat) (s : State) :
    (saveOnce p s).savedMode q = if q = p ∧ s.isClaimed p = false then s.funcOf p else s.savedMode q := by
  unfold saveOnce
  by_cases h : s.isClaimed p = true
  · simp [h]
  · have h' : s.isClaimed p = false := by simpa using h
    simp [h', State.savedMode, tableRead_write]

@[simp] theorem funcOf_saveOnce (p q : Nat) (s : State) : (saveOnce p s).funcOf q = s.funcOf q := by
  simp [State.funcOf]

/-- A pin already claimed is not saved again (spec/40_pinmux.md R91). -/
theorem saveOnce_claimed {s : State} {p : Nat} (h : s.isClaimed p = true) : saveOnce p s = s := by
  simp [saveOnce, h]

theorem funcOf_funcWrite (p q : Nat) (m : PinMode) (s : State) :
    (funcWrite p m s).funcOf q = if q = p then m else s.funcOf q := by
  simp [State.funcOf, tableRead_write]

@[simp] theorem isClaimed_funcWrite (p q : Nat) (m : PinMode) (s : State) :
    (funcWrite p m s).isClaimed q = s.isClaimed q := by simp [State.isClaimed]

@[simp] theorem savedMode_funcWrite (p q : Nat) (m : PinMode) (s : State) :
    (funcWrite p m s).savedMode q = s.savedMode q := by simp [State.savedMode]

/-- Giving a pin up changes its function, its claim and the history, and nothing else. -/
theorem giveUp_fields (p : Nat) (s : State) : giveUp p s = { s with
    func := (giveUp p s).func, claimed := (giveUp p s).claimed
    trace := s.trace ++ if s.isClaimed p then [.fn p (s.savedMode p)] else [] } := by
  unfold giveUp
  split
  · rfl
  · simp

theorem trace_giveUp (p : Nat) (s : State) : s.trace <+: (giveUp p s).trace := by
  rw [giveUp_fields]; exact List.prefix_append _ _

/-- An unclaimed pin has nothing to give up (spec/40_pinmux.md R93). -/
theorem giveUp_unclaimed {s : State} {p : Nat} (h : s.isClaimed p = false) : giveUp p s = s := by simp [giveUp, h]

theorem restorePin_direct {s : State} (p : Nat) (h : s.cfg.impl = .direct) : restorePin p s = .ok () (giveUp p s) := by
  simp [restorePin, rendezvous_direct h]

theorem funcOf_giveUp (p q : Nat) (s : State) :
    (giveUp p s).funcOf q = if q = p ∧ s.isClaimed p = true then s.savedMode p else s.funcOf q := by
  unfold giveUp
  by_cases h : s.isClaimed p = true
  · simp only [h, and_true, ↓reduceIte]; exact funcOf_funcWrite p q (s.savedMode p) s
  · simp [h]

theorem isClaimed_giveUp (p q : Nat) (s : State) : (giveUp p s).isClaimed q = if q = p then false else s.isClaimed q := by
  unfold giveUp
  by_cases h : s.isClaimed p = true
  · rw [if_pos h]; exact tableRead_write false s.claimed p q false
  · rw [if_neg h]; split
    · next hq => rw [hq]; simpa using h
    · rfl

@[simp] theorem savedMode_giveUp (p q : Nat) (s : State) : (giveUp p s).savedMode q = s.savedMode q := by
  rw [giveUp_fields]; rfl
@[simp] theorem latchOf_giveUp (p q : Nat) (s : State) : (giveUp p s).latchOf q = s.latchOf q := by
  rw [giveUp_fields]; rfl
@[simp] theorem pinOf_giveUp (p : Nat) (r : Role) (s : State) : pinOf r (giveUp p s) = pinOf r s := by
  rw [giveUp_fields]; rfl

/-- Giving a pin up keeps the canonical form of the pin tables. -/
theorem tableWf_giveUp (p : Nat) (s : State) :
    (tableWf false s.claimed = true → tableWf false (giveUp p s).claimed = true) ∧
      (tableWf .input s.func = true → tableWf .input (giveUp p s).func = true) := by
  unfold giveUp
  split
  · exact ⟨tableWf_write p false, tableWf_write p (s.savedMode p)⟩
  · exact ⟨id, id⟩

/-! Latching. -/

/-- A fault is latched only when none is (spec/60_exceptions.md R196). -/
theorem qcode_latchFault (c : QCode) (s : State) :
    (latchFault c s).qcode = if s.qcode = .ok then c else s.qcode := by
  unfold latchFault; split <;> rfl

theorem qcode_applyAck (a : BitVec 3) (s : State) :
    (applyAck a s).qcode = if s.qcode = .ok then codeOfAck (decodeAck s.cfg.toDecided a) else s.qcode := qcode_latchFault _ s

/-- A read value with the right parity is delivered and latches nothing (spec/43_swd_engine.md R142). -/
theorem acceptData_good {s : State} {v : Word} {b : Bool} (hq : s.qcode = .ok) (hb : b = parityOdd v) :
    acceptData v b s = { s with rdata := v, rpar := b } := by
  simp [acceptData, hq, ← hb]

/-- A parity mismatch latches `FAIL` and delivers nothing (spec/43_swd_engine.md R143). -/
theorem acceptData_bad {s : State} {v : Word} {b : Bool} (hq : s.qcode = .ok) (hb : b ≠ parityOdd v) :
    acceptData v b s = { s with qcode := .fail } := by
  simp [acceptData, hq, hb, latchFault]

/-! The role map. -/

/-- A usable pin is a configured one within the platform's range (spec/40_pinmux.md R90, R94). -/
theorem validPin_eq_some {c : Config} {x : PinOperand} {p : Nat} :
    validPin c x = some p ↔ ∃ i, x = some i ∧ i.toNat = p ∧ p ≤ c.pinMax := by
  cases x with
  | none => simp [validPin]
  | some i =>
    simp only [validPin, Option.ite_none_right_eq_some, Option.some.injEq, exists_eq_left']
    constructor
    · rintro ⟨h, rfl⟩; exact ⟨rfl, h⟩
    · rintro ⟨rfl, h⟩; exact ⟨h, rfl⟩

/-- The role map depends on the configuration of the pins alone. -/
theorem pinOf_congr {s t : State} (r : Role) (hc : t.cfg = s.cfg) (hp : t.pincfg = s.pincfg) : pinOf r t = pinOf r s := by
  simp [pinOf, hc, hp]

/-! Bits in wire order. -/

theorem length_wireBits {n : Nat} (v : BitVec n) : (wireBits v).length = n := by simp [wireBits]

theorem natOfBits_lt (bs : List Bool) : natOfBits bs < 2 ^ bs.length := by
  induction bs with
  | nil => simp [natOfBits]
  | cons b bs ih =>
    have : b.toNat < 2 := Bool.toNat_lt b
    simp only [natOfBits, List.length_cons, pow_succ]
    omega

theorem testBit_natOfBits (bs : List Bool) (i : Nat) : (natOfBits bs).testBit i = bs.getD i false := by
  induction bs generalizing i with
  | nil => simp [natOfBits]
  | cons b bs ih =>
    cases i with
    | zero => cases b <;> simp [natOfBits, Nat.testBit_zero]
    | succ i =>
      have h : (b.toNat + 2 * natOfBits bs) / 2 = natOfBits bs := by
        have : b.toNat < 2 := Bool.toNat_lt b
        omega
      simp only [natOfBits, Nat.testBit_succ, h, ih, List.getD_cons_succ]

/-- Receiving the bits of a value gives the value back (spec/41_bitdriver.md R109). -/
theorem valueOfBits_wireBits {n : Nat} (v : BitVec n) : valueOfBits n (wireBits v) = v := by
  apply BitVec.eq_of_getLsbD_eq
  intro i hi
  simp only [valueOfBits, BitVec.getLsbD_ofNat, hi, decide_true, Bool.true_and, testBit_natOfBits]
  simp [wireBits, List.getD, hi]

end Sys2Proof.Machine
end

