-- ==== Sys2Proof/Laws/Driver.lean ====
section
/-! SUPPORT. What the driver's primitives and the clock-cycle macros can do: the frame of all of them, and on a platform
that reaches the pins directly the events and the bits. -/

namespace Sys2Proof.Machine

/-- What driver activity without a turn of SWDIO leaves unchanged: every field but those named; only the latches of the
pins in `pins` move. -/
structure LevelActivity (pins : List Nat) (s t : State) : Prop where
  fields : t = { s with
    latch := t.latch, trace := t.trace, waited := t.waited, rout := t.rout, lineSrc := t.lineSrc,
    coprocSrc := t.coprocSrc, levelDraws := t.levelDraws }
  latchElsewhere : ∀ p, p ∉ pins → t.latchOf p = s.latchOf p
  latchWf : tableWf false s.latch = true → tableWf false t.latch = true

namespace LevelActivity

variable {pins : List Nat} {s t u : State}

theorem refl (pins : List Nat) (s : State) : LevelActivity pins s s := ⟨rfl, fun _ _ => rfl, id⟩

theorem trans (h : LevelActivity pins s t) (k : LevelActivity pins t u) : LevelActivity pins s u := by
  refine ⟨?_, fun p hp => (k.latchElsewhere p hp).trans (h.latchElsewhere p hp), fun hw => k.latchWf (h.latchWf hw)⟩
  have hk := k.fields
  rw [h.fields] at hk
  exact hk

theorem cfg (h : LevelActivity pins s t) : t.cfg = s.cfg := by rw [h.fields]
theorem pincfg (h : LevelActivity pins s t) : t.pincfg = s.pincfg := by rw [h.fields]
theorem session (h : LevelActivity pins s t) : t.session = s.session := by rw [h.fields]
theorem tmode (h : LevelActivity pins s t) : t.tmode = s.tmode := by rw [h.fields]
theorem func (h : LevelActivity pins s t) : t.func = s.func := by rw [h.fields]
theorem claimed (h : LevelActivity pins s t) : t.claimed = s.claimed := by rw [h.fields]
theorem saved (h : LevelActivity pins s t) : t.saved = s.saved := by rw [h.fields]
theorem qcode (h : LevelActivity pins s t) : t.qcode = s.qcode := by rw [h.fields]
theorem batchOpen (h : LevelActivity pins s t) : t.batchOpen = s.batchOpen := by rw [h.fields]
theorem swdioDir (h : LevelActivity pins s t) : t.swdioDir = s.swdioDir := by rw [h.fields]
theorem delay (h : LevelActivity pins s t) : t.delay = s.delay := by rw [h.fields]
theorem apDelay (h : LevelActivity pins s t) : t.apDelay = s.apDelay := by rw [h.fields]
theorem pinOf (h : LevelActivity pins s t) (r : Role) : Machine.pinOf r t = Machine.pinOf r s :=
  pinOf_congr r h.cfg h.pincfg
theorem enabled (h : LevelActivity pins s t) (f : Flavour) : Machine.enabled f t = Machine.enabled f s := by
  simp [Machine.enabled, h.session, h.tmode]

theorem mono {pins' : List Nat} (h : LevelActivity pins s t) (hs : ∀ p ∈ pins, p ∈ pins') : LevelActivity pins' s t :=
  ⟨h.fields, fun p hp => h.latchElsewhere p fun hm => hp (hs p hm), h.latchWf⟩

end LevelActivity

theorem levelActivity_rendezvous {s t : State} {u : Unit} (pins : List Nat) (h : rendezvous s = .ok u t) :
    LevelActivity pins s t := by
  have h' := rendezvous_ok h
  refine ⟨by rw [h'], fun p _ => by rw [h']; rfl, fun hw => by rw [h']; exact hw⟩

theorem mem_setMask {ls : List (Nat × Bool)} {p : Nat} : p ∈ setMask ls ↔ (p, true) ∈ ls := by
  simp [setMask]

theorem mem_clrMask {ls : List (Nat × Bool)} {p : Nat} : p ∈ clrMask ls ↔ (p, false) ∈ ls := by
  simp [clrMask]

theorem levelActivity_applyLevels (a b : List Nat) (s : State) (pins : List Nat) (ha : ∀ p ∈ a, p ∈ pins)
    (hb : ∀ p ∈ b, p ∈ pins) : LevelActivity pins s (applyLevels a b s) := by
  refine ⟨by rw [applyLevels_state], fun p hp => ?_, tableWf_applyLevels a b s⟩
  have h1 : p ∉ a := fun h => hp (ha p h)
  have h2 : p ∉ b := fun h => hp (hb p h)
  rw [latchOf_applyLevels a b s p fun h => h1 h.1, if_neg h2, if_neg h1]

theorem levelActivity_levelWrite {a b : List Nat} {s t : State} {u : Unit} (pins : List Nat) (ha : ∀ p ∈ a, p ∈ pins)
    (hb : ∀ p ∈ b, p ∈ pins) (h : levelWrite a b s = .ok u t) : LevelActivity pins s t := by
  obtain ⟨_, m, hm, ht⟩ := andThen_eq_ok.1 h
  cases ht
  exact (levelActivity_rendezvous pins hm).trans (levelActivity_applyLevels a b m pins ha hb)

theorem levelActivity_levelRead {p : Nat} {s t : State} {v : Bool} (pins : List Nat) (h : levelRead p s = .ok v t) :
    LevelActivity pins s t := by
  obtain ⟨_, m, hm, ht⟩ := andThen_eq_ok.1 h
  simp only [Res.ok.injEq] at ht
  rw [← ht.2]
  refine (levelActivity_rendezvous pins hm).trans ⟨?_, fun q _ => ?_, fun hw => ?_⟩
  · rw [lineLevel_state]
  · rw [lineLevel_state]; rfl
  · rw [lineLevel_state]; exact hw

theorem levelActivity_record (e : Event) (s : State) (pins : List Nat) : LevelActivity pins s (record e s) :=
  ⟨rfl, fun _ _ => rfl, id⟩

theorem levelActivity_waitDelay (s : State) (pins : List Nat) : LevelActivity pins s (waitDelay s) :=
  ⟨rfl, fun _ _ => rfl, id⟩

theorem needPin_eq_ok {x : Option Nat} {s t : State} {p : Nat} : needPin x s = .ok p t ↔ x = some p ∧ t = s := by
  cases x <;> simp [needPin, eq_comm]

/-- The pins of a flavour's outputs. -/
def drivenPins (f : Flavour) (s : State) : List Nat :=
  match f with
  | .jtag => (pinOf .tck s).toList ++ (pinOf .tms s).toList ++ (pinOf .tdi s).toList
  | .swd => (pinOf .swclk s).toList ++ (pinOf .swdio s).toList

/-- The pins of the reset lines. -/
def resetPins (s : State) : List Nat := (pinOf .trst s).toList ++ (pinOf .srst s).toList

theorem driveLevels_ok {f : Flavour} {clk tms data : Bool} {s t : State} {ls : List (Nat × Bool)}
    (h : driveLevels f clk tms data s = .ok ls t) :
    t = s ∧ ∀ e ∈ ls, e.1 ∈ drivenPins f s := by
  cases f with
  | jtag =>
    simp only [driveLevels, andThen_eq_ok, needPin_eq_ok] at h
    obtain ⟨c, _, ⟨hc, rfl⟩, m, _, ⟨hm, rfl⟩, d, _, ⟨hd, rfl⟩, h⟩ := h
    cases h
    simp [drivenPins, hc, hm, hd]
  | swd =>
    simp only [driveLevels, andThen_eq_ok, needPin_eq_ok] at h
    obtain ⟨c, _, ⟨hc, rfl⟩, d, _, ⟨hd, rfl⟩, h⟩ := h
    cases h
    simp [drivenPins, hc, hd]

theorem levelActivity_drive {f : Flavour} {clk tms data : Bool} {s t : State} {u : Unit}
    (h : drive f clk tms data s = .ok u t) : LevelActivity (drivenPins f s) s t := by
  unfold drive at h
  split at h
  · simp only [andThen_eq_ok] at h
    obtain ⟨ls, _, hl, _, m, hm, h⟩ := h
    obtain ⟨rfl, hls⟩ := driveLevels_ok hl
    cases h
    refine ((levelActivity_levelWrite _ (fun p hp => ?_) (fun p hp => ?_) hm).trans (levelActivity_record _ _ _)).trans
      (levelActivity_waitDelay _ _)
    · exact hls _ (mem_setMask.1 hp)
    · exact hls _ (mem_clrMask.1 hp)
  · cases h

theorem levelActivity_readLine {f : Flavour} {s t : State} {b : Bool} (pins : List Nat) (h : readLine f s = .ok b t) :
    LevelActivity pins s t := by
  unfold readLine at h
  split at h
  · simp only [andThen_eq_ok, needPin_eq_ok] at h
    obtain ⟨p, _, ⟨_, rfl⟩, v, m, hm, h⟩ := h
    cases h
    exact (levelActivity_levelRead pins hm).trans ⟨rfl, fun _ _ => rfl, id⟩
  · cases h

theorem levelActivity_driveReset {a b : Bool} {s t : State} {u : Unit} (h : driveReset a b s = .ok u t) :
    LevelActivity (resetPins s) s t := by
  unfold driveReset at h
  split at h
  · simp only [andThen_eq_ok] at h
    obtain ⟨_, m, hm, h⟩ := h
    cases h
    have hls : ∀ e ∈ resetLevels a b s, e.1 ∈ resetPins s := by
      intro e he
      simp only [resetLevels, List.mem_append, List.mem_map] at he
      simp only [resetPins, List.mem_append]
      rcases he with ⟨p, hp, rfl⟩ | ⟨p, hp, rfl⟩
      · exact .inl hp
      · exact .inr hp
    refine (levelActivity_levelWrite _ (fun p hp => ?_) (fun p hp => ?_) hm).trans (levelActivity_record _ _ _)
    · exact hls _ (mem_setMask.1 hp)
    · exact hls _ (mem_clrMask.1 hp)
  · cases h

theorem LevelActivity.drivenPins {pins : List Nat} {s t : State} (h : LevelActivity pins s t) (f : Flavour) :
    Machine.drivenPins f t = Machine.drivenPins f s := by
  cases f <;> simp [Machine.drivenPins, h.pinOf]

theorem LevelActivity.resetPins {pins : List Nat} {s t : State} (h : LevelActivity pins s t) :
    Machine.resetPins t = Machine.resetPins s := by
  simp [Machine.resetPins, h.pinOf]

theorem levelActivity_cycOut {b : Bool} {s t : State} {u : Unit} (h : cycOut b s = .ok u t) :
    LevelActivity (drivenPins .swd s) s t := by
  obtain ⟨_, m, hm, h⟩ := andThen_eq_ok.1 h
  have h1 := levelActivity_drive hm
  have h2 := levelActivity_drive h
  rw [h1.drivenPins] at h2
  exact h1.trans h2

theorem levelActivity_cycIn {b : Bool} {s t : State} (h : cycIn s = .ok b t) : LevelActivity (drivenPins .swd s) s t := by
  simp only [cycIn, andThen_eq_ok] at h
  obtain ⟨_, m, hm, v, n, hn, _, t', ht, h⟩ := h
  cases h
  have h1 := levelActivity_drive hm
  have h2 := levelActivity_readLine (drivenPins .swd s) hn
  have h3 := levelActivity_drive ht
  rw [h2.drivenPins, h1.drivenPins] at h3
  exact (h1.trans h2).trans h3

theorem levelActivity_swdOut {bs : List Bool} {s t : State} {u : Unit} (h : swdOut bs s = .ok u t) :
    LevelActivity (drivenPins .swd s) s t := by
  induction bs generalizing s with
  | nil => cases h; exact .refl _ _
  | cons b bs ih =>
    obtain ⟨_, m, hm, h⟩ := andThen_eq_ok.1 h
    have h1 := levelActivity_cycOut hm
    have h2 := ih h
    rw [h1.drivenPins] at h2
    exact h1.trans h2

theorem levelActivity_swdIn {n : Nat} {bs : List Bool} {s t : State} (h : swdIn n s = .ok bs t) :
    LevelActivity (drivenPins .swd s) s t := by
  induction n generalizing s bs with
  | zero => cases h; exact .refl _ _
  | succ n ih =>
    simp only [swdIn, andThen_eq_ok] at h
    obtain ⟨b, m, hm, bs', t', ht, h⟩ := h
    cases h
    have h1 := levelActivity_cycIn hm
    have h2 := ih ht
    rw [h1.drivenPins] at h2
    exact h1.trans h2

theorem levelActivity_idle {n : Nat} {s t : State} {u : Unit} (h : idle n s = .ok u t) :
    LevelActivity (drivenPins .swd s) s t := levelActivity_swdOut h

theorem levelActivity_turnaround {s t : State} {u : Unit} (h : turnaround s = .ok u t) :
    LevelActivity (drivenPins .swd s) s t := by
  obtain ⟨_, m, hm, h⟩ := andThen_eq_ok.1 h
  cases h
  exact levelActivity_swdIn hm

theorem levelActivity_runPrimitive {w : StreamWord} {bs : List Bool} {s t : State} (h : runPrimitive w s = .ok bs t) :
    LevelActivity (drivenPins .jtag s ++ resetPins s) s t := by
  cases w with
  | drive a b c =>
    obtain ⟨_, m, hm, h⟩ := andThen_eq_ok.1 h
    cases h
    exact (levelActivity_drive hm).mono fun p hp => by simp [hp]
  | read =>
    obtain ⟨_, m, hm, h⟩ := andThen_eq_ok.1 h
    cases h
    exact levelActivity_readLine _ hm
  | reset a b =>
    obtain ⟨_, m, hm, h⟩ := andThen_eq_ok.1 h
    cases h
    exact (levelActivity_driveReset hm).mono fun p hp => by simp [hp]
  | other w => cases h; exact .refl _ _

theorem levelActivity_runStream {ws : List StreamWord} {bs : List Bool} {s t : State} (h : runStream ws s = .ok bs t) :
    LevelActivity (drivenPins .jtag s ++ resetPins s) s t := by
  induction ws generalizing s bs with
  | nil => cases h; exact .refl _ _
  | cons w ws ih =>
    simp only [runStream, andThen_eq_ok] at h
    obtain ⟨b, m, hm, bs', t', ht, h⟩ := h
    cases h
    have h1 := levelActivity_runPrimitive hm
    have h2 := ih ht
    rw [h1.drivenPins, h1.resetPins] at h2
    exact h1.trans h2

/-! On a platform that reaches the pins directly. -/

/-- The SWD primitives run: the flavour is enabled, both pins are there, no co-processor is asked. -/
structure SwdReady (c d : Nat) (s : State) : Prop where
  enabled : enabled .swd s = true
  clk : pinOf .swclk s = some c
  dio : pinOf .swdio s = some d
  direct : s.cfg.impl = .direct
  decided : s.cfg.toDecided = Decided.spec

theorem LevelActivity.swdReady {pins : List Nat} {c d : Nat} {s t : State} (h : LevelActivity pins s t)
    (hs : SwdReady c d s) : SwdReady c d t :=
  ⟨(h.enabled _).trans hs.enabled, (h.pinOf _).trans hs.clk, (h.pinOf _).trans hs.dio, by rw [h.cfg]; exact hs.direct,
    by rw [h.cfg]; exact hs.decided⟩

/-- The turnaround is one cycle (spec/00_scope.md R2). -/
theorem SwdReady.trn {c d : Nat} {s : State} (h : SwdReady c d s) : s.cfg.trn = 1 := by rw [h.decided]; rfl

theorem SwdReady.drivenPins {c d : Nat} {s : State} (h : SwdReady c d s) : drivenPins .swd s = [c, d] := by
  simp [Machine.drivenPins, h.clk, h.dio]

/-- What a `DRIVE` of flavour SWD gives when it runs. -/
def afterDriveSwd (c d : Nat) (clk data : Bool) (s : State) : State :=
  waitDelay (record (.lv .swd clk none data)
    (applyLevels (setMask [(c, clk), (d, data)]) (clrMask [(c, clk), (d, data)]) s))

theorem drive_swd {c d : Nat} {s : State} (h : SwdReady c d s) (clk tms data : Bool) :
    drive .swd clk tms data s = .ok () (afterDriveSwd c d clk data s) := by
  simp [drive, h.enabled, driveLevels, h.clk, h.dio, needPin, levelWrite_direct _ _ h.direct, afterDriveSwd, tmsShown]

@[simp] theorem trace_afterDriveSwd (c d : Nat) (clk data : Bool) (s : State) :
    (afterDriveSwd c d clk data s).trace = s.trace ++ [.lv .swd clk none data] := by
  simp [afterDriveSwd]

@[simp] theorem lineSrc_afterDriveSwd (c d : Nat) (clk data : Bool) (s : State) :
    (afterDriveSwd c d clk data s).lineSrc = s.lineSrc := by
  simp [afterDriveSwd]

@[simp] theorem waited_afterDriveSwd (c d : Nat) (clk data : Bool) (s : State) :
    (afterDriveSwd c d clk data s).waited = s.waited + s.delay.toNat := by
  simp [afterDriveSwd]

theorem levelActivity_afterDriveSwd (c d : Nat) (clk data : Bool) (s : State) :
    LevelActivity [c, d] s (afterDriveSwd c d clk data s) := by
  refine ((levelActivity_applyLevels _ _ s [c, d] ?_ ?_).trans (levelActivity_record _ _ _)).trans
    (levelActivity_waitDelay _ _)
  all_goals
    intro p hp
    simp only [mem_setMask, mem_clrMask, List.mem_cons, Prod.mk.injEq, List.not_mem_nil, or_false] at hp ⊢
    rcases hp with ⟨h, _⟩ | ⟨h, _⟩
    · exact .inl h
    · exact .inr h

/-- A cycle that sends a bit. -/
theorem cycOut_swd {c d : Nat} {s : State} (h : SwdReady c d s) (b : Bool) :
    cycOut b s = .ok () (afterDriveSwd c d true b (afterDriveSwd c d false b s)) := by
  rw [cycOut, drive_swd h, andThen_ok, drive_swd ((levelActivity_afterDriveSwd c d false b s).swdReady h)]

/-- Bits sent in wire order: they always go out, two events and two waits a bit, no line is sampled and only the latches
of SWCLK and SWDIO move. -/
theorem swdOut_runs {c d : Nat} {s : State} (h : SwdReady c d s) (bs : List Bool) :
    ∃ t, swdOut bs s = .ok () t ∧ LevelActivity [c, d] s t ∧ t.trace = s.trace ++ outEvents bs ∧
      t.lineSrc = s.lineSrc ∧ t.rout = s.rout ∧ t.waited = s.waited + 2 * bs.length * s.delay.toNat := by
  induction bs generalizing s with
  | nil => exact ⟨s, rfl, .refl _ _, by simp [outEvents], rfl, rfl, by simp⟩
  | cons b bs ih =>
    let s1 := afterDriveSwd c d false b s
    have a1 : LevelActivity [c, d] s s1 := levelActivity_afterDriveSwd c d false b s
    let s2 := afterDriveSwd c d true b s1
    have a2 : LevelActivity [c, d] s1 s2 := levelActivity_afterDriveSwd c d true b s1
    obtain ⟨t, ht, ha, htr, hl, hr, hw⟩ := ih ((a1.trans a2).swdReady h)
    refine ⟨t, ?_, (a1.trans a2).trans ha, ?_, hl.trans (by simp [s1, s2]), hr.trans (by simp [s1, s2, afterDriveSwd]), ?_⟩
    · rw [swdOut, cycOut_swd h, andThen_ok]
      exact ht
    · rw [htr]; simp [s1, s2, outEvents]
    · rw [hw, (a1.trans a2).delay]
      simp only [s1, s2, waited_afterDriveSwd, List.length_cons, (levelActivity_afterDriveSwd c d false b s).delay]
      ring

/-- The last level sent on each line stays in its latch, when SWCLK and SWDIO are different pins: the clock high
(spec/41_bitdriver.md R112), the data line at the last bit. -/
theorem latchOf_afterDriveSwd {c d : Nat} (hcd : c ≠ d) (clk data : Bool) (s : State) :
    (afterDriveSwd c d clk data s).latchOf c = clk ∧ (afterDriveSwd c d clk data s).latchOf d = data := by
  have e : ∀ p, (afterDriveSwd c d clk data s).latchOf p =
      (applyLevels (setMask [(c, clk), (d, data)]) (clrMask [(c, clk), (d, data)]) s).latchOf p := fun p => by
    simp [afterDriveSwd, State.latchOf]
  constructor
  · rw [e, latchOf_applyLevels]
    · cases clk <;> cases data <;> simp [mem_setMask, mem_clrMask, hcd]
    · cases clk <;> cases data <;> simp [mem_setMask, mem_clrMask, hcd]
  · rw [e, latchOf_applyLevels]
    · cases clk <;> cases data <;> simp [mem_setMask, mem_clrMask, hcd.symm]
    · cases clk <;> cases data <;> simp [mem_setMask, mem_clrMask, hcd.symm]

/-- What a sample of SWDIO gives while it is no output. -/
def afterSample (s : State) : State :=
  setRout (bitWord (drawLine s).1) (record (.smp .swd (drawLine s).1) (drawLine s).2)

/-- A sample of SWDIO while it is no output. -/
theorem readLine_swd_draw {c d : Nat} {s : State} (h : SwdReady c d s) (hf : s.funcOf d ≠ .output) :
    readLine .swd s = .ok (drawLine s).1 (afterSample s) := by
  simp [readLine, h.enabled, sampledRole, h.dio, needPin, levelRead_direct _ h.direct, lineLevel_input hf, afterSample]

theorem length_drawn (n : Nat) (src : Source) : (drawn n src).length = n := by
  induction n generalizing src with
  | zero => rfl
  | succ n ih => simp [drawn, ih]

/-- Draws take the bits given, oldest first. -/
theorem drawn_given (bs rest : List Bool) (used : Nat) :
    drawn bs.length ⟨bs ++ rest, used⟩ = bs ∧ leftAfter bs.length ⟨bs ++ rest, used⟩ = ⟨rest, used⟩ := by
  induction bs with
  | nil => simp [drawn, leftAfter]
  | cons b bs ih => simpa [drawn, leftAfter, Source.draw] using ih

/-- `m` draws, then `n` draws. -/
theorem drawn_add (m n : Nat) (src : Source) : drawn (m + n) src = drawn m src ++ drawn n (leftAfter m src) := by
  induction m generalizing src with
  | zero => simp [drawn, leftAfter]
  | succ m ih => rw [Nat.succ_add]; simp [drawn, leftAfter, ih]

theorem leftAfter_add (m n : Nat) (src : Source) : leftAfter (m + n) src = leftAfter n (leftAfter m src) := by
  induction m generalizing src with
  | zero => simp [leftAfter]
  | succ m ih => rw [Nat.succ_add]; simp [leftAfter, ih]

/-- A cycle that takes a bit, while SWDIO is no output. -/
theorem cycIn_swd {c d : Nat} {s : State} (h : SwdReady c d s) (hf : s.funcOf d ≠ .output) :
    cycIn s = .ok (s.lineSrc.draw Config.freeLine).1
      (afterDriveSwd c d true false (afterSample (afterDriveSwd c d false false s))) := by
  have a1 := levelActivity_afterDriveSwd c d false false s
  have r1 := a1.swdReady h
  have f1 : (afterDriveSwd c d false false s).funcOf d ≠ .output := by simpa [State.funcOf, a1.func] using hf
  have h2 := readLine_swd_draw r1 f1
  have r2 := (levelActivity_readLine [c, d] h2).swdReady r1
  rw [cycIn, drive_swd h, andThen_ok, h2, andThen_ok, drive_swd r2, andThen_ok]
  simp [drawLine]

theorem levelActivity_afterSample (s : State) (pins : List Nat) : LevelActivity pins s (afterSample s) :=
  ⟨rfl, fun _ _ => rfl, id⟩

/-- Bits taken in wire order while SWDIO is no output: `n` draws, three events a bit. -/
theorem swdIn_runs {c d : Nat} {s : State} (h : SwdReady c d s) (hf : s.funcOf d ≠ .output) (n : Nat) :
    ∃ t, swdIn n s = .ok (drawn n s.lineSrc) t ∧ LevelActivity [c, d] s t ∧
      t.trace = s.trace ++ inEvents (drawn n s.lineSrc) ∧ t.lineSrc = leftAfter n s.lineSrc := by
  induction n generalizing s with
  | zero => exact ⟨s, rfl, .refl _ _, by simp [drawn, inEvents], rfl⟩
  | succ n ih =>
    have a1 := levelActivity_afterDriveSwd c d false false s
    have a2 := levelActivity_afterSample (afterDriveSwd c d false false s) [c, d]
    have a3 := levelActivity_afterDriveSwd c d true false (afterSample (afterDriveSwd c d false false s))
    have a := (a1.trans a2).trans a3
    obtain ⟨t, ht, ha, htr, hl⟩ := ih (a.swdReady h) (by simpa [State.funcOf, a.func] using hf)
    have hs : (afterDriveSwd c d true false (afterSample (afterDriveSwd c d false false s))).lineSrc =
        (s.lineSrc.draw Config.freeLine).2 := by
      simp [afterSample]
    rw [hs] at ht htr hl
    refine ⟨t, ?_, a.trans ha, ?_, hl⟩
    · rw [swdIn, cycIn_swd h hf, andThen_ok, ht]; rfl
    · rw [htr]; simp [drawn, inEvents, afterSample, drawLine]

end Sys2Proof.Machine
end

