-- ==== Sys2Proof/Laws/Swd.lean ====
section
/-! SUPPORT. What the frames of the SWD engine do on a platform that reaches the pins directly, for every sequence of draws. -/

namespace Sys2Proof.Machine

/-- What wire activity with turns of SWDIO, at pin `d`, leaves unchanged. -/
structure TurnActivity (pins : List Nat) (d : Nat) (s t : State) : Prop where
  fields : t = { s with
    latch := t.latch, func := t.func, trace := t.trace, waited := t.waited, rout := t.rout, lineSrc := t.lineSrc,
    coprocSrc := t.coprocSrc, levelDraws := t.levelDraws, swdioDir := t.swdioDir }
  latchElsewhere : ∀ p, p ∉ pins → t.latchOf p = s.latchOf p
  funcElsewhere : ∀ p, p ≠ d → t.funcOf p = s.funcOf p
  latchWf : tableWf false s.latch = true → tableWf false t.latch = true
  funcWf : tableWf .input s.func = true → tableWf .input t.func = true

namespace TurnActivity

variable {pins : List Nat} {d : Nat} {s t u : State}

theorem trans (h : TurnActivity pins d s t) (k : TurnActivity pins d t u) : TurnActivity pins d s u := by
  refine ⟨?_, fun p hp => (k.latchElsewhere p hp).trans (h.latchElsewhere p hp),
    fun p hp => (k.funcElsewhere p hp).trans (h.funcElsewhere p hp), fun hw => k.latchWf (h.latchWf hw),
    fun hw => k.funcWf (h.funcWf hw)⟩
  have hk := k.fields
  rw [h.fields] at hk
  exact hk

theorem refl (pins : List Nat) (d : Nat) (s : State) : TurnActivity pins d s s :=
  ⟨rfl, fun _ _ => rfl, fun _ _ => rfl, id, id⟩

theorem cfg (h : TurnActivity pins d s t) : t.cfg = s.cfg := by rw [h.fields]
theorem pincfg (h : TurnActivity pins d s t) : t.pincfg = s.pincfg := by rw [h.fields]
theorem session (h : TurnActivity pins d s t) : t.session = s.session := by rw [h.fields]
theorem tmode (h : TurnActivity pins d s t) : t.tmode = s.tmode := by rw [h.fields]
theorem claimed (h : TurnActivity pins d s t) : t.claimed = s.claimed := by rw [h.fields]
theorem saved (h : TurnActivity pins d s t) : t.saved = s.saved := by rw [h.fields]
theorem qcode (h : TurnActivity pins d s t) : t.qcode = s.qcode := by rw [h.fields]
theorem batchOpen (h : TurnActivity pins d s t) : t.batchOpen = s.batchOpen := by rw [h.fields]
theorem rdata (h : TurnActivity pins d s t) : t.rdata = s.rdata := by rw [h.fields]
theorem rpar (h : TurnActivity pins d s t) : t.rpar = s.rpar := by rw [h.fields]
theorem apDelay (h : TurnActivity pins d s t) : t.apDelay = s.apDelay := by rw [h.fields]
theorem isClaimed (h : TurnActivity pins d s t) (p : Nat) : t.isClaimed p = s.isClaimed p := by
  simp [State.isClaimed, h.claimed]

theorem swdReady {c : Nat} (h : TurnActivity pins d s t) (hs : SwdReady c d s) : SwdReady c d t where
  enabled := by rw [← hs.enabled]; simp [Machine.enabled, h.session, h.tmode]
  clk := (pinOf_congr _ h.cfg h.pincfg).trans hs.clk
  dio := (pinOf_congr _ h.cfg h.pincfg).trans hs.dio
  direct := by rw [h.cfg]; exact hs.direct
  decided := by rw [h.cfg]; exact hs.decided

end TurnActivity

theorem LevelActivity.turn {pins : List Nat} {s t : State} (h : LevelActivity pins s t) (d : Nat) :
    TurnActivity pins d s t where
  fields := by rw [h.fields]
  latchElsewhere := h.latchElsewhere
  funcElsewhere := fun p _ => by simp [State.funcOf, h.func]
  latchWf := h.latchWf
  funcWf := fun hw => by rw [h.func]; exact hw

/-- A turn of SWDIO, at pin `d`. -/
def turned (m : PinMode) (dir : Dir) (d : Nat) (s : State) : State :=
  record (.dir dir) (setDir dir (funcWrite d m s))

theorem turnActivity_turned (m : PinMode) (dir : Dir) (d : Nat) (s : State) (pins : List Nat) :
    TurnActivity pins d s (turned m dir d s) where
  fields := rfl
  latchElsewhere := fun _ _ => rfl
  funcElsewhere := fun p hp => by
    have : (turned m dir d s).funcOf p = (funcWrite d m s).funcOf p := rfl
    rw [this, funcOf_funcWrite, if_neg hp]
  latchWf := id
  funcWf := fun hw => by simpa [turned] using tableWf_write d m hw

theorem funcOf_turned (m : PinMode) (dir : Dir) (d : Nat) (s : State) : (turned m dir d s).funcOf d = m := by
  have : (turned m dir d s).funcOf d = (funcWrite d m s).funcOf d := rfl
  rw [this, funcOf_funcWrite, if_pos rfl]

@[simp] theorem trace_turned (m : PinMode) (dir : Dir) (d : Nat) (s : State) :
    (turned m dir d s).trace = s.trace ++ [.fn d m, .dir dir] := by simp [turned]
@[simp] theorem lineSrc_turned (m : PinMode) (dir : Dir) (d : Nat) (s : State) :
    (turned m dir d s).lineSrc = s.lineSrc := by simp [turned]
@[simp] theorem swdioDir_turned (m : PinMode) (dir : Dir) (d : Nat) (s : State) :
    (turned m dir d s).swdioDir = dir := by simp [turned]

theorem driveDirection_in {c d : Nat} {s : State} (h : SwdReady c d s) (hc : s.isClaimed d = true) :
    driveDirection false s = .ok () (turned .input .inp d s) := by
  simp [driveDirection, h.enabled, claimIn, h.dio, needPin, claimPin_direct _ _ h.direct, saveOnce_claimed hc, turned]

theorem driveDirection_out {c d : Nat} {s : State} (h : SwdReady c d s) (hc : s.isClaimed d = true) :
    driveDirection true s = .ok () (turned .output .out d s) := by
  simp [driveDirection, h.enabled, claimOut, h.dio, needPin, claimPin_direct _ _ h.direct, saveOnce_claimed hc, turned]

theorem inEvents_append (a b : List Bool) : inEvents (a ++ b) = inEvents a ++ inEvents b := by simp [inEvents]

theorem outEvents_append (a b : List Bool) : outEvents (a ++ b) = outEvents a ++ outEvents b := by simp [outEvents]

/-- The first part of both frames. -/
theorem requestAndAck_runs {c d : Nat} {s : State} (h : SwdReady c d s) (hc : s.isClaimed d = true) (hdr : Byte) :
    ∃ t, requestAndAck hdr s = .ok (drawnAck s.lineSrc) t ∧ TurnActivity [c, d] d s t ∧ t.funcOf d = .input ∧
      t.trace = s.trace ++ (outEvents (wireBits hdr) ++ toInput d ++ inEvents (drawn 4 s.lineSrc)) ∧
      t.lineSrc = leftAfter 4 s.lineSrc := by
  obtain ⟨s1, e1, a1, tr1, l1, -, -⟩ := swdOut_runs h (wireBits hdr)
  have r1 := a1.swdReady h
  have c1 : s1.isClaimed d = true := by simpa [State.isClaimed, a1.claimed] using hc
  have b2 := turnActivity_turned .input .inp d s1 [c, d]
  have r2 := b2.swdReady r1
  have f2 := funcOf_turned .input .inp d s1
  obtain ⟨s3, e3, a3, tr3, l3⟩ := swdIn_runs r2 (by simp [f2]) 1
  have f3 : s3.funcOf d = .input := by rw [← f2]; simp [State.funcOf, a3.func]
  obtain ⟨s4, e4, a4, tr4, l4⟩ := swdIn_runs (a3.swdReady r2) (by simp [f3]) 3
  simp only [lineSrc_turned, l1] at l3 tr3 e3
  rw [l3] at l4 tr4 e4
  refine ⟨s4, ?_, (((a1.turn d).trans b2).trans (a3.turn d)).trans (a4.turn d), ?_, ?_, ?_⟩
  · simp only [requestAndAck, sendRequest, e1, andThen_ok, driveDirection_in r1 c1, turnaround, r2.trn, e3, e4]
    rfl
  · rw [← f3]; simp [State.funcOf, a4.func]
  · rw [tr4, tr3, trace_turned, tr1]
    have : drawn 4 s.lineSrc = drawn 1 s.lineSrc ++ drawn 3 (leftAfter 1 s.lineSrc) := drawn_add 1 3 _
    rw [this, inEvents_append]
    simp [toInput]
  · rw [l4]; exact (leftAfter_add 1 3 s.lineSrc).symm

/-- The end of both frames. -/
theorem turnBack_runs {c d : Nat} {s : State} (h : SwdReady c d s) (hc : s.isClaimed d = true)
    (hf : s.funcOf d ≠ .output) :
    ∃ t, turnBack s = .ok () t ∧ TurnActivity [c, d] d s t ∧ t.funcOf d = .output ∧ t.swdioDir = .out ∧
      t.trace = s.trace ++ (inEvents (drawn 1 s.lineSrc) ++ toOutput d) ∧ t.lineSrc = leftAfter 1 s.lineSrc := by
  obtain ⟨s1, e1, a1, tr1, l1⟩ := swdIn_runs h hf 1
  have c1 : s1.isClaimed d = true := by simpa [State.isClaimed, a1.claimed] using hc
  refine ⟨turned .output .out d s1, ?_, (a1.turn d).trans (turnActivity_turned _ _ _ _ _), funcOf_turned _ _ _ _,
    swdioDir_turned _ _ _ _, ?_, ?_⟩
  · simp only [turnBack, turnaround, h.trn, e1, andThen_ok, driveDirection_out (a1.swdReady h) c1]
  · rw [trace_turned, tr1]; simp [toOutput]
  · rw [lineSrc_turned, l1]

/-- The data phase of a write. -/
theorem sendData_runs {c d : Nat} {s : State} (h : SwdReady c d s) (v : Word) (p : Bool) :
    ∃ t, sendData v p s = .ok () t ∧ LevelActivity [c, d] s t ∧ t.trace = s.trace ++ outEvents (wireBits v ++ [p]) ∧
      t.lineSrc = s.lineSrc := by
  obtain ⟨s1, e1, a1, tr1, l1, -, -⟩ := swdOut_runs h (wireBits v)
  obtain ⟨s2, e2, a2, tr2, l2, -, -⟩ := swdOut_runs (a1.swdReady h) [p]
  refine ⟨s2, ?_, a1.trans a2, ?_, l2.trans l1⟩
  · rw [sendData, e1, andThen_ok, ← e2]
    simp only [swdOut]
    cases cycOut p s1 <;> rfl
  · rw [tr2, tr1, outEvents_append, List.append_assoc]

/-- The idle cycles after an access-port transaction that latched nothing (spec/43_swd_engine.md R144). -/
def settleBits (hdr : Byte) (s : State) : List Bool :=
  if hdr.getLsbD 1 && s.qcode = .ok then List.replicate s.apDelay false else []

theorem settle_runs {c d : Nat} {s : State} (h : SwdReady c d s) (hdr : Byte) :
    ∃ t, settle hdr s = .ok () t ∧ LevelActivity [c, d] s t ∧ t.trace = s.trace ++ outEvents (settleBits hdr s) ∧
      t.lineSrc = s.lineSrc := by
  by_cases hh : (hdr.getLsbD 1 && decide (s.qcode = .ok)) = true
  · obtain ⟨t, e, a, tr, l, -, -⟩ := swdOut_runs h (List.replicate s.apDelay false)
    exact ⟨t, by rw [settle, if_pos hh, idle, e], a, by rw [tr, settleBits, if_pos hh], l⟩
  · exact ⟨s, by rw [settle, if_neg hh], .refl _ _, by rw [settleBits, if_neg hh]; simp [outEvents], rfl⟩

/-- The frame of a write: for every draw it completes, and what it sends and latches follows from the ACK drawn
(spec/43_swd_engine.md R134, R135, R138, R144). -/
theorem writeFrame_runs {c d : Nat} {s : State} (h : SwdReady c d s) (hc : s.isClaimed d = true) (hdr : Byte)
    (v : Word) :
    ∃ m t, writeFrame hdr v s = .ok () t ∧ TurnActivity [c, d] d s m ∧ t = applyAck (drawnAck s.lineSrc) m ∧
      t.funcOf d = .output ∧ t.swdioDir = .out ∧ t.lineSrc = leftAfter 5 s.lineSrc ∧
      t.trace = s.trace ++ (outEvents (wireBits hdr) ++ toInput d ++ inEvents (drawn 5 s.lineSrc) ++ toOutput d ++
        if decodeAck Decided.spec (drawnAck s.lineSrc) = .ok then outEvents (wireBits v ++ [parityOdd v] ++ settleBits hdr s) else []) := by
  obtain ⟨s1, e1, a1, f1, tr1, l1⟩ := requestAndAck_runs h hc hdr
  have r1 := a1.swdReady h
  obtain ⟨s2, e2, a2, f2, d2, tr2, l2⟩ := turnBack_runs r1 ((a1.isClaimed d).trans hc) (by simp [f1])
  have r2 := a2.swdReady r1
  have l12 : s2.lineSrc = leftAfter 5 s.lineSrc := by rw [l2, l1]; exact (leftAfter_add 4 1 s.lineSrc).symm
  have tr12 : s2.trace = s.trace ++ (outEvents (wireBits hdr) ++ toInput d ++ inEvents (drawn 5 s.lineSrc) ++ toOutput d) := by
    have : drawn 5 s.lineSrc = drawn 4 s.lineSrc ++ drawn 1 (leftAfter 4 s.lineSrc) := drawn_add 4 1 _
    rw [tr2, tr1, l1, this, inEvents_append]
    simp
  by_cases hk : decodeAck Decided.spec (drawnAck s.lineSrc) = .ok
  · obtain ⟨s3, e3, a3, tr3, l3⟩ := sendData_runs r2 v (parityOdd v)
    obtain ⟨s4, e4, a4, tr4, l4⟩ := settle_runs (a3.swdReady r2) hdr
    have hsb : settleBits hdr s3 = settleBits hdr s := by
      simp [settleBits, a3.qcode, a3.apDelay, a2.qcode, a2.apDelay, a1.qcode, a1.apDelay]
    refine ⟨s4, s4, ?_, (a1.trans a2).trans ((a3.trans a4).turn d), ?_, ?_, ?_, ?_, ?_⟩
    · simp only [writeFrame, e1, andThen_ok, e2, r2.decided, hk, ↓reduceIte, e3, e4]
    · have hd : s4.cfg.toDecided = Decided.spec := by rw [(a3.trans a4).cfg]; exact r2.decided
      simp only [applyAck, hd, hk, codeOfAck, latchFault]
      split
      · next hq => rw [← hq]
      · rfl
    · rw [← f2]; simp [State.funcOf, (a3.trans a4).func]
    · rw [(a3.trans a4).swdioDir, d2]
    · rw [l4, l3, l12]
    · rw [tr4, tr3, tr12, hsb, if_pos hk, outEvents_append (wireBits v ++ [parityOdd v])]
      simp
  · refine ⟨s2, applyAck (drawnAck s.lineSrc) s2, ?_, a1.trans a2, rfl, ?_, ?_, ?_, ?_⟩
    · simp only [writeFrame, e1, andThen_ok, e2, r2.decided, hk, ↓reduceIte]
    · rw [← f2]; simp [State.funcOf]
    · simp [d2]
    · simp [l12]
    · simp [tr12, hk]

theorem receiveData_runs {c d : Nat} {s : State} (h : SwdReady c d s) (hf : s.funcOf d ≠ .output) :
    ∃ t, receiveData s = .ok (valueOfBits 32 (drawn 32 s.lineSrc), ((leftAfter 32 s.lineSrc).draw Config.freeLine).1) t ∧
      LevelActivity [c, d] s t ∧ t.trace = s.trace ++ inEvents (drawn 33 s.lineSrc) ∧
      t.lineSrc = leftAfter 33 s.lineSrc := by
  obtain ⟨s1, e1, a1, tr1, l1⟩ := swdIn_runs h hf 32
  have f1 : s1.funcOf d ≠ .output := by simpa [State.funcOf, a1.func] using hf
  obtain ⟨s2, e2, a2, tr2, l2⟩ := swdIn_runs (a1.swdReady h) f1 1
  rw [l1] at e2 tr2 l2
  refine ⟨s2, ?_, a1.trans a2, ?_, ?_⟩
  · have e2' : cycIn s1 = .ok ((leftAfter 32 s.lineSrc).draw Config.freeLine).1 s2 := by
      simp only [swdIn, andThen_eq_ok] at e2
      obtain ⟨b, m, hb, bs, m', hm, e⟩ := e2
      cases hm
      simp only [drawn, Res.ok.injEq, List.cons.injEq, and_true] at e
      rw [hb, e.1, e.2]
    simp only [receiveData, e1, andThen_ok, e2']
  · have : drawn 33 s.lineSrc = drawn 32 s.lineSrc ++ drawn 1 (leftAfter 32 s.lineSrc) := drawn_add 32 1 _
    rw [tr2, tr1, this, inEvents_append]
    simp
  · rw [l2]; exact (leftAfter_add 32 1 s.lineSrc).symm

/-- The frame of a read with an OK ACK (spec/43_swd_engine.md R134, R141 to R144). -/
theorem readFrame_ok_runs {c d : Nat} {s : State} (h : SwdReady c d s) (hc : s.isClaimed d = true) (hdr : Byte)
    (hk : decodeAck Decided.spec (drawnAck s.lineSrc) = .ok) :
    ∃ m t, readFrame hdr s = .ok () t ∧ TurnActivity [c, d] d s m ∧
      t = acceptData (drawnData s.lineSrc) (drawnParity s.lineSrc) m ∧
      t.funcOf d = .output ∧ t.swdioDir = .out ∧ t.lineSrc = leftAfter 38 s.lineSrc ∧
      t.trace = s.trace ++ (outEvents (wireBits hdr) ++ toInput d ++ inEvents (drawn 38 s.lineSrc) ++ toOutput d ++
        outEvents (settleBits hdr (acceptData (drawnData s.lineSrc) (drawnParity s.lineSrc) s))) := by
  obtain ⟨s1, e1, a1, f1, tr1, l1⟩ := requestAndAck_runs h hc hdr
  have r1 := a1.swdReady h
  obtain ⟨s2, e2, a2, tr2, l2⟩ := receiveData_runs r1 (by simp [f1])
  have f2 : s2.funcOf d = .input := by rw [← f1]; simp [State.funcOf, a2.func]
  have c2 : s2.isClaimed d = true := by rw [← hc, ← a1.isClaimed]; simp [State.isClaimed, a2.claimed]
  have r2 := a2.swdReady r1
  obtain ⟨s3, e3, a3, f3, d3, tr3, l3⟩ := turnBack_runs r2 c2 (by simp [f2])
  have r3 := a3.swdReady r2
  have h36 : leftAfter 36 s.lineSrc = leftAfter 32 (leftAfter 4 s.lineSrc) := leftAfter_add 4 32 _
  rw [l1, ← h36] at e2
  have l37 : s2.lineSrc = leftAfter 37 s.lineSrc := by rw [l2, l1]; exact (leftAfter_add 4 33 _).symm
  have l38 : s3.lineSrc = leftAfter 38 s.lineSrc := by rw [l3, l37]; exact (leftAfter_add 37 1 _).symm
  have tr38 : s3.trace = s.trace ++ (outEvents (wireBits hdr) ++ toInput d ++ inEvents (drawn 38 s.lineSrc) ++ toOutput d) := by
    have e37 : drawn 38 s.lineSrc = drawn 37 s.lineSrc ++ drawn 1 (leftAfter 37 s.lineSrc) := drawn_add 37 1 _
    have e4 : drawn 37 s.lineSrc = drawn 4 s.lineSrc ++ drawn 33 (leftAfter 4 s.lineSrc) := drawn_add 4 33 _
    rw [tr3, tr2, tr1, l37, l1, e37, e4, inEvents_append, inEvents_append]
    simp
  have r3' : SwdReady c d (acceptData (drawnData s.lineSrc) (drawnParity s.lineSrc) s3) :=
    ⟨by rw [← r3.enabled]; simp [enabled], by rw [← r3.clk]; exact pinOf_congr _ (by simp) (by simp),
      by rw [← r3.dio]; exact pinOf_congr _ (by simp) (by simp), by simpa using r3.direct,
      by simpa using r3.decided⟩
  obtain ⟨s4, e4, a4, tr4, l4⟩ := settle_runs r3' hdr
  have hq3 : s3.qcode = s.qcode := by rw [a3.qcode, a2.qcode, a1.qcode]
  have hsb : settleBits hdr (acceptData (drawnData s.lineSrc) (drawnParity s.lineSrc) s3) =
      settleBits hdr (acceptData (drawnData s.lineSrc) (drawnParity s.lineSrc) s) := by
    have : (acceptData (drawnData s.lineSrc) (drawnParity s.lineSrc) s3).qcode =
        (acceptData (drawnData s.lineSrc) (drawnParity s.lineSrc) s).qcode := by
      simp only [acceptData, latchFault, hq3]; split
      · exact hq3
      · split <;> simp_all
    simp [settleBits, this, a3.apDelay, a2.apDelay, a1.apDelay]
  refine ⟨{ s4 with rdata := s3.rdata, rpar := s3.rpar, qcode := s3.qcode }, s4, ?_, ?_, ?_, ?_, ?_, ?_, ?_⟩
  · simp only [readFrame, e1, andThen_ok, r1.decided, hk, ↓reduceIte, e2, e3]
    exact e4
  · have b := (a1.trans (a2.turn d)).trans a3
    refine b.trans ⟨?_, fun p hp => ?_, fun p _ => ?_, fun hw => ?_, fun hw => ?_⟩
    · rw [a4.fields]; simp
    · have := a4.latchElsewhere p hp
      simpa [State.latchOf] using this
    · simp [State.funcOf, a4.func]
    · exact a4.latchWf (by simpa using hw)
    · simpa [a4.func] using hw
  · have h4 := a4.fields
    rw [h4]
    simp only [acceptData, latchFault]
    by_cases hq : s3.qcode = .ok
    · simp only [hq]
      by_cases hp : drawnParity s.lineSrc = parityOdd (drawnData s.lineSrc)
      · simp [hp]
      · simp [hp]
    · simp [hq]
  · rw [← f3]; simp [State.funcOf, a4.func]
  · rw [a4.swdioDir]; simpa using d3
  · rw [l4]; simpa using l38
  · rw [tr4, hsb]; simp [tr38]

/-- The frame of a read whose ACK is not OK (spec/43_swd_engine.md R134, R136, R141). -/
theorem readFrame_bad_runs {c d : Nat} {s : State} (h : SwdReady c d s) (hc : s.isClaimed d = true) (hdr : Byte)
    (hk : decodeAck Decided.spec (drawnAck s.lineSrc) ≠ .ok) :
    ∃ m t, readFrame hdr s = .ok () t ∧ TurnActivity [c, d] d s m ∧ t = applyAck (drawnAck s.lineSrc) m ∧
      t.funcOf d = .output ∧ t.swdioDir = .out ∧ t.lineSrc = leftAfter 5 s.lineSrc ∧
      t.trace = s.trace ++ (outEvents (wireBits hdr) ++ toInput d ++ inEvents (drawn 5 s.lineSrc) ++ toOutput d) := by
  obtain ⟨s1, e1, a1, f1, tr1, l1⟩ := requestAndAck_runs h hc hdr
  obtain ⟨s2, e2, a2, f2, d2, tr2, l2⟩ := turnBack_runs (a1.swdReady h) ((a1.isClaimed d).trans hc) (by simp [f1])
  have l12 : s2.lineSrc = leftAfter 5 s.lineSrc := by rw [l2, l1]; exact (leftAfter_add 4 1 s.lineSrc).symm
  refine ⟨s2, applyAck (drawnAck s.lineSrc) s2, ?_, a1.trans a2, rfl, ?_, ?_, ?_, ?_⟩
  · simp only [readFrame, e1, andThen_ok, e2, (a1.swdReady h).decided, hk, ↓reduceIte]
  · rw [← f2]; simp [State.funcOf]
  · simp [d2]
  · simp [l12]
  · have : drawn 5 s.lineSrc = drawn 4 s.lineSrc ++ drawn 1 (leftAfter 4 s.lineSrc) := drawn_add 4 1 _
    simp only [applyAck_trace]
    rw [tr2, tr1, l1, this, inEvents_append]
    simp

end Sys2Proof.Machine
end

