-- ==== Sys2Proof/Laws/Coproc.lean ====
section
/-! SUPPORT. The co-processor against direct access (spec/60_exceptions.md R211, R212): each part of an operation makes some
number of requests, does the same thing both ways when they are answered, and hangs at the first that is not. -/

namespace Sys2Proof.Machine

variable {α β : Type}

/-- The same state with the pins reached the way `m` says and the answers `x` to come. -/
def reached (m : Impl) (x : Source) (s : State) : State := { s with cfg := { s.cfg with impl := m }, coprocSrc := x }

/-- The answers left after `k` requests, when all of them are answered. -/
def answered : Nat → Source → Option Source
  | 0, x => some x
  | k + 1, x => if (x.draw Config.freeCoproc).1 then answered k (x.draw Config.freeCoproc).2 else none

theorem answered_add (k l : Nat) (x : Source) : answered (k + l) x = (answered k x).bind (answered l) := by
  induction k generalizing x with
  | zero => simp [answered]
  | succ k ih =>
    rw [Nat.succ_add]
    simp only [answered]
    split
    · exact ih _
    · rfl

/-- As many answers as requests are enough. -/
theorem answered_replicate (k n : Nat) :
    answered k ⟨List.replicate (k + n) true, 0⟩ = some ⟨List.replicate n true, 0⟩ := by
  induction k with
  | zero => simp [answered]
  | succ k ih =>
    have : k + 1 + n = (k + n) + 1 := by omega
    simp [answered, this, List.replicate_succ, Source.draw, ih]

/-- The answers left when one of `k` requests is not answered. -/
def leftAtHang : Nat → Source → Source
  | 0, x => x
  | k + 1, x => if (x.draw Config.freeCoproc).1 then leftAtHang k (x.draw Config.freeCoproc).2
    else (x.draw Config.freeCoproc).2

/-- The request that is not answered is among the first ones. -/
theorem leftAtHang_first (k l : Nat) {x : Source} (h : answered k x = none) : leftAtHang (k + l) x = leftAtHang k x := by
  induction k generalizing x with
  | zero => simp [answered] at h
  | succ k ih =>
    rw [Nat.succ_add]
    simp only [answered, leftAtHang] at h ⊢
    split
    · next h' => exact ih (by simpa [h'] using h)
    · rfl

/-- The request that is not answered comes after the first ones. -/
theorem leftAtHang_later (k l : Nat) {x y : Source} (h : answered k x = some y) :
    leftAtHang (k + l) x = leftAtHang l y := by
  induction k generalizing x with
  | zero => cases h; simp
  | succ k ih =>
    rw [Nat.succ_add]
    simp only [answered, leftAtHang] at h ⊢
    split
    · next h' => exact ih (by simpa [h'] using h)
    · next h' => simp [h'] at h

/-- An answer that comes too early to be the last one leaves a request unanswered. -/
theorem answered_silent {k n : Nat} (hk : k < n) (rest : List Bool) (used : Nat) :
    answered n ⟨List.replicate k true ++ false :: rest, used⟩ = none ∧
      leftAtHang n ⟨List.replicate k true ++ false :: rest, used⟩ = ⟨rest, used⟩ := by
  induction n generalizing k with
  | zero => omega
  | succ n ih =>
    cases k with
    | zero => simp [answered, leftAtHang, Source.draw]
    | succ k => simpa [answered, leftAtHang, Source.draw, List.replicate_succ] using ih (k := k) (by omega)

/-- A part of an operation that ends with `a` in `t` after `k` requests; where one of them is not answered it hangs, with
a part of the history that it leaves when it completes. -/
structure CompletesAfter (f : State → Res α) (s : State) (k : Nat) (a : α) (t : State) : Prop where
  direct : ∀ x, f (reached .direct x s) = .ok a (reached .direct x t)
  answers : ∀ x y, answered k x = some y → f (reached .coproc x s) = .ok a (reached .coproc y t)
  silent : ∀ x, answered k x = none → ∃ h, f (reached .coproc x s) = .stuck h ∧ h.coprocSrc = leftAtHang k x ∧
    s.trace <+: h.trace ∧ h.trace <+: t.trace
  grows : s.trace <+: t.trace

/-- A part of an operation that is refused after `k` requests. -/
structure RefusesAfter (f : State → Res α) (s : State) (k : Nat) (e : Refusal) : Prop where
  direct : ∀ x, f (reached .direct x s) = .refused e
  answers : ∀ x y, answered k x = some y → f (reached .coproc x s) = .refused e
  silent : ∀ x, answered k x = none → ∃ h, f (reached .coproc x s) = .stuck h

/-- What every part of an operation is: it completes or is refused after a number of requests that does not depend on
the answers. -/
def Uniform (f : State → Res α) : Prop :=
  ∀ s, (∃ k a t, CompletesAfter f s k a t) ∨ ∃ k e, RefusesAfter f s k e

theorem Uniform.andThen {f : State → Res α} {g : α → State → Res β} (hf : Uniform f) (hg : ∀ a, Uniform (g a)) :
    Uniform fun s => (f s).andThen g := by
  intro s
  rcases hf s with ⟨k, a, m, h⟩ | ⟨k, e, h⟩
  · rcases hg a m with ⟨l, b, t, h'⟩ | ⟨l, e, h'⟩
    · refine .inl ⟨k + l, b, t, ⟨fun x => ?_, fun x y hy => ?_, fun x hx => ?_, h.grows.trans h'.grows⟩⟩
      · simp [h.direct, h'.direct]
      · rw [answered_add, Option.bind_eq_some_iff] at hy
        obtain ⟨z, hz, hy⟩ := hy
        simp [h.answers x z hz, h'.answers z y hy]
      · rw [answered_add] at hx
        cases hz : answered k x with
        | none =>
          obtain ⟨u, hu, hl, p, q⟩ := h.silent x hz
          exact ⟨u, by simp [hu], by rw [hl, leftAtHang_first k l hz], p, q.trans h'.grows⟩
        | some z =>
          rw [hz] at hx
          obtain ⟨u, hu, hl, p, q⟩ := h'.silent z hx
          exact ⟨u, by simp [h.answers x z hz, hu], by rw [hl, leftAtHang_later k l hz], h.grows.trans p, q⟩
    · refine .inr ⟨k + l, e, ⟨fun x => ?_, fun x y hy => ?_, fun x hx => ?_⟩⟩
      · simp [h.direct, h'.direct]
      · rw [answered_add, Option.bind_eq_some_iff] at hy
        obtain ⟨z, hz, hy⟩ := hy
        simp [h.answers x z hz, h'.answers z y hy]
      · rw [answered_add] at hx
        cases hz : answered k x with
        | none => obtain ⟨u, hu, -⟩ := h.silent x hz; exact ⟨u, by simp [hu]⟩
        | some z =>
          rw [hz] at hx
          obtain ⟨u, hu⟩ := h'.silent z hx
          exact ⟨u, by simp [h.answers x z hz, hu]⟩
  · refine .inr ⟨k, e, ⟨fun x => ?_, fun x y hy => ?_, fun x hx => ?_⟩⟩
    · simp [h.direct]
    · simp [h.answers x y hy]
    · obtain ⟨u, hu⟩ := h.silent x hx; exact ⟨u, by simp [hu]⟩

/-- A part that makes no request and does not ask how the pins are reached. -/
theorem uniform_ok {v : State → α} {f : State → State} (hv : ∀ m x s, v (reached m x s) = v s)
    (hf : ∀ m x s, f (reached m x s) = reached m x (f s))
    (hg : ∀ s, s.trace <+: (f s).trace := by first | exact fun _ => List.prefix_rfl | exact fun _ => List.prefix_append _ _) :
    Uniform fun s => .ok (v s) (f s) := fun s =>
  .inl ⟨0, v s, f s, ⟨fun x => by simp only [hv, hf], fun x y h => by cases h; simp only [hv, hf], fun x h => (by cases h),
    hg s⟩⟩

theorem uniform_refused (e : Refusal) : Uniform fun _ => (.refused e : Res α) := fun _ =>
  .inr ⟨0, e, ⟨fun _ => rfl, fun _ _ _ => rfl, fun x h => by cases h⟩⟩

/-- A part that does in every run what another one does, from this state, is as uniform as it. -/
theorem uniform_of_eq {f g : State → Res α} {s : State} (h : ∀ m x, f (reached m x s) = g (reached m x s))
    (hg : (∃ k a t, CompletesAfter g s k a t) ∨ ∃ k e, RefusesAfter g s k e) :
    (∃ k a t, CompletesAfter f s k a t) ∨ ∃ k e, RefusesAfter f s k e := by
  rcases hg with ⟨k, a, t, h'⟩ | ⟨k, e, h'⟩
  · exact .inl ⟨k, a, t, ⟨fun x => by rw [h, h'.direct], fun x y hy => by rw [h, h'.answers x y hy],
      fun x hx => by rw [h]; exact h'.silent x hx, h'.grows⟩⟩
  · exact .inr ⟨k, e, ⟨fun x => by rw [h, h'.direct], fun x y hy => by rw [h, h'.answers x y hy],
      fun x hx => by rw [h]; exact h'.silent x hx⟩⟩

/-- A choice that does not depend on how the pins are reached. -/
theorem Uniform.ite {c : State → Prop} [DecidablePred c] {f g : State → Res α} (hc : ∀ m x s, c (reached m x s) ↔ c s)
    (hf : Uniform f) (hg : Uniform g) : Uniform fun s => if c s then f s else g s := by
  intro s
  by_cases h : c s
  · exact uniform_of_eq (fun m x => if_pos ((hc m x s).2 h)) (hf s)
  · exact uniform_of_eq (fun m x => if_neg fun h' => h ((hc m x s).1 h')) (hg s)

/-- A part whose own argument is read from the state, the same both ways. -/
theorem Uniform.read {γ : Type} {v : State → γ} {f : γ → State → Res α} (hv : ∀ m x s, v (reached m x s) = v s)
    (hf : ∀ c, Uniform (f c)) : Uniform fun s => f (v s) s := fun s =>
  uniform_of_eq (fun m x => by simp only [hv]) (hf (v s) s)

/-- A part run in a state changed first, the same change both ways. -/
theorem Uniform.after {f : State → Res α} {g : State → State} (hg : ∀ m x s, g (reached m x s) = reached m x (g s))
    (ht : ∀ s, s.trace = (g s).trace) (hf : Uniform f) : Uniform fun s => f (g s) := by
  intro s
  rcases hf (g s) with ⟨k, a, t, h⟩ | ⟨k, e, h⟩
  · exact .inl ⟨k, a, t, ⟨fun x => by simp only [hg]; exact h.direct x, fun x y hy => by simp only [hg]; exact h.answers x y hy,
      fun x hx => by simp only [hg, ht s]; exact h.silent x hx, by rw [ht s]; exact h.grows⟩⟩
  · exact .inr ⟨k, e, ⟨fun x => by simp only [hg]; exact h.direct x, fun x y hy => by simp only [hg]; exact h.answers x y hy,
      fun x hx => by simp only [hg]; exact h.silent x hx⟩⟩

theorem uniform_rendezvous : Uniform rendezvous := by
  intro s
  refine .inl ⟨1, (), s, fun x => rfl, fun x y h => ?_, fun x h => ?_, List.prefix_rfl⟩ <;> simp only [answered] at h <;>
    split at h
  · next h' => cases h; simp [rendezvous, reached, h']
  · cases h
  · cases h
  · next h' => exact ⟨reached .coproc (x.draw Config.freeCoproc).2 s, by simp [rendezvous, reached, h'],
      by simp [leftAtHang, h', reached], List.prefix_rfl, List.prefix_rfl⟩

/-! What the shared operations read does not depend on how the pins are reached. -/

@[simp] theorem isClaimed_reached (m : Impl) (x : Source) (p : Nat) (s : State) :
    (reached m x s).isClaimed p = s.isClaimed p := rfl
@[simp] theorem savedMode_reached (m : Impl) (x : Source) (p : Nat) (s : State) :
    (reached m x s).savedMode p = s.savedMode p := rfl
@[simp] theorem funcOf_reached (m : Impl) (x : Source) (p : Nat) (s : State) :
    (reached m x s).funcOf p = s.funcOf p := rfl
@[simp] theorem pinOf_reached (m : Impl) (x : Source) (r : Role) (s : State) : pinOf r (reached m x s) = pinOf r s := rfl
@[simp] theorem enabled_reached (m : Impl) (x : Source) (f : Flavour) (s : State) :
    enabled f (reached m x s) = enabled f s := rfl
@[simp] theorem session_reached (m : Impl) (x : Source) (s : State) : (reached m x s).session = s.session := rfl
@[simp] theorem qcode_reached (m : Impl) (x : Source) (s : State) : (reached m x s).qcode = s.qcode := rfl
@[simp] theorem apDelay_reached (m : Impl) (x : Source) (s : State) : (reached m x s).apDelay = s.apDelay := rfl

theorem applyLevels_reached (a b : List Nat) (m : Impl) (x : Source) (s : State) :
    applyLevels a b (reached m x s) = reached m x (applyLevels a b s) := by
  simp only [applyLevels]; split <;> rfl

theorem lineLevel_reached (p : Nat) (m : Impl) (x : Source) (s : State) :
    lineLevel p (reached m x s) = ((lineLevel p s).1, reached m x (lineLevel p s).2) := by
  unfold lineLevel
  by_cases h : s.funcOf p = .output <;> (simp [h]; rfl)

theorem saveOnce_reached (p : Nat) (m : Impl) (x : Source) (s : State) :
    saveOnce p (reached m x s) = reached m x (saveOnce p s) := by
  unfold saveOnce; by_cases h : s.isClaimed p = true <;> (simp [h]; try rfl)

theorem giveUp_reached (p : Nat) (m : Impl) (x : Source) (s : State) :
    giveUp p (reached m x s) = reached m x (giveUp p s) := by
  unfold giveUp; by_cases h : s.isClaimed p = true <;> (simp [h]; try rfl)

theorem latchFault_reached (c : QCode) (m : Impl) (x : Source) (s : State) :
    latchFault c (reached m x s) = reached m x (latchFault c s) := by
  unfold latchFault; by_cases h : s.qcode = .ok <;> (simp [h]; try rfl)

theorem applyAck_reached (a : BitVec 3) (m : Impl) (x : Source) (s : State) :
    applyAck a (reached m x s) = reached m x (applyAck a s) := latchFault_reached _ m x s

theorem acceptData_reached (v : Word) (p : Bool) (m : Impl) (x : Source) (s : State) :
    acceptData v p (reached m x s) = reached m x (acceptData v p s) := by
  unfold acceptData
  by_cases h : s.qcode = .ok <;> by_cases h' : p = parityOdd v <;> (simp [h, h', latchFault_reached]; try rfl)

/-! The parts of the operations. -/

theorem uniform_levelWrite (a b : List Nat) : Uniform (levelWrite a b) :=
  uniform_rendezvous.andThen fun _ => uniform_ok (v := fun _ => ()) (fun _ _ _ => rfl) (applyLevels_reached a b) (fun s => by simp)

theorem uniform_levelRead (p : Nat) : Uniform (levelRead p) :=
  uniform_rendezvous.andThen fun _ =>
    uniform_ok (v := fun s => (lineLevel p s).1) (f := fun s => (lineLevel p s).2)
      (fun m x s => by rw [lineLevel_reached]) (fun m x s => by rw [lineLevel_reached])
      (fun s => by rw [lineLevel_state])

theorem uniform_needPin (x : Option Nat) : Uniform (needPin x) := by
  cases x with
  | none => exact uniform_refused _
  | some p => exact uniform_ok (v := fun _ => p) (f := id) (fun _ _ _ => rfl) (fun _ _ _ => rfl)

theorem uniform_claimPin (k : PinMode) (p : Nat) : Uniform (claimPin k p) :=
  uniform_rendezvous.andThen fun _ => uniform_ok (v := fun _ => ()) (fun _ _ _ => rfl) (fun m x s => by
    rw [saveOnce_reached]; rfl) fun s => by simp [funcWrite, record]

theorem uniform_restorePin (p : Nat) : Uniform (restorePin p) :=
  uniform_rendezvous.andThen fun _ => uniform_ok (v := fun _ => ()) (fun _ _ _ => rfl) (giveUp_reached p) (trace_giveUp p)

theorem uniform_restoreAll (ps : List Nat) : Uniform (restoreAll ps) := by
  induction ps with
  | nil => exact uniform_ok (v := fun _ => ()) (f := id) (fun _ _ _ => rfl) fun _ _ _ => rfl
  | cons p ps ih => exact (uniform_restorePin p).andThen fun _ => ih

theorem uniform_claimOut (x : Option Nat) : Uniform (claimOut x) := (uniform_needPin x).andThen fun _ => uniform_claimPin _ _
theorem uniform_claimIn (x : Option Nat) : Uniform (claimIn x) := (uniform_needPin x).andThen fun _ => uniform_claimPin _ _

theorem uniform_driveLevels (f : Flavour) (clk tms data : Bool) : Uniform (driveLevels f clk tms data) := by
  have need : ∀ r, Uniform fun s => needPin (pinOf r s) s := fun r =>
    .read (v := pinOf r) (fun _ _ _ => rfl) uniform_needPin
  have done : ∀ ls : List (Nat × Bool), Uniform fun s => .ok ls s := fun ls =>
    uniform_ok (v := fun _ => ls) (f := id) (fun _ _ _ => rfl) fun _ _ _ => rfl
  cases f with
  | jtag => exact (need .tck).andThen fun _ => (need .tms).andThen fun _ => (need .tdi).andThen fun _ => done _
  | swd => exact (need .swclk).andThen fun _ => (need .swdio).andThen fun _ => done _

theorem uniform_drive (f : Flavour) (clk tms data : Bool) : Uniform (drive f clk tms data) :=
  .ite (fun _ _ _ => by simp)
    ((uniform_driveLevels f clk tms data).andThen fun _ => (uniform_levelWrite _ _).andThen fun _ =>
      uniform_ok (v := fun _ => ()) (fun _ _ _ => rfl) fun _ _ _ => rfl)
    (uniform_refused _)

theorem uniform_readLine (f : Flavour) : Uniform (readLine f) :=
  .ite (fun _ _ _ => by simp)
    (Uniform.andThen (f := fun s => needPin (pinOf (sampledRole f) s) s)
      (.read (v := pinOf (sampledRole f)) (fun _ _ _ => rfl) uniform_needPin) fun p =>
      (uniform_levelRead p).andThen fun b => uniform_ok (v := fun _ => b) (fun _ _ _ => rfl) fun _ _ _ => rfl)
    (uniform_refused _)

theorem uniform_driveReset (a b : Bool) : Uniform (driveReset a b) :=
  .ite (fun _ _ _ => by simp)
    (Uniform.andThen (f := fun s => levelWrite (setMask (resetLevels a b s)) (clrMask (resetLevels a b s)) s)
      (.read (v := resetLevels a b) (f := fun ls => levelWrite (setMask ls) (clrMask ls)) (fun _ _ _ => rfl)
        fun _ => uniform_levelWrite _ _)
      fun _ => uniform_ok (v := fun _ => ()) (fun _ _ _ => rfl) fun _ _ _ => rfl)
    (uniform_refused _)

theorem uniform_driveDirection (o : Bool) : Uniform (driveDirection o) := by
  have claim : ∀ k : Option Nat → State → Res Unit, (∀ x, Uniform (k x)) → Uniform fun s => k (pinOf .swdio s) s :=
    fun k hk => .read (v := pinOf .swdio) (fun _ _ _ => rfl) hk
  cases o
  · exact .ite (fun _ _ _ => by simp)
      ((claim _ uniform_claimIn).andThen fun _ => uniform_ok (v := fun _ => ()) (fun _ _ _ => rfl) fun _ _ _ => rfl)
      (uniform_refused _)
  · exact .ite (fun _ _ _ => by simp)
      ((claim _ uniform_claimOut).andThen fun _ => uniform_ok (v := fun _ => ()) (fun _ _ _ => rfl) fun _ _ _ => rfl)
      (uniform_refused _)

theorem uniform_cycOut (b : Bool) : Uniform (cycOut b) := (uniform_drive _ _ _ _).andThen fun _ => uniform_drive _ _ _ _

theorem uniform_cycIn : Uniform cycIn :=
  (uniform_drive _ _ _ _).andThen fun _ => (uniform_readLine _).andThen fun b =>
    (uniform_drive _ _ _ _).andThen fun _ => uniform_ok (v := fun _ => b) (f := id) (fun _ _ _ => rfl) fun _ _ _ => rfl

theorem uniform_swdOut (bs : List Bool) : Uniform (swdOut bs) := by
  induction bs with
  | nil => exact uniform_ok (v := fun _ => ()) (f := id) (fun _ _ _ => rfl) fun _ _ _ => rfl
  | cons b bs ih => exact (uniform_cycOut b).andThen fun _ => ih

theorem uniform_swdIn (n : Nat) : Uniform (swdIn n) := by
  induction n with
  | zero => exact uniform_ok (v := fun _ => []) (f := id) (fun _ _ _ => rfl) fun _ _ _ => rfl
  | succ n ih =>
    exact uniform_cycIn.andThen fun b => ih.andThen fun bs =>
      uniform_ok (v := fun _ => b :: bs) (f := id) (fun _ _ _ => rfl) fun _ _ _ => rfl

theorem uniform_runPrimitive (w : StreamWord) : Uniform (runPrimitive w) := by
  have done : ∀ bs : List Bool, Uniform fun s => .ok bs s := fun bs =>
    uniform_ok (v := fun _ => bs) (f := id) (fun _ _ _ => rfl) fun _ _ _ => rfl
  cases w with
  | drive a b c => exact (uniform_drive _ _ _ _).andThen fun _ => done _
  | read => exact (uniform_readLine _).andThen fun _ => done _
  | reset a b => exact (uniform_driveReset _ _).andThen fun _ => done _
  | other w => exact done _

theorem uniform_runStream (ws : List StreamWord) : Uniform (runStream ws) := by
  induction ws with
  | nil => exact uniform_ok (v := fun _ => []) (f := id) (fun _ _ _ => rfl) fun _ _ _ => rfl
  | cons w ws ih =>
    exact (uniform_runPrimitive w).andThen fun b => ih.andThen fun bs =>
      uniform_ok (v := fun _ => b ++ bs) (f := id) (fun _ _ _ => rfl) fun _ _ _ => rfl

theorem uniform_turnaround : Uniform turnaround :=
  Uniform.andThen (f := fun s => swdIn s.cfg.trn s) (.read (v := fun s => s.cfg.trn) (fun _ _ _ => rfl) uniform_swdIn)
    fun _ => uniform_ok (v := fun _ => ()) (f := id) (fun _ _ _ => rfl) fun _ _ _ => rfl

theorem uniform_requestAndAck (hdr : Byte) : Uniform (requestAndAck hdr) :=
  (uniform_swdOut _).andThen fun _ => (uniform_driveDirection _).andThen fun _ => uniform_turnaround.andThen fun _ =>
    (uniform_swdIn 3).andThen fun bs => uniform_ok (v := fun _ => valueOfBits 3 bs) (f := id) (fun _ _ _ => rfl) fun _ _ _ => rfl

theorem uniform_turnBack : Uniform turnBack := uniform_turnaround.andThen fun _ => uniform_driveDirection _

theorem uniform_sendData (v : Word) (p : Bool) : Uniform (sendData v p) :=
  (uniform_swdOut _).andThen fun _ => uniform_cycOut _

theorem uniform_receiveData : Uniform receiveData :=
  (uniform_swdIn 32).andThen fun bs => uniform_cycIn.andThen fun rp =>
    uniform_ok (v := fun _ => (valueOfBits 32 bs, rp)) (f := id) (fun _ _ _ => rfl) fun _ _ _ => rfl

theorem uniform_settle (hdr : Byte) : Uniform (settle hdr) :=
  .ite (fun _ _ _ => Iff.rfl)
    (.read (v := fun s => s.apDelay) (f := idle) (fun _ _ _ => rfl) fun _ => uniform_swdOut _)
    (uniform_ok (v := fun _ => ()) (f := id) (fun _ _ _ => rfl) fun _ _ _ => rfl)

theorem uniform_writeFrame (hdr : Byte) (v : Word) : Uniform (writeFrame hdr v) :=
  (uniform_requestAndAck hdr).andThen fun ack => uniform_turnBack.andThen fun _ =>
    .ite (c := fun s => decodeAck s.cfg.toDecided ack = .ok) (fun _ _ _ => Iff.rfl)
      ((uniform_sendData _ _).andThen fun _ => uniform_settle _)
      (uniform_ok (v := fun _ => ()) (fun _ _ _ => rfl) (applyAck_reached ack) (fun _ => by simp))

theorem uniform_readFrame (hdr : Byte) : Uniform (readFrame hdr) :=
  (uniform_requestAndAck hdr).andThen fun ack =>
    .ite (c := fun s => decodeAck s.cfg.toDecided ack = .ok) (fun _ _ _ => Iff.rfl)
      (uniform_receiveData.andThen fun d => uniform_turnBack.andThen fun _ =>
        .after (acceptData_reached d.1 d.2) (fun _ => by simp) (uniform_settle hdr))
      (uniform_turnBack.andThen fun _ => uniform_ok (v := fun _ => ()) (fun _ _ _ => rfl) (applyAck_reached ack) (fun _ => by simp))

theorem uniform_registerOperation (frame : State → Res Unit) (hf : Uniform frame) : Uniform (registerOperation frame) := by
  have ret : Uniform returnQCode := uniform_ok (v := fun _ => ()) (fun _ _ _ => rfl) fun _ _ _ => rfl
  exact .after (g := fun s => { s with batchOpen := true })
    (f := fun s => if s.qcode = .ok then (frame s).andThen fun _ s => returnQCode s else returnQCode s)
    (fun _ _ _ => rfl) (fun _ => rfl) (.ite (fun _ _ _ => by simp) (hf.andThen fun _ => ret) ret)

/-! Session parts. -/

theorem uniform_return (c : Code) : Uniform (returnCode c) :=
  uniform_ok (v := fun _ => ()) (fun _ _ _ => rfl) fun _ _ _ => rfl

theorem uniform_done : Uniform fun s : State => (.ok () s : Res Unit) :=
  uniform_ok (v := fun _ => ()) (f := id) (fun _ _ _ => rfl) fun _ _ _ => rfl

theorem uniform_acquire : Uniform acquire :=
  uniform_rendezvous.andThen fun _ => uniform_ok (v := fun s => (drawAcquire s).1) (f := fun s => (drawAcquire s).2)
    (fun _ _ _ => rfl) fun _ _ _ => rfl

theorem uniform_claimOut_role (r : Role) : Uniform fun s => claimOut (pinOf r s) s :=
  .read (v := pinOf r) (fun _ _ _ => rfl) uniform_claimOut

theorem uniform_claimIn_role (r : Role) : Uniform fun s => claimIn (pinOf r s) s :=
  .read (v := pinOf r) (fun _ _ _ => rfl) uniform_claimIn

theorem uniform_initJtag : Uniform initJtag :=
  (uniform_claimIn_role _).andThen fun _ =>
    Uniform.andThen (f := fun s => levelWrite (pinOf .tms s).toList ((pinOf .tck s).toList ++ (pinOf .tdi s).toList) s)
      (.read (v := fun s => ((pinOf .tms s).toList, (pinOf .tck s).toList ++ (pinOf .tdi s).toList))
        (f := fun v => levelWrite v.1 v.2) (fun _ _ _ => rfl) fun _ => uniform_levelWrite _ _)
      fun _ => (uniform_claimOut_role _).andThen fun _ => (uniform_claimOut_role _).andThen fun _ => uniform_claimOut_role _

theorem uniform_initSwd : Uniform initSwd :=
  Uniform.andThen (f := fun s => levelWrite [] ((pinOf .swclk s).toList ++ (pinOf .swdio s).toList) s)
    (.read (v := fun s => (pinOf .swclk s).toList ++ (pinOf .swdio s).toList) (f := levelWrite []) (fun _ _ _ => rfl)
      fun _ => uniform_levelWrite _ _)
    fun _ => (uniform_claimOut_role _).andThen fun _ => (uniform_claimOut_role _).andThen fun _ =>
      uniform_ok (v := fun _ => ()) (fun _ _ _ => rfl) fun _ _ _ => rfl

theorem uniform_initResetLine (r : Role) : Uniform (initResetLine r) := by
  refine Uniform.read (v := pinOf r) (f := fun x s => match x with
    | none => .ok () s
    | some p => (levelWrite [p] [] s).andThen fun _ s => claimOut (some p) s) (fun _ _ _ => rfl) fun x => ?_
  cases x with
  | none => exact uniform_done
  | some p => exact (uniform_levelWrite _ _).andThen fun _ => uniform_claimOut _

theorem uniform_onlyIf (c : Bool) (k : State → Res Unit) (hk : Uniform k) : Uniform (onlyIf c k) := by
  cases c
  · exact uniform_done
  · exact hk

theorem uniform_initEffects : Uniform initEffects := by
  refine Uniform.read (v := fun s => (jtagOk s, swdOk s)) (f := fun v s =>
    (onlyIf v.1 initJtag { s with resHeld := true, tmode := initMode v.1 v.2 }).andThen fun _ s =>
    (onlyIf v.2 initSwd s).andThen fun _ s => (initResetLine .trst s).andThen fun _ s =>
    (initResetLine .srst s).andThen fun _ s => returnCode .ok { flushBatch s with session := .active })
    (fun _ _ _ => rfl) fun v => ?_
  exact Uniform.andThen
    (Uniform.after (g := fun s => { s with resHeld := true, tmode := initMode v.1 v.2 }) (fun _ _ _ => rfl) (fun _ => rfl)
      (uniform_onlyIf _ _ uniform_initJtag))
    fun _ => (uniform_onlyIf _ _ uniform_initSwd).andThen fun _ => (uniform_initResetLine _).andThen fun _ =>
      (uniform_initResetLine _).andThen fun _ => uniform_ok (v := fun _ => ()) (fun _ _ _ => rfl) fun _ _ _ => rfl

/-! The sequences, whose bits and lengths are parameters. -/

/-- Idle cycles, as many as a parameter or a register says. -/
theorem uniform_idle {n : State → Nat} (hn : ∀ m x s, n (reached m x s) = n s) : Uniform fun s => idle (n s) s :=
  .read (v := n) (f := idle) hn fun _ => uniform_swdOut _

theorem uniform_lineReset : Uniform lineReset :=
  .read (v := fun s => List.replicate s.cfg.lineResetLen true) (fun _ _ _ => rfl) uniform_swdOut

theorem uniform_jtagToSwd : Uniform jtagToSwd :=
  Uniform.andThen (f := fun s => swdOut (wireBits s.cfg.seqJtagToSwd) s)
    (.read (v := fun s => wireBits s.cfg.seqJtagToSwd) (fun _ _ _ => rfl) uniform_swdOut)
    fun _ => uniform_idle (n := fun s => s.cfg.switchIdle) fun _ _ _ => rfl

theorem uniform_swdToJtag : Uniform swdToJtag :=
  .read (v := fun s => wireBits s.cfg.seqSwdToJtag) (fun _ _ _ => rfl) uniform_swdOut

/-! Whole operations. -/

/-- An operation is a uniform part and the outcome it finishes with. -/
def UniformOp (i : Instr) : Prop := ∃ f : State → Res Unit, Uniform f ∧ ∀ s, exec i s = finish (f s)

theorem uniformOp_finish {i : Instr} (f : State → Res Unit) (hf : Uniform f) (h : ∀ s, exec i s = finish (f s)) :
    UniformOp i := ⟨f, hf, h⟩

/-- An operation that makes no request and leaves the history alone. -/
theorem uniformOp_next {i : Instr} (f : State → State) (hf : ∀ m x s, f (reached m x s) = reached m x (f s))
    (h : ∀ s, exec i s = .next (f s))
    (ht : ∀ s, (f s).trace = s.trace := by intro s; first | rfl | ((repeat' split) <;> simp)) : UniformOp i :=
  ⟨fun s => .ok () (f s), uniform_ok (v := fun _ => ()) (fun _ _ _ => rfl) hf fun s => by rw [ht], h⟩

/-- An operation that is refused under a condition that does not depend on how the pins are reached. -/
theorem uniformOp_guarded {f : State → Res Unit} {c : State → Bool} {e : Refusal} {i : Instr} (hf : Uniform f)
    (hc : ∀ m x s, c (reached m x s) = c s) (h : ∀ s, exec i s = if c s = true then .refused e else finish (f s)) :
    UniformOp i :=
  ⟨fun s => if c s = true then .refused e else f s, .ite (fun m x s => by rw [hc]) (uniform_refused e) hf,
    fun s => by rw [h]; split <;> simp_all⟩

/-- A parameter read before an acknowledgement is judged. -/
theorem uniformOp_ack {i : Instr} (a : State → BitVec 3) (ha : ∀ m x s, a (reached m x s) = a s)
    (h : ∀ s, exec i s = .next (applyAck (a s) s)) : UniformOp i :=
  uniformOp_next (fun s => applyAck (a s) s) (fun m x s => by rw [ha, applyAck_reached]) h fun _ => by simp

/-- The configuration operations that a session freezes. -/
theorem uniformOp_whenInactive {i : Instr} (k : State → State) (hk : ∀ m x s, k (reached m x s) = reached m x (k s))
    (h : ∀ s, exec i s = .next (whenInactive k s)) (ht : ∀ s, (k s).trace = s.trace) : UniformOp i :=
  uniformOp_next (whenInactive k)
    (fun m x s => by by_cases hs : s.session = .active <;> simp [whenInactive, hs, hk]; rfl) h
    fun s => by simp only [whenInactive]; split <;> simp [ht]

/-- The register operations, after their two preconditions. -/
theorem uniformOp_register {i : Instr} (c : Bool) (e : Refusal) (frame : State → Res Unit) (hf : Uniform frame)
    (h : ∀ s, exec i s = if !enabled .swd s then .refused .noSwd else if c then .refused e
      else finish (registerOperation frame s)) : UniformOp i := by
  refine uniformOp_guarded (c := fun s => !enabled .swd s) (e := .noSwd)
    (.ite (c := fun _ => c = true) (fun _ _ _ => Iff.rfl) (uniform_refused e) (uniform_registerOperation frame hf))
    (fun _ _ _ => rfl) fun s => ?_
  rw [h]
  cases c <;> rfl

/-- A sequence, after its precondition. -/
theorem uniformOp_sequence {i : Instr} (seq : State → Res Unit) (hq : Uniform seq)
    (h : ∀ s, exec i s = switchSequence seq s) : UniformOp i :=
  uniformOp_guarded (c := fun s => !enabled .swd s) (hq.andThen fun _ => uniform_return .ok) (fun _ _ _ => rfl) h

theorem uniformOp_init : UniformOp .init := by
  refine ⟨fun s => if initRefuses s then returnCode .fail s
    else (acquire s).andThen fun ok s => if ok then initEffects s else returnCode .fail s,
    .ite (fun _ _ _ => Iff.rfl) (uniform_return _) (uniform_acquire.andThen fun ok => ?_), fun s => ?_⟩
  · cases ok
    · exact uniform_return _
    · exact uniform_initEffects
  · simp only [exec, execInit]; split <;> rfl

theorem uniformOp_quit : UniformOp .quit := by
  refine ⟨fun s => if s.session = .inactive then returnCode .ok s
    else (restoreAll (claimedPins s) s).andThen fun _ s =>
      returnCode .ok { s with resHeld := false, session := .inactive, tmode := .none },
    .ite (fun _ _ _ => Iff.rfl) (uniform_return _)
      (Uniform.andThen (f := fun s => restoreAll (claimedPins s) s)
        (.read (v := claimedPins) (f := restoreAll) (fun _ _ _ => rfl) uniform_restoreAll)
        fun _ => uniform_ok (v := fun _ => ()) (fun _ _ _ => rfl) fun _ _ _ => rfl), fun s => ?_⟩
  simp only [exec, execQuit]; split <;> rfl

theorem uniformOp_execJtag (n : Word) (ws : List StreamWord) : UniformOp (.execJtag n ws) := by
  refine ⟨fun s => if ws.all isPrimitive = false then returnCode .notSupported s
    else if s.session ≠ .active then .refused .noSession
    else (runStream ws s).andThen fun out s => returnCode .ok { s with jtagOut := out },
    .ite (c := fun _ => ws.all isPrimitive = false) (fun _ _ _ => Iff.rfl) (uniform_return _)
      (.ite (c := fun s => s.session ≠ .active) (fun _ _ _ => Iff.rfl) (uniform_refused _)
        ((uniform_runStream ws).andThen fun _ => uniform_ok (v := fun _ => ()) (fun _ _ _ => rfl) fun _ _ _ => rfl)),
    fun s => ?_⟩
  simp only [exec, execExecJtag]
  cases ws.all isPrimitive
  · rfl
  · by_cases h : s.session = .active <;> simp [h]

theorem uniformOp_restore (x : PinOperand) : UniformOp (.restore x) := by
  refine ⟨fun s => (match validPin s.cfg x with | some p => restorePin p s | none => rendezvous s),
    Uniform.read (v := fun s => validPin s.cfg x)
      (f := fun y s => match y with | some p => restorePin p s | none => rendezvous s) (fun _ _ _ => rfl) fun y => ?_,
    fun s => ?_⟩
  · cases y
    · exact uniform_rendezvous
    · exact uniform_restorePin _
  · simp only [exec, execRestore]; cases validPin s.cfg x <;> rfl

theorem uniformOp_swdData (v : Word) (p : Bool) : UniformOp (.swdData v p) := by
  refine ⟨fun s => if s.swdioDir = .out then sendData v p s else .ok () (acceptData v p s),
    .ite (fun _ _ _ => Iff.rfl) (uniform_sendData _ _)
      (uniform_ok (v := fun _ => ()) (fun _ _ _ => rfl) (acceptData_reached _ _) fun s => by simp), fun s => ?_⟩
  simp only [exec, execSwdData]
  split <;> simp_all

/-- Every operation is uniform: statements about the co-processor cite this one (spec/60_exceptions.md R211, R212). -/
theorem exec_uniform (i : Instr) : UniformOp i := by
  cases i with
  | cfgPin role pin =>
    cases h : roleOfCode role with
    | none => exact uniformOp_next (setStatus .notSupported) (fun _ _ _ => rfl) fun s => by simp [exec, execCfgPin, h]
    | some r =>
      exact uniformOp_whenInactive (fun s => setStatus .ok { s with pincfg := s.pincfg.set r pin }) (fun _ _ _ => rfl)
        (fun s => by simp [exec, execCfgPin, h]) fun _ => rfl
  | cfgCoeff c =>
    exact uniformOp_whenInactive _ (fun m x s => by split <;> rfl) (fun _ => rfl) fun s => by split <;> rfl
  | cfgOffset o => exact uniformOp_whenInactive _ (fun _ _ _ => rfl) (fun _ => rfl) fun _ => rfl
  | cfgBase a => exact uniformOp_whenInactive _ (fun _ _ _ => rfl) (fun _ => rfl) fun _ => rfl
  | cfgApDelay n => exact uniformOp_next _ (fun _ _ _ => rfl) fun _ => rfl
  | init => exact uniformOp_init
  | quit => exact uniformOp_quit
  | setSpeed k =>
    exact uniformOp_next (fun s => if k = 0 then setStatus .notSupported s
      else setStatus .ok { s with delay := BitVec.ofInt 32 (delayForKhz s.coeff s.offset k) })
      (fun m x s => by split <;> rfl) fun s => by simp only [exec, execSetSpeed]; split <;> rfl
  | speedToKhz k =>
    exact uniformOp_next (fun s => if khzDivisor s.offset k ≤ 0 then setStatus .fail s
      else setStatus .ok (setRout (BitVec.ofNat 32 (s.coeff.toNat / (khzDivisor s.offset k).toNat)) s))
      (fun m x s => by simp only [apply_ite (reached m x)]; rfl)
      fun s => by simp only [exec, execSpeedToKhz]; split <;> rfl
  | khzToSpeed k =>
    exact uniformOp_next (fun s => if k = 0 then setStatus .notSupported s
      else setStatus .ok (setRout (BitVec.ofInt 32 (delayForKhz s.coeff s.offset k)) s))
      (fun m x s => by split <;> rfl) fun s => by simp only [exec, execKhzToSpeed]; split <;> rfl
  | execJtag n ws => exact uniformOp_execJtag n ws
  | swdInit =>
    exact uniformOp_next (fun s => if enabled .swd s then setStatus .ok s else setStatus .fail s)
      (fun m x s => by simp only [apply_ite (reached m x)]; rfl)
      fun s => by simp only [exec, execSwdInit]; split <;> rfl
  | switchLineReset => exact uniformOp_sequence _ uniform_lineReset fun _ => rfl
  | switchJtagToSwd => exact uniformOp_sequence _ uniform_jtagToSwd fun _ => rfl
  | switchSwdToJtag => exact uniformOp_sequence _ uniform_swdToJtag fun _ => rfl
  | switchUnsupported _ => exact uniformOp_next _ (fun _ _ _ => rfl) fun _ => rfl
  | readReg cmd => exact uniformOp_register (!cmd.getLsbD 2) .assertNoRnwOnRead _ (uniform_readFrame _) fun _ => rfl
  | writeReg cmd v => exact uniformOp_register (cmd.getLsbD 2) .assertRnwOnWrite _ (uniform_writeFrame _ v) fun _ => rfl
  | runQueue =>
    exact uniformOp_guarded (c := fun s => !enabled .swd s)
      ((uniform_idle (n := fun s => s.cfg.flushIdle) fun _ _ _ => rfl).andThen fun _ =>
        uniform_ok (v := fun _ => ()) (f := fun s => setStatus (codeOfQ s.qcode) (flushBatch s)) (fun _ _ _ => rfl)
          fun _ _ _ => rfl)
      (fun _ _ _ => rfl) fun _ => rfl
  | drive f a b c => exact uniformOp_finish _ (uniform_drive f a b c) fun _ => rfl
  | read f => exact uniformOp_finish _ ((uniform_readLine f).andThen fun _ => uniform_done) fun _ => rfl
  | reset a b => exact uniformOp_finish _ (uniform_driveReset a b) fun _ => rfl
  | driveDirection o => exact uniformOp_finish _ (uniform_driveDirection o) fun _ => rfl
  | validate p => exact uniformOp_next _ (fun _ _ _ => rfl) fun _ => rfl
  | claimOut p =>
    exact uniformOp_finish (fun s => claimOut (validPin s.cfg p) s)
      (.read (v := fun s => validPin s.cfg p) (fun _ _ _ => rfl) uniform_claimOut) fun _ => rfl
  | claimIn p =>
    exact uniformOp_finish (fun s => claimIn (validPin s.cfg p) s)
      (.read (v := fun s => validPin s.cfg p) (fun _ _ _ => rfl) uniform_claimIn) fun _ => rfl
  | restore p => exact uniformOp_restore p
  | swdRequestDpWrite p a b => exact uniformOp_finish _ (uniform_swdOut _) fun _ => rfl
  | swdRequestDpRead p a b => exact uniformOp_finish _ (uniform_swdOut _) fun _ => rfl
  | swdRequestApWrite p a b => exact uniformOp_finish _ (uniform_swdOut _) fun _ => rfl
  | swdRequestApRead p a b => exact uniformOp_finish _ (uniform_swdOut _) fun _ => rfl
  | swdAckOk => exact uniformOp_ack (fun s => s.cfg.ackOk) (fun _ _ _ => rfl) fun _ => rfl
  | swdAckWait => exact uniformOp_ack (fun s => s.cfg.ackWait) (fun _ _ _ => rfl) fun _ => rfl
  | swdAckFault => exact uniformOp_ack (fun s => s.cfg.ackFault) (fun _ _ _ => rfl) fun _ => rfl
  | swdAckUndecodable a => exact uniformOp_ack (fun _ => a) (fun _ _ _ => rfl) fun _ => rfl
  | swdData v p => exact uniformOp_swdData v p
  | seqLineReset => exact uniformOp_finish _ uniform_lineReset fun _ => rfl
  | seqJtagToSwd => exact uniformOp_finish _ uniform_jtagToSwd fun _ => rfl
  | seqSwdToJtag => exact uniformOp_finish _ uniform_swdToJtag fun _ => rfl
  | statusOk => exact uniformOp_next _ (fun _ _ _ => rfl) fun _ => rfl
  | statusFail => exact uniformOp_next _ (fun _ _ _ => rfl) fun _ => rfl
  | statusWait => exact uniformOp_next _ (fun _ _ _ => rfl) fun _ => rfl
  | statusNotSupported => exact uniformOp_next _ (fun _ _ _ => rfl) fun _ => rfl

end Sys2Proof.Machine
end

