-- ==== Sys2Proof/Laws/Encode.lean ====
section
/-! SUPPORT. The fields of the words the encoder builds, read back (spec/30_encoding.md R60, R64, R73). -/

namespace Sys2Proof

/-- Every bit of a command word comes from one of its three fields. -/
theorem getLsbD_commandWord (op a8 : Byte) (a32 : Word) (k : Nat) :
    (commandWord op a8 a32).getLsbD k =
      if k < 32 then a32.getLsbD k else if k < 40 then a8.getLsbD (k - 32) else op.getLsbD (k - 40) := by
  have h : (commandWord op a8 a32).getLsbD k = (op ++ a8 ++ a32).getLsbD k := rfl
  rw [h, BitVec.getLsbD_append, BitVec.getLsbD_append]
  by_cases h1 : k < 32
  · simp [h1]
  · by_cases h2 : k < 40
    · have : k - 32 < 8 := by omega
      simp [h1, h2, this]
    · have : ¬k - 32 < 8 := by omega
      have e : k - 32 - 8 = k - 40 := by omega
      simp [h1, h2, this, e]

@[simp] theorem opField_commandWord (op a8 : Byte) (a32 : Word) : opField (commandWord op a8 a32) = op := by
  apply BitVec.eq_of_getLsbD_eq
  intro i hi
  have h1 : ¬40 + i < 32 := by omega
  have h2 : ¬40 + i < 40 := by omega
  simp only [opField, BitVec.getLsbD_extractLsb', getLsbD_commandWord, h1, h2, if_false, hi, decide_true, Bool.true_and,
    Nat.add_sub_cancel_left]

@[simp] theorem a8Field_commandWord (op a8 : Byte) (a32 : Word) : a8Field (commandWord op a8 a32) = a8 := by
  apply BitVec.eq_of_getLsbD_eq
  intro i hi
  have h1 : ¬32 + i < 32 := by omega
  have h2 : 32 + i < 40 := by omega
  simp only [a8Field, BitVec.getLsbD_extractLsb', getLsbD_commandWord, h1, h2, if_false, if_true, hi, decide_true,
    Bool.true_and, Nat.add_sub_cancel_left]

@[simp] theorem a32Field_commandWord (op a8 : Byte) (a32 : Word) : a32Field (commandWord op a8 a32) = a32 := by
  apply BitVec.eq_of_getLsbD_eq
  intro i hi
  simp only [a32Field, BitVec.getLsbD_extractLsb', getLsbD_commandWord, Nat.zero_add, hi, if_true, decide_true,
    Bool.true_and]

/-- The bits of the second field, where the operands of the primitives stand. -/
theorem getLsbD_commandWord_a8 (op a8 : Byte) (a32 : Word) (k : Nat) (hk : k < 8) :
    (commandWord op a8 a32).getLsbD (32 + k) = a8.getLsbD k := by
  have h1 : ¬32 + k < 32 := by omega
  have h2 : 32 + k < 40 := by omega
  simp only [getLsbD_commandWord, h1, h2, if_false, if_true, Nat.add_sub_cancel_left]

@[simp] theorem pinOperand_encodePin (p : PinOperand) : pinOperand (encodePin p) = p := by
  cases p with
  | none => decide
  | some p =>
    have h : (p.setWidth 32).getLsbD 31 = false := by simp
    simp only [encodePin, pinOperand, h, Bool.false_eq_true, if_false, Option.some.injEq]
    apply BitVec.eq_of_getLsbD_eq
    intro i hi
    have h2 : i < 32 := by omega
    simp only [BitVec.getLsbD_extractLsb', BitVec.getLsbD_setWidth, Nat.zero_add, hi, h2, decide_true, Bool.true_and]

theorem getLsbD_packBits (b0 b1 b2 b3 : Bool) :
    (packBits b0 b1 b2 b3).getLsbD 0 = b0 ∧ (packBits b0 b1 b2 b3).getLsbD 1 = b1 ∧
    (packBits b0 b1 b2 b3).getLsbD 2 = b2 ∧ (packBits b0 b1 b2 b3).getLsbD 3 = b3 := by
  revert b0 b1 b2 b3
  decide

@[simp] theorem flavourOf_flavourBit (f : Flavour) : flavourOf (flavourBit f) = f := by cases f <;> rfl

end Sys2Proof
end

