-- ==== Sys2Proof/Laws/Session.lean ====
section
/-! SUPPORT. Claiming and restoring pins, `INIT` and `QUIT`: what each part reads as afterwards, and that no part loses the
mode a pin had before the session (spec/40_pinmux.md R96). -/

namespace Sys2Proof.Machine

/-- A claim of pin `p` with function `m`, when the pins are reached directly. -/
def afterClaim (m : PinMode) (p : Nat) (s : State) : State := funcWrite p m (saveOnce p s)

theorem claimOut_direct {s : State} (p : Nat) (h : s.cfg.impl = .direct) :
    claimOut (some p) s = .ok () (afterClaim .output p s) := by
  simp [claimOut, needPin, claimPin_direct _ _ h, afterClaim]

theorem claimIn_direct {s : State} (p : Nat) (h : s.cfg.impl = .direct) :
    claimIn (some p) s = .ok () (afterClaim .input p s) := by
  simp [claimIn, needPin, claimPin_direct _ _ h, afterClaim]

/-- A claim changes the three pin tables it names and the history, and nothing else. -/
theorem afterClaim_fields (m : PinMode) (p : Nat) (s : State) :
    afterClaim m p s = { s with
      func := (afterClaim m p s).func, saved := (afterClaim m p s).saved, claimed := (afterClaim m p s).claimed
      trace := s.trace ++ [.fn p m] } := by
  simp only [afterClaim, funcWrite, record, saveOnce]
  split <;> rfl

@[simp] theorem funcOf_afterClaim (m : PinMode) (p q : Nat) (s : State) :
    (afterClaim m p s).funcOf q = if q = p then m else s.funcOf q := by
  simp [afterClaim, funcOf_funcWrite]

@[simp] theorem isClaimed_afterClaim (m : PinMode) (p q : Nat) (s : State) :
    (afterClaim m p s).isClaimed q = if q = p then true else s.isClaimed q := by
  simp [afterClaim, isClaimed_saveOnce]

@[simp] theorem savedMode_afterClaim (m : PinMode) (p q : Nat) (s : State) :
    (afterClaim m p s).savedMode q = if q = p ∧ s.isClaimed p = false then s.funcOf p else s.savedMode q := by
  simp [afterClaim, savedMode_saveOnce]

@[simp] theorem latchOf_afterClaim (m : PinMode) (p q : Nat) (s : State) :
    (afterClaim m p s).latchOf q = s.latchOf q := by
  rw [afterClaim_fields]; rfl

@[simp] theorem trace_afterClaim (m : PinMode) (p : Nat) (s : State) :
    (afterClaim m p s).trace = s.trace ++ [.fn p m] := by
  rw [afterClaim_fields]

@[simp] theorem pinOf_afterClaim (m : PinMode) (p : Nat) (r : Role) (s : State) :
    pinOf r (afterClaim m p s) = pinOf r s := by
  rw [afterClaim_fields]; rfl

@[simp] theorem cfg_afterClaim (m : PinMode) (p : Nat) (s : State) : (afterClaim m p s).cfg = s.cfg := by
  rw [afterClaim_fields]

@[simp] theorem swdioDir_afterClaim (m : PinMode) (p : Nat) (s : State) : (afterClaim m p s).swdioDir = s.swdioDir := by
  rw [afterClaim_fields]

/-- A claim keeps the mode a pin had before the session. -/
@[simp] theorem preSessionMode_afterClaim (m : PinMode) (p q : Nat) (s : State) :
    preSessionMode (afterClaim m p s) q = preSessionMode s q := by
  simp only [preSessionMode, isClaimed_afterClaim, savedMode_afterClaim, funcOf_afterClaim]
  by_cases hq : q = p
  · subst hq
    by_cases hc : s.isClaimed q = true <;> simp_all
  · simp [hq]

theorem tableWf_saveOnce (p : Nat) (s : State) (hc : tableWf false s.claimed = true)
    (hs : tableWf .input s.saved = true) :
    tableWf false (saveOnce p s).claimed = true ∧ tableWf .input (saveOnce p s).saved = true := by
  unfold saveOnce
  split
  · exact ⟨hc, hs⟩
  · exact ⟨tableWf_write p true hc, tableWf_write p (s.funcOf p) hs⟩

/-- A claim keeps the canonical form of the pin tables. -/
theorem tableWf_afterClaim (m : PinMode) (p : Nat) (s : State) (hc : tableWf false s.claimed = true)
    (hs : tableWf .input s.saved = true) (hf : tableWf .input s.func = true) :
    tableWf false (afterClaim m p s).claimed = true ∧ tableWf .input (afterClaim m p s).saved = true ∧
      tableWf .input (afterClaim m p s).func = true := by
  have h := tableWf_saveOnce p s hc hs
  have hf' : (saveOnce p s).func = s.func := by unfold saveOnce; split <;> rfl
  exact ⟨h.1, h.2, by simpa [afterClaim, funcWrite, record, hf'] using tableWf_write p m hf⟩

/-! Level writes read the same through every other observer. -/

@[simp] theorem funcOf_applyLevels (a b : List Nat) (q : Nat) (s : State) : (applyLevels a b s).funcOf q = s.funcOf q := by
  rw [applyLevels_state]; rfl
@[simp] theorem isClaimed_applyLevels (a b : List Nat) (q : Nat) (s : State) :
    (applyLevels a b s).isClaimed q = s.isClaimed q := by rw [applyLevels_state]; rfl
@[simp] theorem savedMode_applyLevels (a b : List Nat) (q : Nat) (s : State) :
    (applyLevels a b s).savedMode q = s.savedMode q := by rw [applyLevels_state]; rfl
@[simp] theorem pinOf_applyLevels (a b : List Nat) (r : Role) (s : State) : pinOf r (applyLevels a b s) = pinOf r s := by
  rw [applyLevels_state]; rfl

/-! Restoring. -/

/-- What restoring a list of pins gives, when the pins are reached directly: each pin of the list that was claimed is
back in its saved mode and unclaimed, every other pin is as before (spec/40_pinmux.md R96). -/
theorem restoreAll_direct (ps : List Nat) {s : State} (h : s.cfg.impl = .direct) :
    ∃ t evs, restoreAll ps s = .ok () t ∧
      (∀ q, t.isClaimed q = if q ∈ ps then false else s.isClaimed q) ∧
      (∀ q, t.funcOf q = if q ∈ ps ∧ s.isClaimed q = true then s.savedMode q else s.funcOf q) ∧
      t.trace = s.trace ++ evs ∧
      (∀ e ∈ evs, ∃ p m, e = .fn p m) ∧
      (tableWf false s.claimed = true → tableWf false t.claimed = true) ∧
      (tableWf .input s.func = true → tableWf .input t.func = true) ∧
      t = { s with func := t.func, claimed := t.claimed, trace := t.trace } := by
  induction ps generalizing s with
  | nil => exact ⟨s, [], rfl, by simp, by simp, by simp, by simp, id, id, rfl⟩
  | cons p ps ih =>
    have hf := giveUp_fields p s
    obtain ⟨t, evs, e, k1, k2, k3, k4, k5, k6, k7⟩ := ih (s := giveUp p s) (by rw [hf]; exact h)
    refine ⟨t, (if s.isClaimed p then [.fn p (s.savedMode p)] else []) ++ evs, ?_, fun q => ?_, fun q => ?_, ?_,
      fun e he => ?_, fun hw => k5 ((tableWf_giveUp p s).1 hw), fun hw => k6 ((tableWf_giveUp p s).2 hw), ?_⟩
    · rw [restoreAll, restorePin_direct p h, andThen_ok, e]
    · rw [k1, isClaimed_giveUp]; by_cases hq : q = p <;> by_cases hm : q ∈ ps <;> simp [hq, hm]
    · rw [k2, isClaimed_giveUp, funcOf_giveUp, savedMode_giveUp]
      by_cases hq : q = p
      · subst hq; by_cases hm : q ∈ ps <;> simp [hm]
      · by_cases hm : q ∈ ps <;> simp [hq, hm]
    · rw [k3, hf, List.append_assoc]
    · rcases List.mem_append.1 he with he | he
      · split at he <;> simp at he
        exact ⟨_, _, he⟩
      · exact k4 e he
    · rw [k7, hf]

/-- In a table of canonical form every claimed pin is listed. -/
theorem mem_claimedPins {s : State} {p : Nat} (hv : p ≤ s.cfg.pinMax) (hc : s.isClaimed p = true) :
    p ∈ claimedPins s := by
  simp only [claimedPins, List.mem_filter, decide_eq_true_eq]
  refine ⟨mem_keys_of_read (d := false) ?_, hv⟩
  simpa [State.isClaimed] using hc

/-! Starting a session. -/

/-- What bringing up pins does: the claims `L` in order, the level writes `V` in order among them, and nothing else but the
direction of SWDIO. -/
structure BringUp (L : List (Nat × PinMode)) (V : List (List (Nat × Bool))) (s t : State) : Prop where
  fields : t = { s with
    latch := t.latch, func := t.func, saved := t.saved, claimed := t.claimed, trace := t.trace
    levelDraws := t.levelDraws, swdioDir := t.swdioDir }
  trace : t.trace = s.trace ++ L.map fun e => .fn e.1 e.2
  claimed : ∀ q, t.isClaimed q = (decide (q ∈ L.map Prod.fst) || s.isClaimed q)
  saved : ∀ q, t.savedMode q = if q ∈ L.map Prod.fst ∧ s.isClaimed q = false then s.funcOf q else s.savedMode q
  /-- The last claim of a pin decides its function. -/
  func : ∀ q, t.funcOf q = ((L.reverse.find? fun e => e.1 == q).map Prod.snd).getD (s.funcOf q)
  /-- The last write that names a pin decides its level, when it names it with one level alone. -/
  latch : ∀ before g after q v, V = before ++ g :: after → (∃ e ∈ g, e.1 = q) → (∀ e ∈ g, e.1 = q → e.2 = v) →
    (∀ w ∈ after, ∀ e ∈ w, e.1 ≠ q) → t.latchOf q = v
  latchElsewhere : ∀ q, (∀ g ∈ V, ∀ e ∈ g, e.1 ≠ q) → t.latchOf q = s.latchOf q
  claimedWf : tableWf false s.claimed = true → tableWf false t.claimed = true
  savedWf : tableWf .input s.saved = true → tableWf .input t.saved = true
  funcWf : tableWf .input s.func = true → tableWf .input t.func = true
  latchWf : tableWf false s.latch = true → tableWf false t.latch = true

namespace BringUp

variable {L M : List (Nat × PinMode)} {V W : List (List (Nat × Bool))} {s t u : State}

theorem cfg (h : BringUp L V s t) : t.cfg = s.cfg := by rw [h.fields]
theorem pincfg (h : BringUp L V s t) : t.pincfg = s.pincfg := by rw [h.fields]
theorem pinOf (h : BringUp L V s t) (r : Role) : Machine.pinOf r t = Machine.pinOf r s := pinOf_congr r h.cfg h.pincfg

/-- A claimed pin is in its list. -/
theorem find_none (q : Nat) (h : q ∉ L.map Prod.fst) : (L.reverse.find? fun e => e.1 == q) = none := by
  rw [List.find?_eq_none]
  intro e he hq
  exact h (List.mem_map.2 ⟨e, by simpa using he, by simpa using hq⟩)

/-- Writes that name no pin do nothing. -/
theorem refl (V : List (List (Nat × Bool))) (hV : ∀ g ∈ V, g = []) (s : State) : BringUp [] V s s where
  fields := rfl
  trace := by simp
  claimed := by simp
  saved := by simp
  func := by simp
  latch := fun before g after q v h hq => by
    obtain ⟨e, he, -⟩ := hq
    simp [hV g (by simp [h])] at he
  latchElsewhere := fun _ _ => rfl
  claimedWf := id
  savedWf := id
  funcWf := id
  latchWf := id

theorem trans (h : BringUp L V s t) (k : BringUp M W t u) : BringUp (L ++ M) (V ++ W) s u where
  fields := by
    have hk := k.fields
    rw [h.fields] at hk
    exact hk
  trace := by rw [k.trace, h.trace, List.map_append, List.append_assoc]
  claimed := fun q => by
    rw [k.claimed, h.claimed, List.map_append]
    by_cases h1 : q ∈ L.map Prod.fst <;> by_cases h2 : q ∈ M.map Prod.fst <;> simp only [List.mem_append, h1, h2] <;> simp
  saved := fun q => by
    have hn : q ∉ L.map Prod.fst → t.funcOf q = s.funcOf q := fun hq => by rw [h.func, find_none q hq]; rfl
    rw [k.saved, h.saved, h.claimed, List.map_append]
    by_cases h1 : q ∈ L.map Prod.fst <;> by_cases h2 : q ∈ M.map Prod.fst <;>
      simp only [List.mem_append, h1, h2] <;> simp
    rw [hn h1]
  func := fun q => by
    rw [k.func, h.func, List.reverse_append, List.find?_append]
    cases (M.reverse.find? fun e => e.1 == q) <;> simp
  latch := fun before g after q v hl hq hv hn => by
    rcases List.append_eq_append_iff.1 hl with ⟨w, -, hw⟩ | ⟨w, hw, hl⟩
    · exact k.latch w g after q v hw hq hv hn
    · cases w with
      | nil => exact k.latch [] g after q v hl.symm hq hv hn
      | cons x w =>
        simp only [List.cons_append, List.cons.injEq] at hl
        obtain ⟨rfl, rfl⟩ := hl
        rw [k.latchElsewhere q fun y hy => hn y (by simp [hy])]
        exact h.latch before g w q v hw hq hv fun y hy => hn y (by simp [hy])
  latchElsewhere := fun q hq => by
    rw [k.latchElsewhere q fun g hg => hq g (by simp [hg]), h.latchElsewhere q fun g hg => hq g (by simp [hg])]
  claimedWf := fun hw => k.claimedWf (h.claimedWf hw)
  savedWf := fun hw => k.savedWf (h.savedWf hw)
  funcWf := fun hw => k.funcWf (h.funcWf hw)
  latchWf := fun hw => k.latchWf (h.latchWf hw)

end BringUp

theorem bringUp_afterClaim (m : PinMode) (p : Nat) (s : State) : BringUp [(p, m)] [] s (afterClaim m p s) where
  fields := by rw [afterClaim_fields]
  trace := by simp
  claimed := fun q => by by_cases h : q = p <;> simp [h]
  saved := fun q => by
    by_cases h : q = p
    · subst h; simp
    · simp [h]
  func := fun q => by
    by_cases h : q = p
    · subst h; simp
    · have h' : ¬p = q := fun e => h e.symm
      simp [h, h']
  latch := by simp
  latchElsewhere := fun q _ => by simp
  claimedWf := fun hw => by
    unfold afterClaim
    simp only [funcWrite, record, saveOnce]
    split
    · exact hw
    · exact tableWf_write p true hw
  savedWf := fun hw => by
    unfold afterClaim
    simp only [funcWrite, record, saveOnce]
    split
    · exact hw
    · exact tableWf_write p (s.funcOf p) hw
  funcWf := fun hw => by
    have hf : (saveOnce p s).func = s.func := by unfold saveOnce; split <;> rfl
    simpa [afterClaim, funcWrite, record, hf] using tableWf_write p m hw
  latchWf := fun hw => by rw [afterClaim_fields]; exact hw

theorem bringUp_applyLevels (a b : List Nat) (s : State) :
    BringUp [] [a.map (·, true) ++ b.map (·, false)] s (applyLevels a b s) where
  fields := by rw [applyLevels_state]
  trace := by rw [applyLevels_state]; simp
  claimed := fun q => by simp
  saved := fun q => by simp
  func := fun q => by simp
  latch := fun before g after q v hl hq hv _ => by
    have hg : g = a.map (·, true) ++ b.map (·, false) := by
      rcases List.append_eq_singleton_iff.1 hl.symm with ⟨-, h⟩ | ⟨-, h⟩
      · exact (List.cons.inj h).1
      · cases h
    rw [hg] at hq hv
    have hb : q ∈ b → v = false := fun h => (hv (q, false) (by simp [h]) rfl).symm
    have ha : q ∈ a → v = true := fun h => (hv (q, true) (by simp [h]) rfl).symm
    rw [latchOf_applyLevels a b s q fun h => by simpa [ha h.1] using hb h.2]
    by_cases h : q ∈ b
    · rw [if_pos h, hb h]
    · rw [if_neg h]
      obtain ⟨e, he, rfl⟩ := hq
      have : e.1 ∈ a := by
        rcases List.mem_append.1 he with he | he
        · obtain ⟨x, hx, rfl⟩ := List.mem_map.1 he; exact hx
        · obtain ⟨x, hx, rfl⟩ := List.mem_map.1 he; exact absurd hx h
      rw [if_pos this, ha this]
  latchElsewhere := fun q hq => by
    have ha : q ∉ a := fun h => hq _ (List.mem_singleton_self _) (q, true) (by simp [h]) rfl
    have hb : q ∉ b := fun h => hq _ (List.mem_singleton_self _) (q, false) (by simp [h]) rfl
    rw [latchOf_applyLevels a b s q fun h => ha h.1, if_neg hb, if_neg ha]
  claimedWf := fun hw => by rw [applyLevels_state]; exact hw
  savedWf := fun hw => by rw [applyLevels_state]; exact hw
  funcWf := fun hw => by rw [applyLevels_state]; exact hw
  latchWf := tableWf_applyLevels a b s

theorem initJtag_runs {s : State} {o c m i : Nat} (h : s.cfg.impl = .direct) (ho : pinOf .tdo s = some o)
    (hc : pinOf .tck s = some c) (hm : pinOf .tms s = some m) (hi : pinOf .tdi s = some i) :
    ∃ t, initJtag s = .ok () t ∧ t.swdioDir = s.swdioDir ∧
      BringUp [(o, .input), (c, .output), (m, .output), (i, .output)] [[(m, true), (c, false), (i, false)]] s t := by
  let s1 := afterClaim .input o s
  let s2 := applyLevels [m] [c, i] s1
  let s3 := afterClaim .output c s2
  let s4 := afterClaim .output m s3
  have b1 : BringUp _ _ s s1 := bringUp_afterClaim .input o s
  have b2 : BringUp _ _ s s2 := b1.trans (bringUp_applyLevels [m] [c, i] s1)
  have b3 : BringUp _ _ s s3 := b2.trans (bringUp_afterClaim .output c s2)
  have b4 : BringUp _ _ s s4 := b3.trans (bringUp_afterClaim .output m s3)
  have b5 := b4.trans (bringUp_afterClaim .output i s4)
  refine ⟨afterClaim .output i s4, ?_, ?_, b5⟩
  · simp only [initJtag, ho, claimIn_direct _ h, andThen_ok, pinOf_afterClaim, hm, hc, hi, Option.toList_some]
    rw [levelWrite_direct _ _ (by simpa using h)]
    simp only [andThen_ok, pinOf_applyLevels, pinOf_afterClaim, hc, List.singleton_append]
    rw [claimOut_direct c (by rw [b2.cfg]; exact h)]
    simp only [andThen_ok, pinOf_applyLevels, pinOf_afterClaim, hm]
    rw [claimOut_direct m (by rw [b3.cfg]; exact h)]
    simp only [andThen_ok, pinOf_applyLevels, pinOf_afterClaim, hi]
    rw [claimOut_direct i (by rw [b4.cfg]; exact h)]
  · simp [s4, s3, s2, s1]

theorem initSwd_runs {s : State} {c d : Nat} (h : s.cfg.impl = .direct) (hc : pinOf .swclk s = some c)
    (hd : pinOf .swdio s = some d) :
    ∃ t, initSwd s = .ok () t ∧ t.swdioDir = .out ∧
      BringUp [(c, .output), (d, .output)] [[(c, false), (d, false)]] s t := by
  let s1 := applyLevels [] [c, d] s
  let s2 := afterClaim .output c s1
  let s3 := afterClaim .output d s2
  have b1 : BringUp _ _ s s1 := bringUp_applyLevels [] [c, d] s
  have b2 : BringUp _ _ s s2 := b1.trans (bringUp_afterClaim .output c s1)
  have b3 : BringUp _ _ s s3 := b2.trans (bringUp_afterClaim .output d s2)
  refine ⟨setDir .out s3, ?_, rfl, ⟨by rw [b3.fields]; rfl, b3.trace, b3.claimed, b3.saved, b3.func, b3.latch,
    b3.latchElsewhere, b3.claimedWf, b3.savedWf, b3.funcWf, b3.latchWf⟩⟩
  simp only [initSwd, hc, hd, Option.toList_some, List.singleton_append]
  rw [levelWrite_direct _ _ h]
  simp only [andThen_ok, pinOf_applyLevels, hc]
  rw [claimOut_direct c (by rw [b1.cfg]; exact h)]
  simp only [andThen_ok, pinOf_applyLevels, pinOf_afterClaim, hd]
  rw [claimOut_direct d (by rw [b2.cfg]; exact h)]
  rfl

theorem initResetLine_runs {s : State} {r : Role} (h : s.cfg.impl = .direct) (hm : sessionMode r = .output)
    (hl : initialLevel r = true) :
    ∃ t, initResetLine r s = .ok () t ∧ t.swdioDir = s.swdioDir ∧
      BringUp ([r].filterMap fun r => (pinOf r s).map fun p => (p, sessionMode r))
        [[r].filterMap fun r => (pinOf r s).map fun p => (p, initialLevel r)] s t := by
  cases hp : pinOf r s with
  | none => exact ⟨s, by simp [initResetLine, hp], rfl, by simpa [List.filterMap_cons, hp] using BringUp.refl [[]] (by simp) s⟩
  | some p =>
    have b1 := bringUp_applyLevels [p] [] s
    have b2 := b1.trans (bringUp_afterClaim .output p (applyLevels [p] [] s))
    refine ⟨afterClaim .output p (applyLevels [p] [] s), ?_, ?_, ?_⟩
    · simp only [initResetLine, hp]
      rw [levelWrite_direct _ _ h, andThen_ok, claimOut_direct p (by rw [b1.cfg]; exact h)]
    · simp
    · simpa [List.filterMap_cons, hp, hm, hl] using b2

/-- The claims that start a session, in order (spec/45_session.md R174). -/
def claimsOf (s : State) : List (Nat × PinMode) :=
  (sessionRoles s).filterMap fun r => (pinOf r s).map fun p => (p, sessionMode r)

/-- The level writes that start a session, in order (spec/45_session.md R174). -/
def levelsOf (s : State) : List (List (Nat × Bool)) :=
  (levelGroups s).map fun g => g.filterMap fun r => (pinOf r s).map fun p => (p, initialLevel r)

theorem initEffects_runs {s : State} (h : s.cfg.impl = .direct) :
    ∃ t, initEffects s = .ok () (setStatus .ok { flushBatch t with session := .active }) ∧
      t.swdioDir = (if swdOk s then .out else s.swdioDir) ∧
      BringUp (claimsOf s) (levelsOf s) { s with resHeld := true, tmode := initMode (jtagOk s) (swdOk s) } t := by
  let s0 : State := { s with resHeld := true, tmode := initMode (jtagOk s) (swdOk s) }
  have h0 : s0.cfg.impl = .direct := h
  have p0 : ∀ r, pinOf r s0 = pinOf r s := fun _ => rfl
  have hj : ∃ t, onlyIf (jtagOk s) initJtag s0 = .ok () t ∧ t.swdioDir = s0.swdioDir ∧
      BringUp ((if jtagOk s then [Role.tdo, .tck, .tms, .tdi] else []).filterMap fun r =>
          (pinOf r s).map fun p => (p, sessionMode r))
        ((if jtagOk s then [[Role.tms, .tck, .tdi]] else []).map fun g => g.filterMap fun r =>
          (pinOf r s).map fun p => (p, initialLevel r)) s0 t := by
    by_cases hk : jtagOk s = true
    · have hk' := hk
      simp only [jtagOk, Bool.and_eq_true, Option.isSome_iff_exists] at hk'
      obtain ⟨⟨⟨⟨c, hc⟩, m, hm⟩, i, hi⟩, o, ho⟩ := hk'
      obtain ⟨t, e, d, b⟩ := initJtag_runs (s := s0) h0 ho hc hm hi
      exact ⟨t, by rw [hk]; exact e, d, by simpa [hk, hc, hm, hi, ho, sessionMode, initialLevel] using b⟩
    · simp only [hk, onlyIf]
      exact ⟨s0, rfl, rfl, .refl [] (by simp) s0⟩
  obtain ⟨t1, e1, d1, b1⟩ := hj
  have p1 : ∀ r, pinOf r t1 = pinOf r s := b1.pinOf
  have hs : ∃ t, onlyIf (swdOk s) initSwd t1 = .ok () t ∧ t.swdioDir = (if swdOk s then .out else t1.swdioDir) ∧
      BringUp ((if swdOk s then [Role.swclk, .swdio] else []).filterMap fun r =>
          (pinOf r s).map fun p => (p, sessionMode r))
        ((if swdOk s then [[Role.swclk, .swdio]] else []).map fun g => g.filterMap fun r =>
          (pinOf r s).map fun p => (p, initialLevel r)) t1 t := by
    by_cases hk : swdOk s = true
    · have hk' := hk
      simp only [swdOk, Bool.and_eq_true, Option.isSome_iff_exists] at hk'
      obtain ⟨⟨c, hc⟩, d, hd⟩ := hk'
      obtain ⟨t, e, dd, b⟩ := initSwd_runs (s := t1) (by rw [b1.cfg]; exact h) ((p1 _).trans hc) ((p1 _).trans hd)
      exact ⟨t, by rw [hk]; exact e, by rw [dd, hk]; rfl, by simpa [hk, hc, hd, sessionMode, initialLevel] using b⟩
    · simp only [hk, onlyIf]
      exact ⟨t1, rfl, rfl, .refl [] (by simp) t1⟩
  obtain ⟨t2, e2, d2, b2⟩ := hs
  have b12 := b1.trans b2
  obtain ⟨t3, e3, d3, b3⟩ := initResetLine_runs (s := t2) (r := .trst) (by rw [b12.cfg]; exact h) rfl rfl
  have b13 := b12.trans b3
  obtain ⟨t4, e4, d4, b4⟩ := initResetLine_runs (s := t3) (r := .srst) (by rw [b13.cfg]; exact h) rfl rfl
  have b14 := b13.trans b4
  refine ⟨t4, ?_, ?_, ?_⟩
  · simp only [initEffects]
    rw [show onlyIf (jtagOk s) initJtag { s with resHeld := true, tmode := initMode (jtagOk s) (swdOk s) } = .ok () t1
      from e1]
    simp only [andThen_ok, e2, e3, e4, returnCode]
  · rw [d4, d3, d2, d1]
  · have e5 : claimsOf s = _ := congrArg (List.filterMap _)
      (show sessionRoles s = (if jtagOk s then [Role.tdo, .tck, .tms, .tdi] else []) ++
        (if swdOk s then [Role.swclk, .swdio] else []) ++ [Role.trst] ++ [Role.srst] by simp [sessionRoles])
    have e6 : levelsOf s = _ := congrArg (List.map _)
      (show levelGroups s = (if jtagOk s then [[Role.tms, .tck, .tdi]] else []) ++
        (if swdOk s then [[Role.swclk, .swdio]] else []) ++ [[Role.trst]] ++ [[Role.srst]] by simp [levelGroups])
    rw [e5, e6]
    simp only [List.filterMap_append, List.map_append]
    simp only [b12.pinOf, b13.pinOf] at b14
    exact b14

end Sys2Proof.Machine
end

