-- ==== Sys2Proof/Laws/Keeps.lean ====
section
/-! SUPPORT. A relation between the state before and after that every primitive respects is respected by every operation
made of them: each operation is taken apart once, here. -/

namespace Sys2Proof.Machine

variable {α β : Type} {R : State → State → Prop}

/-- Whenever this part of an operation completes, the state before and the state after are related. -/
def Keeps (R : State → State → Prop) (f : State → Res α) : Prop := ∀ s a t, f s = .ok a t → R s t

/-- The relations that compose. -/
structure Composes (R : State → State → Prop) : Prop where
  refl : ∀ s, R s s
  trans : ∀ s t u, R s t → R t u → R s u

theorem Keeps.andThen {f : State → Res α} {g : α → State → Res β} (hR : Composes R) (hf : Keeps R f)
    (hg : ∀ a, Keeps R (g a)) : Keeps R fun s => (f s).andThen g := by
  intro s b t h
  obtain ⟨a, m, hm, ht⟩ := andThen_eq_ok.1 h
  exact hR.trans _ _ _ (hf s a m hm) (hg a m b t ht)

theorem keeps_ok {f : State → State} {v : State → α} (h : ∀ s, R s (f s)) : Keeps R fun s => .ok (v s) (f s) := by
  intro s a t e
  cases e
  exact h s

theorem keeps_refused (e : Refusal) : Keeps R fun _ => (.refused e : Res α) := fun _ _ _ h => by cases h

theorem Keeps.ite {c : State → Prop} [DecidablePred c] {f g : State → Res α} (hf : Keeps R f) (hg : Keeps R g) :
    Keeps R fun s => if c s then f s else g s := by
  intro s a t h
  by_cases hc : c s
  · exact hf s a t (by simpa [hc] using h)
  · exact hg s a t (by simpa [hc] using h)

/-- The part may read its own argument from the state. -/
theorem Keeps.read {γ : Type} {v : State → γ} {f : γ → State → Res α} (hf : ∀ c, Keeps R (f c)) :
    Keeps R fun s => f (v s) s := fun s a t h => hf (v s) s a t h

/-- The relations that the primitives on the SWD wire respect. -/
structure OnWire (R : State → State → Prop) : Prop extends Composes R where
  drive : ∀ clk tms data, Keeps R (drive .swd clk tms data)
  readLine : Keeps R (readLine .swd)
  driveDirection : ∀ o, Keeps R (driveDirection o)

namespace OnWire

variable (h : OnWire R)
include h

theorem cycOut (b : Bool) : Keeps R (cycOut b) := .andThen h.toComposes (h.drive _ _ _) fun _ => h.drive _ _ _

theorem cycIn : Keeps R cycIn :=
  .andThen h.toComposes (h.drive _ _ _) fun _ => .andThen h.toComposes h.readLine fun b =>
    .andThen h.toComposes (h.drive _ _ _) fun _ => keeps_ok (f := id) (v := fun _ => b) h.refl

theorem swdOut (bs : List Bool) : Keeps R (swdOut bs) := by
  induction bs with
  | nil => exact keeps_ok (f := id) (v := fun _ => ()) h.refl
  | cons b bs ih => exact .andThen h.toComposes (h.cycOut b) fun _ => ih

theorem swdIn (n : Nat) : Keeps R (swdIn n) := by
  induction n with
  | zero => exact keeps_ok (f := id) (v := fun _ => []) h.refl
  | succ n ih =>
    exact .andThen h.toComposes h.cycIn fun b => .andThen h.toComposes ih fun bs =>
      keeps_ok (f := id) (v := fun _ => b :: bs) h.refl

theorem turnaround : Keeps R turnaround :=
  Keeps.andThen (f := fun s => Machine.swdIn s.cfg.trn s) h.toComposes (.read (v := fun s => s.cfg.trn) h.swdIn)
    fun _ => keeps_ok (f := id) (v := fun _ => ()) h.refl

theorem requestAndAck (hdr : Byte) : Keeps R (requestAndAck hdr) :=
  .andThen h.toComposes (h.swdOut _) fun _ => .andThen h.toComposes (h.driveDirection _) fun _ =>
    .andThen h.toComposes h.turnaround fun _ => .andThen h.toComposes (h.swdIn 3) fun bs =>
      keeps_ok (f := id) (v := fun _ => valueOfBits 3 bs) h.refl

theorem turnBack : Keeps R turnBack := .andThen h.toComposes h.turnaround fun _ => h.driveDirection _

theorem sendData (v : Word) (p : Bool) : Keeps R (sendData v p) := .andThen h.toComposes (h.swdOut _) fun _ => h.cycOut _

theorem receiveData : Keeps R receiveData :=
  .andThen h.toComposes (h.swdIn 32) fun bs => .andThen h.toComposes h.cycIn fun rp =>
    keeps_ok (f := id) (v := fun _ => (valueOfBits 32 bs, rp)) h.refl

theorem settle (hdr : Byte) : Keeps R (settle hdr) :=
  .ite (.read (v := fun s => s.apDelay) (f := idle) fun _ => h.swdOut _)
    (keeps_ok (f := id) (v := fun _ => ()) h.refl)

theorem writeFrame (hdr : Byte) (v : Word) (hl : ∀ c s, R s (latchFault c s)) : Keeps R (writeFrame hdr v) :=
  .andThen h.toComposes (h.requestAndAck hdr) fun ack => .andThen h.toComposes h.turnBack fun _ =>
    .ite (c := fun s => decodeAck s.cfg.toDecided ack = .ok) (.andThen h.toComposes (h.sendData _ _) fun _ => h.settle _)
      (keeps_ok (v := fun _ => ()) fun s => hl _ s)

theorem readFrame (hdr : Byte) (hl : ∀ c s, R s (latchFault c s)) (ha : ∀ v p s, R s (acceptData v p s)) :
    Keeps R (readFrame hdr) :=
  .andThen h.toComposes (h.requestAndAck hdr) fun ack =>
    .ite (c := fun s => decodeAck s.cfg.toDecided ack = .ok)
      (.andThen h.toComposes h.receiveData fun d => .andThen h.toComposes h.turnBack fun _ => fun s a t e =>
        h.trans _ _ _ (ha d.1 d.2 s) (h.settle hdr _ a t e))
      (.andThen h.toComposes h.turnBack fun _ => keeps_ok (v := fun _ => ()) fun s => hl _ s)

theorem lineReset : Keeps R lineReset :=
  .read (v := fun s => List.replicate s.cfg.lineResetLen true) h.swdOut

theorem jtagToSwd : Keeps R jtagToSwd :=
  Keeps.andThen (f := fun s => Machine.swdOut (wireBits s.cfg.seqJtagToSwd) s) h.toComposes
    (.read (v := fun s => wireBits s.cfg.seqJtagToSwd) h.swdOut)
    fun _ => .read (v := fun s => List.replicate s.cfg.switchIdle false) h.swdOut

theorem swdToJtag : Keeps R swdToJtag := .read (v := fun s => wireBits s.cfg.seqSwdToJtag) h.swdOut

end OnWire

/-- A stream of primitives. -/
theorem keeps_runStream (hR : Composes R) (hd : ∀ a b c, Keeps R (drive .jtag a b c)) (hr : Keeps R (readLine .jtag))
    (hx : ∀ a b, Keeps R (driveReset a b)) (ws : List StreamWord) : Keeps R (runStream ws) := by
  have one : ∀ w, Keeps R (runPrimitive w) := by
    have done : ∀ bs : List Bool, Keeps R fun s => .ok bs s := fun bs => keeps_ok (f := id) (v := fun _ => bs) hR.refl
    intro w
    cases w with
    | drive a b c => exact .andThen hR (hd a b c) fun _ => done _
    | read => exact .andThen hR hr fun _ => done _
    | reset a b => exact .andThen hR (hx a b) fun _ => done _
    | other w => exact done _
  induction ws with
  | nil => exact keeps_ok (f := id) (v := fun _ => []) hR.refl
  | cons w ws ih =>
    exact .andThen hR (one w) fun b => .andThen hR ih fun bs => keeps_ok (f := id) (v := fun _ => b ++ bs) hR.refl

/-- The effects of `INIT`, from those of its parts. -/
theorem keeps_initEffects (hR : Composes R) (hm : ∀ s m, R s { s with resHeld := true, tmode := m })
    (hl : ∀ a b, Keeps R (levelWrite a b)) (ho : ∀ x, Keeps R (claimOut x)) (hi : ∀ x, Keeps R (claimIn x))
    (hd : ∀ d s, R s (setDir d s)) (he : ∀ s, R s (setStatus .ok { flushBatch s with session := .active })) :
    Keeps R initEffects := by
  have out : ∀ r, Keeps R fun s => claimOut (pinOf r s) s := fun r => .read (v := pinOf r) ho
  have jt : Keeps R initJtag :=
    .andThen hR (.read (v := pinOf .tdo) hi) fun _ =>
      .andThen (f := fun s => levelWrite (pinOf .tms s).toList ((pinOf .tck s).toList ++ (pinOf .tdi s).toList) s) hR
        (fun s a t e => hl _ _ s a t e) fun _ => .andThen hR (out _) fun _ => .andThen hR (out _) fun _ => out _
  have sw : Keeps R initSwd :=
    .andThen (f := fun s => levelWrite [] ((pinOf .swclk s).toList ++ (pinOf .swdio s).toList) s) hR
      (fun s a t e => hl _ _ s a t e) fun _ => .andThen hR (out _) fun _ => .andThen hR (out _) fun _ =>
        keeps_ok (v := fun _ => ()) (hd _)
  have rs : ∀ r, Keeps R (initResetLine r) := by
    intro r s a t e
    unfold initResetLine at e
    split at e
    · cases e; exact hR.refl s
    · obtain ⟨_, m, hm, e⟩ := andThen_eq_ok.1 e
      exact hR.trans _ _ _ (hl _ _ _ _ _ hm) (ho _ _ _ _ e)
  have only : ∀ c k, Keeps R k → Keeps R (onlyIf c k) := by
    intro c k hk
    cases c
    · exact keeps_ok (f := id) (v := fun _ => ()) hR.refl
    · exact hk
  intro s a t e
  refine hR.trans _ _ _ (hm s (initMode (jtagOk s) (swdOk s))) ?_
  exact Keeps.andThen hR (only (jtagOk s) _ jt) (fun _ => .andThen hR (only (swdOk s) _ sw) fun _ =>
    .andThen hR (rs _) fun _ => .andThen hR (rs _) fun _ => keeps_ok (v := fun _ => ()) he) _ a t e

/-! Claims, and the parts of `INIT` and `QUIT`, taken apart. -/

/-- A claim that completes: one request, then the claim. -/
theorem claimOut_ok {x : Option Nat} {s t : State} {u : Unit} (h : claimOut x s = .ok u t) :
    ∃ p m, x = some p ∧ rendezvous s = .ok () m ∧ t = afterClaim .output p m := by
  obtain ⟨p, m, h1, h2⟩ := andThen_eq_ok.1 h
  obtain ⟨rfl, rfl⟩ := needPin_eq_ok.1 h1
  obtain ⟨_, m, h1, h2⟩ := andThen_eq_ok.1 h2
  cases h2
  exact ⟨p, m, rfl, h1, rfl⟩

theorem claimIn_ok {x : Option Nat} {s t : State} {u : Unit} (h : claimIn x s = .ok u t) :
    ∃ p m, x = some p ∧ rendezvous s = .ok () m ∧ t = afterClaim .input p m := by
  obtain ⟨p, m, h1, h2⟩ := andThen_eq_ok.1 h
  obtain ⟨rfl, rfl⟩ := needPin_eq_ok.1 h1
  obtain ⟨_, m, h1, h2⟩ := andThen_eq_ok.1 h2
  cases h2
  exact ⟨p, m, rfl, h1, rfl⟩

/-- A restore that completes: one request, then what there is to restore. -/
theorem restorePin_ok {p : Nat} {s t : State} {u : Unit} (h : restorePin p s = .ok u t) :
    ∃ m, rendezvous s = .ok () m ∧ t = giveUp p m := by
  obtain ⟨_, m, h1, h2⟩ := andThen_eq_ok.1 h
  cases h2
  exact ⟨m, h1, rfl⟩

/-- A turn of SWDIO that completes: a claim, then the direction and its event. -/
theorem driveDirection_ok {o : Bool} {s t : State} {u : Unit} (h : driveDirection o s = .ok u t) :
    enabled .swd s = true ∧ ∃ m, (if o then claimOut else claimIn) (pinOf .swdio s) s = .ok () m ∧
      t = record (.dir (if o then .out else .inp)) (setDir (if o then .out else .inp) m) := by
  unfold driveDirection at h
  split at h
  · next he =>
    cases o <;> obtain ⟨_, m, h1, h2⟩ := andThen_eq_ok.1 h <;> cases h2 <;> exact ⟨he, m, h1, rfl⟩
  · cases h

theorem keeps_restoreAll (hR : Composes R) (hr : ∀ p, Keeps R (restorePin p)) (ps : List Nat) :
    Keeps R (restoreAll ps) := by
  induction ps with
  | nil => exact keeps_ok (f := id) (v := fun _ => ()) hR.refl
  | cons p ps ih => exact .andThen hR (hr p) fun _ => ih

/-! All operations. -/

/-- The relations that every part of an operation respects, but for the parts that `INIT`, `QUIT`, `RUN_QUEUE` and
`SET_SPEED` have alone. -/
structure Everywhere (R : State → State → Prop) : Prop extends OnWire R where
  driveJtag : ∀ clk tms data, Keeps R (Machine.drive .jtag clk tms data)
  readJtag : Keeps R (Machine.readLine .jtag)
  driveReset : ∀ a b, Keeps R (Machine.driveReset a b)
  claimOut : ∀ x, Keeps R (Machine.claimOut x)
  claimIn : ∀ x, Keeps R (Machine.claimIn x)
  rendezvous : Keeps R Machine.rendezvous
  restorePin : ∀ p, Keeps R (Machine.restorePin p)
  status : ∀ c s, R s (setStatus c s)
  rout : ∀ w s, R s (setRout w s)
  jtagOut : ∀ (o : List Bool) (s : State), R s { s with jtagOut := o }
  batch : ∀ s : State, R s { s with batchOpen := true }
  latch : ∀ c s, R s (latchFault c s)
  accept : ∀ v p s, R s (acceptData v p s)
  apDelay : ∀ (n : Byte) (s : State), R s { s with apDelay := apDelayValue s.cfg.toDecided n }
  pincfg : ∀ (c : PinCfg) (s : State), s.session ≠ Session.active → R s { s with pincfg := c }
  coeff : ∀ (c : BitVec 31) (s : State), s.session ≠ Session.active → R s { s with coeff := c }
  offset : ∀ (c : BitVec 32) (s : State), s.session ≠ Session.active → R s { s with offset := c }
  base : ∀ (a : Word) (s : State), s.session ≠ Session.active → R s { s with base := baseValue s.cfg a }

namespace Everywhere

variable (h : Everywhere R)
include h

theorem returnCode (c : Code) : Keeps R (returnCode c) := keeps_ok (v := fun _ => ()) (h.status c)

theorem registerOperation {frame : State → Res Unit} (hf : Keeps R frame) : Keeps R (registerOperation frame) := by
  intro s a t e
  refine h.trans _ _ _ (h.batch s) ?_
  simp only [Machine.registerOperation] at e
  split at e
  · obtain ⟨_, m, h1, h2⟩ := andThen_eq_ok.1 e
    cases h2
    exact h.trans _ _ _ (hf _ _ _ h1) (h.status _ _)
  · cases e; exact h.status _ _

theorem whenInactive {k : State → State} (hk : ∀ s : State, s.session ≠ .active → R s (k s)) (s : State) :
    R s (whenInactive k s) := by
  unfold Machine.whenInactive
  split
  · exact h.status _ _
  · next hs => exact hk s hs

/-- Every operation but `INIT`, `QUIT`, `RUN_QUEUE` and `SET_SPEED` respects the relation. -/
theorem exec (i : Instr) (hi : i ≠ .init) (hq : i ≠ .quit) (hr : i ≠ .runQueue) (hs : ∀ k, i ≠ .setSpeed k)
    {s t : State} (e : exec i s = .next t) : R s t := by
  have fin : ∀ {f : State → Res Unit}, Keeps R f → finish (f s) = .next t → R s t := fun hf e =>
    hf _ _ _ (finish_eq_next.1 e)
  have nxt : ∀ {m : State}, (Host.Outcome.next m : Host.Outcome State Fault Refusal) = .next t → R s m → R s t := by
    intro m e hm; cases e; exact hm
  cases i with
  | cfgPin r x =>
    simp only [Machine.exec, execCfgPin] at e
    split at e
    · exact nxt e (h.status _ _)
    · exact nxt e (h.whenInactive (fun s hs => h.trans _ _ _ (h.pincfg _ s hs) (h.status _ _)) s)
  | cfgCoeff c =>
    refine nxt e (h.whenInactive (fun s hs => ?_) s)
    split
    · exact h.status _ _
    · exact h.trans _ _ _ (h.coeff _ s hs) (h.status _ _)
  | cfgOffset o => exact nxt e (h.whenInactive (fun s hs => h.trans _ _ _ (h.offset _ s hs) (h.status _ _)) s)
  | cfgBase a => exact nxt e (h.whenInactive (fun s hs => h.trans _ _ _ (h.base _ s hs) (h.status _ _)) s)
  | cfgApDelay n => exact nxt e (h.trans _ _ _ (h.apDelay n s) (h.status _ _))
  | init => exact absurd rfl hi
  | quit => exact absurd rfl hq
  | setSpeed k => exact absurd rfl (hs k)
  | speedToKhz d =>
    simp only [Machine.exec, execSpeedToKhz] at e
    split at e
    · exact nxt e (h.status _ _)
    · exact nxt e (h.trans _ _ _ (h.rout _ s) (h.status _ _))
  | khzToSpeed k =>
    simp only [Machine.exec, execKhzToSpeed] at e
    split at e
    · exact nxt e (h.status _ _)
    · exact nxt e (h.trans _ _ _ (h.rout _ s) (h.status _ _))
  | execJtag n ws =>
    simp only [Machine.exec, execExecJtag] at e
    split at e
    · exact nxt e (h.status _ _)
    · split at e
      · cases e
      · obtain ⟨_, m, h1, h2⟩ := andThen_eq_ok.1 (finish_eq_next.1 e)
        cases h2
        exact h.trans _ _ _ (keeps_runStream h.toComposes h.driveJtag h.readJtag h.driveReset ws _ _ _ h1)
          (h.trans _ _ _ (h.jtagOut _ m) (h.status _ _))
  | swdInit => simp only [Machine.exec, execSwdInit] at e; split at e <;> exact nxt e (h.status _ _)
  | switchLineReset =>
    simp only [Machine.exec, execSwitchLineReset, switchSequence] at e
    split at e
    · cases e
    · exact fin (f := fun s => (lineReset s).andThen fun _ s => Machine.returnCode .ok s)
        (.andThen h.toComposes h.lineReset fun _ => h.returnCode _) e
  | switchJtagToSwd =>
    simp only [Machine.exec, execSwitchJtagToSwd, switchSequence] at e
    split at e
    · cases e
    · exact fin (f := fun s => (jtagToSwd s).andThen fun _ s => Machine.returnCode .ok s)
        (.andThen h.toComposes h.jtagToSwd fun _ => h.returnCode _) e
  | switchSwdToJtag =>
    simp only [Machine.exec, execSwitchSwdToJtag, switchSequence] at e
    split at e
    · cases e
    · exact fin (f := fun s => (swdToJtag s).andThen fun _ s => Machine.returnCode .ok s)
        (.andThen h.toComposes h.swdToJtag fun _ => h.returnCode _) e
  | switchUnsupported _ => exact nxt e (h.status _ _)
  | readReg cmd =>
    simp only [Machine.exec, execReadReg] at e
    split at e
    · cases e
    · split at e
      · cases e
      · exact fin (h.registerOperation (h.readFrame _ h.latch h.accept)) e
  | writeReg cmd v =>
    simp only [Machine.exec, execWriteReg] at e
    split at e
    · cases e
    · split at e
      · cases e
      · exact fin (h.registerOperation (h.writeFrame _ _ h.latch)) e
  | runQueue => exact absurd rfl hr
  | drive f a b c => cases f <;> [exact fin (h.driveJtag _ _ _) e; exact fin (h.drive _ _ _) e]
  | read f =>
    obtain ⟨_, m, h1, h2⟩ := andThen_eq_ok.1 (finish_eq_next.1 e)
    cases h2
    cases f <;> [exact h.readJtag _ _ _ h1; exact h.readLine _ _ _ h1]
  | reset a b => exact fin (h.driveReset _ _) e
  | driveDirection o => exact fin (h.driveDirection o) e
  | validate p => exact nxt e (h.rout _ _)
  | claimOut p => exact h.claimOut _ _ _ _ (finish_eq_next.1 e)
  | claimIn p => exact h.claimIn _ _ _ _ (finish_eq_next.1 e)
  | restore p =>
    simp only [Machine.exec, execRestore] at e
    split at e
    · exact fin (h.restorePin _) e
    · exact fin h.rendezvous e
  | swdRequestDpWrite p a b => exact fin (h.swdOut _) e
  | swdRequestDpRead p a b => exact fin (h.swdOut _) e
  | swdRequestApWrite p a b => exact fin (h.swdOut _) e
  | swdRequestApRead p a b => exact fin (h.swdOut _) e
  | swdAckOk => exact nxt e (h.latch _ _)
  | swdAckWait => exact nxt e (h.latch _ _)
  | swdAckFault => exact nxt e (h.latch _ _)
  | swdAckUndecodable a => exact nxt e (h.latch _ _)
  | swdData v p =>
    simp only [Machine.exec, execSwdData] at e
    split at e
    · exact fin (h.sendData _ _) e
    · exact nxt e (h.accept _ _ _)
  | seqLineReset => exact fin h.lineReset e
  | seqJtagToSwd => exact fin h.jtagToSwd e
  | seqSwdToJtag => exact fin h.swdToJtag e
  | statusOk => exact nxt e (h.status _ _)
  | statusFail => exact nxt e (h.status _ _)
  | statusWait => exact nxt e (h.status _ _)
  | statusNotSupported => exact nxt e (h.status _ _)

theorem setSpeed (hd : ∀ (d : Word) (s : State), R s { s with delay := d }) {k : Word} {s t : State}
    (e : Machine.exec (.setSpeed k) s = .next t) : R s t := by
  simp only [Machine.exec, execSetSpeed] at e
  split at e <;> cases e
  · exact h.status _ _
  · exact h.trans _ _ _ (hd _ s) (h.status _ _)

theorem runQueue (hf : ∀ s, R s (flushBatch s)) {s t : State} (e : Machine.exec .runQueue s = .next t) : R s t := by
  simp only [Machine.exec, execRunQueue] at e
  split at e
  · cases e
  · obtain ⟨_, m, h1, h2⟩ := andThen_eq_ok.1 (finish_eq_next.1 e)
    cases h2
    exact h.trans _ _ _ (h.swdOut _ _ _ _ h1) (h.trans _ _ _ (hf m) (h.status _ _))

theorem init (ha : ∀ s, R s (drawAcquire s).2) (he : Keeps R initEffects) {s t : State}
    (e : Machine.exec .init s = .next t) : R s t := by
  simp only [Machine.exec, execInit] at e
  split at e
  · cases e; exact h.status _ _
  · obtain ⟨ok, m, h1, h2⟩ := andThen_eq_ok.1 (finish_eq_next.1 e)
    obtain ⟨_, n, h3, h4⟩ := andThen_eq_ok.1 h1
    cases h4
    refine h.trans _ _ _ (h.trans _ _ _ (h.rendezvous _ _ _ h3) (ha n)) ?_
    split at h2
    · exact he _ _ _ h2
    · exact h.returnCode _ _ _ _ h2

theorem quit (he : ∀ s : State, R s { s with resHeld := false, session := .inactive, tmode := .none }) {s t : State}
    (e : Machine.exec .quit s = .next t) : R s t := by
  simp only [Machine.exec, execQuit] at e
  split at e
  · cases e; exact h.status _ _
  · obtain ⟨_, m, h1, h2⟩ := andThen_eq_ok.1 (finish_eq_next.1 e)
    cases h2
    exact h.trans _ _ _ (keeps_restoreAll h.toComposes h.restorePin _ _ _ _ h1) (h.trans _ _ _ (he m) (h.status _ _))

end Everywhere

end Sys2Proof.Machine
end

