-- ==== Sys2Proof/Laws/PerInstr.lean ====
section
/-! SUPPORT. For each operation: its encoding is one of its own row of spec/opcode_table.json. -/

namespace Sys2Proof.Laws.TableRow

open Sys2Proof

/-- A row of spec/opcode_table.json: the width of its first word, its mask, its match, and for a fallback row the masks
and matches of the more specific rows, which it leaves out. -/
structure Row where
  nbits : Nat
  mask : Nat
  pattern : Nat
  except : List (Nat × Nat)

/-- The row of an operation, as the table gives it; a row without a mask has mask 0. -/
def rowOf : Instr → Row
  | .cfgPin _ _ => ⟨48, 0xFF0000000000, 0x010000000000, []⟩
  | .cfgCoeff _ => ⟨48, 0xFF0000000000, 0x020000000000, []⟩
  | .cfgOffset _ => ⟨48, 0xFF0000000000, 0x030000000000, []⟩
  | .cfgBase _ => ⟨48, 0xFF0000000000, 0x040000000000, []⟩
  | .cfgApDelay _ => ⟨48, 0xFF0000000000, 0x050000000000, []⟩
  | .init => ⟨48, 0xFF0000000000, 0x100000000000, []⟩
  | .quit => ⟨48, 0xFF0000000000, 0x110000000000, []⟩
  | .setSpeed _ => ⟨48, 0xFF0000000000, 0x120000000000, []⟩
  | .speedToKhz _ => ⟨48, 0xFF0000000000, 0x130000000000, []⟩
  | .khzToSpeed _ => ⟨48, 0xFF0000000000, 0x140000000000, []⟩
  | .execJtag _ _ => ⟨48, 0xFF0000000000, 0x150000000000, []⟩
  | .swdInit => ⟨48, 0xFF0000000000, 0x200000000000, []⟩
  | .switchLineReset => ⟨48, 0xFFFF00000000, 0x210000000000, []⟩
  | .switchJtagToSwd => ⟨48, 0xFFFF00000000, 0x210100000000, []⟩
  | .switchSwdToJtag => ⟨48, 0xFFFF00000000, 0x210200000000, []⟩
  | .switchUnsupported _ => ⟨48, 0xFF0000000000, 0x210000000000,
    [(0xFFFF00000000, 0x210000000000), (0xFFFF00000000, 0x210100000000), (0xFFFF00000000, 0x210200000000)]⟩
  | .readReg _ => ⟨48, 0xFF0000000000, 0x220000000000, []⟩
  | .writeReg _ _ => ⟨48, 0xFF0000000000, 0x230000000000, []⟩
  | .runQueue => ⟨48, 0xFF0000000000, 0x240000000000, []⟩
  | .drive _ _ _ _ => ⟨48, 0xFF0000000000, 0x300000000000, []⟩
  | .read _ => ⟨48, 0xFF0000000000, 0x310000000000, []⟩
  | .reset _ _ => ⟨48, 0xFF0000000000, 0x320000000000, []⟩
  | .driveDirection _ => ⟨48, 0xFF0000000000, 0x330000000000, []⟩
  | .validate _ => ⟨48, 0xFF0000000000, 0x400000000000, []⟩
  | .claimOut _ => ⟨48, 0xFF0000000000, 0x410000000000, []⟩
  | .claimIn _ => ⟨48, 0xFF0000000000, 0x420000000000, []⟩
  | .restore _ => ⟨48, 0xFF0000000000, 0x430000000000, []⟩
  | .swdRequestDpWrite _ _ _ => ⟨8, 0xC7, 0x81, []⟩
  | .swdRequestDpRead _ _ _ => ⟨8, 0xC7, 0x85, []⟩
  | .swdRequestApWrite _ _ _ => ⟨8, 0xC7, 0x83, []⟩
  | .swdRequestApRead _ _ _ => ⟨8, 0xC7, 0x87, []⟩
  | .swdAckOk => ⟨3, 0x7, 0x1, []⟩
  | .swdAckWait => ⟨3, 0x7, 0x2, []⟩
  | .swdAckFault => ⟨3, 0x7, 0x4, []⟩
  | .swdAckUndecodable _ => ⟨3, 0x0, 0x0, [(0x7, 0x1), (0x7, 0x2), (0x7, 0x4)]⟩
  | .swdData _ _ => ⟨33, 0x0, 0x0, []⟩
  | .seqLineReset => ⟨56, 0xffffffffffffff, 0xffffffffffffff, []⟩
  | .seqJtagToSwd => ⟨16, 0xFFFF, 0xE79E, []⟩
  | .seqSwdToJtag => ⟨16, 0xFFFF, 0xE73C, []⟩
  | .statusOk => ⟨2, 0x3, 0x0, []⟩
  | .statusFail => ⟨2, 0x3, 0x1, []⟩
  | .statusWait => ⟨2, 0x3, 0x2, []⟩
  | .statusNotSupported => ⟨2, 0x3, 0x3, []⟩

/-- A word of `n` bits is one of a row. -/
def inRow {n : Nat} (w : BitVec n) (r : Row) : Prop :=
  r.nbits = n ∧ w &&& BitVec.ofNat n r.mask = BitVec.ofNat n r.pattern ∧
    ∀ e ∈ r.except, w &&& BitVec.ofNat n e.1 ≠ BitVec.ofNat n e.2

/-- A frame is one of a row: its first word is. -/
def frameInRow (r : Row) : Frame → Prop
  | .words [] => False
  | .words (w :: _) => inRow w r
  | .request b => inRow b r
  | .ack b => inRow b r
  | .data b => inRow b r
  | .seq16 b => inRow b r
  | .seqReset b => inRow b r
  | .status b => inRow b r

/-- The encoding of a well-formed operation is one of its row. -/
def Statement (i : Instr) : Prop := i.wf = true → frameInRow (rowOf i) (encode i)

/-- What a mask that takes whole fields leaves of a command word (spec/30_encoding.md R60). -/
theorem commandWord_and (op a8 mop ma8 : Byte) (a32 : Word) :
    commandWord op a8 a32 &&& (mop ++ ma8 ++ 0#32) = (op &&& mop) ++ (a8 &&& ma8) ++ 0#32 := by
  unfold commandWord
  rw [BitVec.and_append, BitVec.and_append, BitVec.and_zero]

/-- A command word is in the row of its operation code. -/
theorem oneWord_row (op a8 : Byte) (a32 : Word) (pattern : Nat) (h : op ++ 0#8 ++ 0#32 = BitVec.ofNat 48 pattern) :
    frameInRow ⟨48, 0xFF0000000000, pattern, []⟩ (oneWord op a8 a32) := by
  refine ⟨rfl, ?_, by simp⟩
  rw [← h, show BitVec.ofNat 48 0xFF0000000000 = BitVec.allOnes 8 ++ 0#8 ++ 0#32 by decide, commandWord_and,
    BitVec.and_allOnes, BitVec.and_zero]

/-- A sequence's command word is in the row of its identifier. -/
theorem switch_row (id : Byte) (pattern : Nat) (h : (0x21 : Byte) ++ id ++ 0#32 = BitVec.ofNat 48 pattern) :
    frameInRow ⟨48, 0xFFFF00000000, pattern, []⟩ (oneWord 0x21 id 0) := by
  refine ⟨rfl, ?_, by simp⟩
  rw [← h, show BitVec.ofNat 48 0xFFFF00000000 = BitVec.allOnes 8 ++ BitVec.allOnes 8 ++ 0#32 by decide, commandWord_and,
    BitVec.and_allOnes, BitVec.and_allOnes]

theorem cfgPin (role : Byte) (pin : PinOperand) : Statement (.cfgPin role pin) :=
  fun _ => oneWord_row 0x01 role (encodePin pin) _ (by decide)

theorem cfgCoeff (c : Word) : Statement (.cfgCoeff c) :=
  fun _ => oneWord_row 0x02 0 c _ (by decide)

theorem cfgOffset (o : Word) : Statement (.cfgOffset o) :=
  fun _ => oneWord_row 0x03 0 o _ (by decide)

theorem cfgBase (a : Word) : Statement (.cfgBase a) :=
  fun _ => oneWord_row 0x04 0 a _ (by decide)

theorem cfgApDelay (n : Byte) : Statement (.cfgApDelay n) :=
  fun _ => oneWord_row 0x05 n 0 _ (by decide)

theorem init : Statement (.init) :=
  fun _ => oneWord_row 0x10 0 0 _ (by decide)

theorem quit : Statement (.quit) :=
  fun _ => oneWord_row 0x11 0 0 _ (by decide)

theorem setSpeed (k : Word) : Statement (.setSpeed k) :=
  fun _ => oneWord_row 0x12 0 k _ (by decide)

theorem speedToKhz (d : Word) : Statement (.speedToKhz d) :=
  fun _ => oneWord_row 0x13 0 d _ (by decide)

theorem khzToSpeed (k : Word) : Statement (.khzToSpeed k) :=
  fun _ => oneWord_row 0x14 0 k _ (by decide)

theorem execJtag (n : Word) (ws : List StreamWord) : Statement (.execJtag n ws) :=
  fun _ => oneWord_row 0x15 0 n _ (by decide)

theorem swdInit : Statement (.swdInit) :=
  fun _ => oneWord_row 0x20 0 0 _ (by decide)

theorem switchLineReset : Statement .switchLineReset := fun _ => switch_row 0 _ (by decide)

theorem switchJtagToSwd : Statement .switchJtagToSwd := fun _ => switch_row 1 _ (by decide)

theorem switchSwdToJtag : Statement .switchSwdToJtag := fun _ => switch_row 2 _ (by decide)

theorem switchUnsupported (id : Byte) : Statement (.switchUnsupported id) := by
  intro h
  obtain ⟨h1, h2, -⟩ := oneWord_row 0x21 id 0 0x210000000000 (by decide)
  refine ⟨h1, h2, ?_⟩
  have hid : 3 ≤ id.toNat := by simpa [Instr.wf] using h
  have key : commandWord 0x21 id 0 &&& BitVec.ofNat 48 0xFFFF00000000 = (0x21 : Byte) ++ id ++ 0#32 := by
    rw [show BitVec.ofNat 48 0xFFFF00000000 = BitVec.allOnes 8 ++ BitVec.allOnes 8 ++ 0#32 by decide, commandWord_and,
      BitVec.and_allOnes, BitVec.and_allOnes]
  have field : ∀ k : Byte, k.toNat < 3 → (0x21 : Byte) ++ id ++ 0#32 ≠ (0x21 : Byte) ++ k ++ 0#32 := by
    intro k hk he
    have h' := congrArg (fun x => (x.extractLsb' 32 16).extractLsb' 0 8) he
    simp only [BitVec.extractLsb'_append_eq_left, BitVec.extractLsb'_append_eq_right] at h'
    rw [h'] at hid
    omega
  simp only [rowOf, List.mem_cons, List.not_mem_nil, or_false]
  rintro e (rfl | rfl | rfl) <;> rw [key]
  · exact field 0 (by decide)
  · exact field 1 (by decide)
  · exact field 2 (by decide)

theorem readReg (c : Byte) : Statement (.readReg c) :=
  fun _ => oneWord_row 0x22 c 0 _ (by decide)

theorem writeReg (c : Byte) (v : Word) : Statement (.writeReg c v) :=
  fun _ => oneWord_row 0x23 c v _ (by decide)

theorem runQueue : Statement (.runQueue) :=
  fun _ => oneWord_row 0x24 0 0 _ (by decide)

theorem drive (f : Flavour) (c t d : Bool) : Statement (.drive f c t d) :=
  fun _ => oneWord_row 0x30 (packBits c t d (flavourBit f)) 0 _ (by decide)

theorem read (f : Flavour) : Statement (.read f) :=
  fun _ => oneWord_row 0x31 (packBits false false false (flavourBit f)) 0 _ (by decide)

theorem reset (t s : Bool) : Statement (.reset t s) :=
  fun _ => oneWord_row 0x32 (packBits t s false false) 0 _ (by decide)

theorem driveDirection (o : Bool) : Statement (.driveDirection o) :=
  fun _ => oneWord_row 0x33 (packBits o false false false) 0 _ (by decide)

theorem validate (p : PinOperand) : Statement (.validate p) :=
  fun _ => oneWord_row 0x40 0 (encodePin p) _ (by decide)

theorem claimOut (p : PinOperand) : Statement (.claimOut p) :=
  fun _ => oneWord_row 0x41 0 (encodePin p) _ (by decide)

theorem claimIn (p : PinOperand) : Statement (.claimIn p) :=
  fun _ => oneWord_row 0x42 0 (encodePin p) _ (by decide)

theorem restore (p : PinOperand) : Statement (.restore p) :=
  fun _ => oneWord_row 0x43 0 (encodePin p) _ (by decide)

theorem swdRequestDpWrite (p a3 a2 : Bool) : Statement (.swdRequestDpWrite p a3 a2) := by
  intro _
  refine ⟨rfl, ?_, by simp [rowOf]⟩
  cases p <;> cases a3 <;> cases a2 <;> rfl

theorem swdRequestDpRead (p a3 a2 : Bool) : Statement (.swdRequestDpRead p a3 a2) := by
  intro _
  refine ⟨rfl, ?_, by simp [rowOf]⟩
  cases p <;> cases a3 <;> cases a2 <;> rfl

theorem swdRequestApWrite (p a3 a2 : Bool) : Statement (.swdRequestApWrite p a3 a2) := by
  intro _
  refine ⟨rfl, ?_, by simp [rowOf]⟩
  cases p <;> cases a3 <;> cases a2 <;> rfl

theorem swdRequestApRead (p a3 a2 : Bool) : Statement (.swdRequestApRead p a3 a2) := by
  intro _
  refine ⟨rfl, ?_, by simp [rowOf]⟩
  cases p <;> cases a3 <;> cases a2 <;> rfl

theorem swdAckOk : Statement .swdAckOk := fun _ => ⟨rfl, by decide, by simp [rowOf]⟩

theorem swdAckWait : Statement .swdAckWait := fun _ => ⟨rfl, by decide, by simp [rowOf]⟩

theorem swdAckFault : Statement .swdAckFault := fun _ => ⟨rfl, by decide, by simp [rowOf]⟩

theorem swdAckUndecodable (a : BitVec 3) : Statement (.swdAckUndecodable a) := by
  intro h
  simp only [Instr.wf, Bool.and_eq_true, bne_iff_ne, ne_eq] at h
  refine ⟨rfl, by simp [rowOf], ?_⟩
  simp only [rowOf, List.mem_cons, List.not_mem_nil, or_false]
  have e : BitVec.ofNat 3 7 = BitVec.allOnes 3 := by decide
  rintro x (rfl | rfl | rfl) <;> rw [e, BitVec.and_allOnes]
  · exact h.1.1
  · exact h.1.2
  · exact h.2

theorem swdData (v : Word) (p : Bool) : Statement (.swdData v p) :=
  fun _ => ⟨rfl, by simp [rowOf], by simp [rowOf]⟩

theorem seqLineReset : Statement .seqLineReset := fun _ => ⟨rfl, by decide, by simp [rowOf]⟩

theorem seqJtagToSwd : Statement .seqJtagToSwd := fun _ => ⟨rfl, by decide, by simp [rowOf]⟩

theorem seqSwdToJtag : Statement .seqSwdToJtag := fun _ => ⟨rfl, by decide, by simp [rowOf]⟩

theorem statusOk : Statement .statusOk := fun _ => ⟨rfl, by decide, by simp [rowOf]⟩

theorem statusFail : Statement .statusFail := fun _ => ⟨rfl, by decide, by simp [rowOf]⟩

theorem statusWait : Statement .statusWait := fun _ => ⟨rfl, by decide, by simp [rowOf]⟩

theorem statusNotSupported : Statement .statusNotSupported := fun _ => ⟨rfl, by decide, by simp [rowOf]⟩

end Sys2Proof.Laws.TableRow
end

