-- ==== Sys2Proof/Laws/Requests.lean ====
section
/-! SUPPORT. Operations as runs of their primitives, each of which makes one request of the co-processor, and where a
co-processor that falls silent stops such a run (spec/60_exceptions.md R211, R212). -/

namespace Sys2Proof.Machine

/-! A run of operations as a part of one. -/

theorem andThen_assoc {α β γ : Type} (r : Res α) (f : α → State → Res β) (g : β → State → Res γ) :
    (r.andThen f).andThen g = r.andThen fun a t => (f a t).andThen g := by cases r <;> rfl

/-- An outcome as a part of an operation. -/
def asPart (o : Host.Outcome State Fault Refusal) : Res Unit :=
  match o with
  | .next t => .ok () t
  | .fault (.stuck h) => .stuck h
  | .refused e => .refused e

@[simp] theorem asPart_finish (r : Res Unit) : asPart (finish r) = r := by cases r <;> rfl

@[simp] theorem finish_asPart (o : Host.Outcome State Fault Refusal) : finish (asPart o) = o := by
  rcases o with t | ⟨h⟩ | e <;> rfl

/-- The operations of a list, one after another, as a part of an operation. -/
def runAll (ops : List Instr) (s : State) : Res Unit := asPart (execAll ops s)

@[simp] theorem runAll_nil (s : State) : runAll [] s = .ok () s := rfl

theorem runAll_cons (i : Instr) (is : List Instr) (s : State) :
    runAll (i :: is) s = (asPart (exec i s)).andThen fun _ t => runAll is t := by
  simp only [runAll, execAll]
  rcases exec i s with t | ⟨h⟩ | e <;> rfl

theorem runAll_append (a b : List Instr) (s : State) :
    runAll (a ++ b) s = (runAll a s).andThen fun _ t => runAll b t := by
  induction a generalizing s with
  | nil => rfl
  | cons i a ih =>
    rw [List.cons_append, runAll_cons, runAll_cons]
    cases asPart (exec i s) <;> simp [ih]

theorem runAll_eq_ok {ops : List Instr} {s t : State} : runAll ops s = .ok () t ↔ execAll ops s = .next t := by
  rw [← finish_asPart (execAll ops s), finish_eq_next]; rfl

theorem runAll_eq_stuck {ops : List Instr} {s h : State} :
    runAll ops s = .stuck h ↔ execAll ops s = .fault (.stuck h) := by
  rw [← finish_asPart (execAll ops s), finish_eq_fault]
  constructor
  · exact fun e => ⟨h, e, rfl⟩
  · rintro ⟨g, e, hg⟩; cases hg; exact e

/-! Sending and taking bits are runs of primitives. -/

theorem swdOut_eq_runAll (bs : List Bool) (s : State) : swdOut bs s = runAll (driveInstrs bs) s := by
  induction bs generalizing s with
  | nil => rfl
  | cons b bs ih =>
    have : driveInstrs (b :: bs) = [.drive .swd false false b, .drive .swd true false b] ++ driveInstrs bs := rfl
    rw [this, runAll_append, swdOut]
    have : runAll [.drive .swd false false b, .drive .swd true false b] s = cycOut b s := by
      simp only [runAll_cons, exec, execDrive, asPart_finish, runAll_nil, cycOut]
      cases drive .swd false false b s with
      | ok _ t => simp only [andThen_ok]; cases drive .swd true false b t <;> rfl
      | stuck h => rfl
      | refused e => rfl
    rw [this]
    cases cycOut b s <;> simp [ih]

/-- A part without the value it ends with. -/
def valueless {α : Type} (r : Res α) : Res Unit := r.andThen fun _ t => .ok () t

@[simp] theorem valueless_ok {α : Type} (a : α) (t : State) : valueless (.ok a t) = .ok () t := rfl
@[simp] theorem valueless_stuck {α : Type} (h : State) : valueless (.stuck h : Res α) = .stuck h := rfl
@[simp] theorem valueless_refused {α : Type} (e : Refusal) : valueless (.refused e : Res α) = .refused e := rfl

theorem valueless_andThen {α β : Type} (r : Res α) (f : α → State → Res β) :
    valueless (r.andThen f) = r.andThen fun a t => valueless (f a t) := by cases r <;> rfl

theorem valueless_unit (r : Res Unit) : valueless r = r := by cases r <;> rfl

theorem andThen_const {α β : Type} (r : Res α) (f : State → Res β) :
    r.andThen (fun _ t => f t) = (valueless r).andThen fun _ t => f t := by cases r <;> rfl

theorem sampleInstrs_add (m n : Nat) : sampleInstrs (m + n) = sampleInstrs m ++ sampleInstrs n := by
  simp only [sampleInstrs, List.replicate_add, List.flatten_append]

theorem cycIn_eq_runAll (s : State) : valueless (cycIn s) = runAll (sampleInstrs 1) s := by
  have : sampleInstrs 1 = [.drive .swd false false false, .read .swd, .drive .swd true false false] := rfl
  rw [this]
  simp only [runAll_cons, exec, execDrive, execRead, asPart_finish, runAll_nil, cycIn, valueless_andThen]
  cases drive .swd false false false s with
  | ok _ t =>
    simp only [andThen_ok]
    cases readLine .swd t with
    | ok b u => simp only [andThen_ok, valueless_ok]
    | stuck h => rfl
    | refused e => rfl
  | stuck h => rfl
  | refused e => rfl

theorem swdIn_eq_runAll (n : Nat) (s : State) : valueless (swdIn n s) = runAll (sampleInstrs n) s := by
  induction n generalizing s with
  | zero => rfl
  | succ n ih =>
    rw [Nat.add_comm n 1, sampleInstrs_add, runAll_append, ← cycIn_eq_runAll, Nat.add_comm 1 n, swdIn, valueless_andThen]
    cases cycIn s with
    | ok b t =>
      simp only [andThen_ok, valueless_ok, ← ih, valueless_andThen]
      cases swdIn n t <;> rfl
    | stuck h => rfl
    | refused e => rfl

theorem driveDirection_eq_runAll (o : Bool) (s : State) : driveDirection o s = runAll [.driveDirection o] s := by
  simp only [runAll_cons, exec, execDriveDirection, asPart_finish, runAll_nil]
  exact (valueless_unit _).symm

/-! What a run on the SWD wire leaves alone, whatever the co-processor does. -/

/-- The fields that the frames of the engine read, unchanged. -/
def FrameInputs (s t : State) : Prop :=
  t.cfg = s.cfg ∧ t.pincfg = s.pincfg ∧ t.qcode = s.qcode ∧ t.apDelay = s.apDelay

theorem frameInputs_level {pins : List Nat} {s t : State} (h : LevelActivity pins s t) : FrameInputs s t :=
  ⟨h.cfg, h.pincfg, by rw [h.fields], by rw [h.fields]⟩

theorem frameInputs_claim {x : Option Nat} {s t : State} {u : Unit} (o : Bool)
    (h : (if o then claimOut else claimIn) x s = .ok u t) : FrameInputs s t := by
  have one : ∀ m p n, rendezvous s = .ok () n → FrameInputs s (afterClaim m p n) := fun m p n hn => by
    rw [afterClaim_fields, rendezvous_ok hn]
    exact ⟨rfl, rfl, rfl, rfl⟩
  cases o
  · obtain ⟨p, n, -, hn, rfl⟩ := claimIn_ok h; exact one _ _ _ hn
  · obtain ⟨p, n, -, hn, rfl⟩ := claimOut_ok h; exact one _ _ _ hn

theorem onWire_frameInputs : OnWire FrameInputs where
  refl := fun _ => ⟨rfl, rfl, rfl, rfl⟩
  trans := fun _ _ _ h k => ⟨k.1.trans h.1, k.2.1.trans h.2.1, k.2.2.1.trans h.2.2.1, k.2.2.2.trans h.2.2.2⟩
  drive := fun _ _ _ _ _ _ h => frameInputs_level (levelActivity_drive h)
  readLine := fun _ _ _ h => frameInputs_level (levelActivity_readLine [] h)
  driveDirection := fun o s _ t h => by
    obtain ⟨-, m, hm, rfl⟩ := driveDirection_ok h
    have := frameInputs_claim o hm
    exact this

/-! The frames are runs of primitives. -/

/-- The first part of a frame, without the ACK it ends with. -/
theorem requestAndAck_eq_runAll {s : State} (h : s.cfg.trn = 1) (hdr : Byte) :
    valueless (requestAndAck hdr s) = runAll (requestInstrs hdr) s := by
  have e : requestInstrs hdr = driveInstrs (wireBits hdr) ++ [.driveDirection false] ++ sampleInstrs 1 ++ sampleInstrs 3 := by
    simp only [requestInstrs, show (4 : Nat) = 1 + 3 from rfl, sampleInstrs_add, List.append_assoc,
      List.cons_append, List.nil_append]
  rw [e, runAll_append, runAll_append, runAll_append, ← swdOut_eq_runAll, requestAndAck, sendRequest]
  cases e1 : swdOut (wireBits hdr) s with
  | stuck h => rfl
  | refused e => rfl
  | ok _ t =>
    simp only [andThen_ok, ← driveDirection_eq_runAll]
    cases e2 : driveDirection false t with
    | stuck h => rfl
    | refused e => rfl
    | ok _ u =>
      have htrn : u.cfg.trn = 1 := by
        rw [(onWire_frameInputs.driveDirection _ _ _ _ e2).1, (onWire_frameInputs.swdOut _ _ _ _ e1).1, h]
      simp only [andThen_ok, turnaround, htrn, ← swdIn_eq_runAll]
      cases swdIn 1 u with
      | stuck h => rfl
      | refused e => rfl
      | ok _ v => simp only [andThen_ok, valueless_ok]; cases swdIn 3 v <;> rfl

theorem turnBack_eq_runAll {s : State} (h : s.cfg.trn = 1) : turnBack s = runAll turnBackInstrs s := by
  rw [turnBackInstrs, runAll_append, ← swdIn_eq_runAll, turnBack, turnaround, h]
  cases swdIn 1 s with
  | stuck h => rfl
  | refused e => rfl
  | ok _ t => simp only [andThen_ok, valueless_ok, driveDirection_eq_runAll]

theorem driveInstrs_append (a b : List Bool) : driveInstrs (a ++ b) = driveInstrs a ++ driveInstrs b := by
  simp [driveInstrs]

theorem sendData_eq_runAll (v : Word) (p : Bool) (s : State) :
    sendData v p s = runAll (driveInstrs (wireBits v ++ [p])) s := by
  rw [driveInstrs_append, runAll_append, ← swdOut_eq_runAll, sendData]
  cases swdOut (wireBits v) s with
  | stuck h => rfl
  | refused e => rfl
  | ok _ t =>
    simp only [andThen_ok, ← swdOut_eq_runAll, swdOut]
    cases cycOut p t <;> rfl

theorem receiveData_eq_runAll (s : State) : valueless (receiveData s) = runAll (sampleInstrs 33) s := by
  rw [show (33 : Nat) = 32 + 1 from rfl, sampleInstrs_add, runAll_append, ← swdIn_eq_runAll, receiveData, valueless_andThen]
  cases swdIn 32 s with
  | stuck h => rfl
  | refused e => rfl
  | ok _ t =>
    simp only [andThen_ok, valueless_ok, ← cycIn_eq_runAll]
    cases cycIn t <;> rfl

/-- The idle cycles after a frame. -/
theorem settle_eq_runAll (hdr : Byte) (s : State) :
    settle hdr s = runAll (if hdr.getLsbD 1 = true ∧ s.qcode = .ok then driveInstrs (List.replicate s.apDelay false) else []) s := by
  by_cases h : hdr.getLsbD 1 = true ∧ s.qcode = .ok
  · rw [if_pos h, settle, if_pos (by simpa using h), idle, swdOut_eq_runAll]
  · rw [if_neg h, settle, if_neg (by simpa using h)]; rfl

/-! The same value both ways. -/

/-- A part that completes through the co-processor ends with the value it ends with directly, in the same state. -/
theorem Uniform.same {α : Type} {f : State → Res α} (hf : Uniform f) {s t u : State} {a b : α} (hc : s.cfg.impl = .coproc)
    (h : f s = .ok a t) {x : Source} (hd : f (reached .direct x s) = .ok b u) : a = b ∧ u = reached .direct x t := by
  have hs : reached .coproc s.coprocSrc s = s := by rw [← hc]; rfl
  rcases hf s with ⟨k, v, m, h'⟩ | ⟨k, e, h'⟩
  · rw [h'.direct] at hd
    cases hd
    cases hk : answered k s.coprocSrc with
    | none => obtain ⟨g, hg, -⟩ := h'.silent _ hk; rw [hs, h] at hg; cases hg
    | some y =>
      have := h'.answers _ _ hk
      rw [hs, h] at this
      cases this
      exact ⟨rfl, rfl⟩
  · rw [h'.direct] at hd; cases hd

/-! Where a silent co-processor stops a run. -/

/-- An operation that makes one request, first of all, wherever `P` holds, and keeps `P` when it is answered. -/
structure OneRequest (P : State → Prop) (i : Instr) : Prop where
  answered : ∀ (s : State) (bs : List Bool), P s → s.cfg.impl = .coproc → s.coprocSrc.given = true :: bs →
    ∃ t, exec i s = .next t ∧ P t ∧ t.cfg.impl = .coproc ∧ t.coprocSrc = ⟨bs, s.coprocSrc.used⟩
  silent : ∀ (s : State) (bs : List Bool), P s → s.cfg.impl = .coproc → s.coprocSrc.given = false :: bs →
    exec i s = .fault (.stuck { s with coprocSrc := ⟨bs, s.coprocSrc.used⟩ })

section Runs

variable {P : State → Prop} {s : State} {rest : List Bool} {ops : List Instr}

/-- With enough answers a run completes and takes one answer for each of its operations. -/
theorem runAll_answered (hops : ∀ i ∈ ops, OneRequest P i) (hP : P s) (hc : s.cfg.impl = .coproc)
    (hg : s.coprocSrc.given = List.replicate ops.length true ++ rest) :
    ∃ t, runAll ops s = .ok () t ∧ P t ∧ t.cfg.impl = .coproc ∧ t.coprocSrc = ⟨rest, s.coprocSrc.used⟩ := by
  induction ops generalizing s with
  | nil => exact ⟨s, rfl, hP, hc, by rw [← (show s.coprocSrc.given = rest by simpa using hg)]⟩
  | cons i is ih =>
    obtain ⟨m, e, hm, hmc, hx⟩ := (hops i (by simp)).answered s _ hP hc hg
    obtain ⟨t, e', ht, htc, hy⟩ := ih (fun j hj => hops j (by simp [hj])) hm hmc (by rw [hx]; rfl)
    exact ⟨t, by rw [runAll_cons, e]; exact e', ht, htc, by rw [hy, hx]⟩

/-- Silent after `k` answers, a run hangs in its next operation, with what the first `k` did in force. -/
theorem runAll_silent (hops : ∀ i ∈ ops, OneRequest P i) (hP : P s) (hc : s.cfg.impl = .coproc) {k : Nat}
    (hk : k < ops.length) (hg : s.coprocSrc.given = List.replicate k true ++ false :: rest) :
    ∃ u, execAll (ops.take k) s = .next u ∧ runAll ops s = .stuck { u with coprocSrc := ⟨rest, u.coprocSrc.used⟩ } := by
  have hlen : (ops.take k).length = k := by simp; omega
  obtain ⟨u, e, hu, huc, hx⟩ := runAll_answered (ops := ops.take k) (fun i hi => hops i (List.mem_of_mem_take hi)) hP hc
    (by rw [hlen]; exact hg)
  refine ⟨u, runAll_eq_ok.1 e, ?_⟩
  have hd : ops = ops.take k ++ ops[k] :: ops.drop (k + 1) := by rw [List.getElem_cons_drop, List.take_append_drop]
  conv => lhs; rw [hd]
  rw [runAll_append, e, andThen_ok, runAll_cons, (hops _ (List.getElem_mem hk)).silent u _ hu huc (by rw [hx])]
  rfl

end Runs

/-- The answers that come before a run ends. -/
theorem answers_split {n k : Nat} (h : n ≤ k) (rest : List Bool) :
    List.replicate k true ++ false :: rest = List.replicate n true ++ (List.replicate (k - n) true ++ false :: rest) := by
  rw [← List.append_assoc, List.replicate_append_replicate, Nat.add_sub_cancel' h]

/-! The primitives of the SWD wire make one request each. -/

theorem rendezvous_answered {s : State} (hc : s.cfg.impl = .coproc) {bs : List Bool} (hg : s.coprocSrc.given = true :: bs) :
    rendezvous s = .ok () { s with coprocSrc := ⟨bs, s.coprocSrc.used⟩ } := by
  simp [rendezvous, hc, Source.draw, hg]

theorem rendezvous_silent {s : State} (hc : s.cfg.impl = .coproc) {bs : List Bool} (hg : s.coprocSrc.given = false :: bs) :
    rendezvous s = .stuck { s with coprocSrc := ⟨bs, s.coprocSrc.used⟩ } := by
  simp [rendezvous, hc, Source.draw, hg]

theorem flavourReady_congr {f : Flavour} {s t : State} (hs : t.session = s.session) (hm : t.tmode = s.tmode)
    (hc : t.cfg = s.cfg) (hp : t.pincfg = s.pincfg) (h : flavourReady f s) : flavourReady f t :=
  ⟨by simpa [enabled, hs, hm] using h.1, fun r hr => by rw [pinOf_congr r hc hp]; exact h.2 r hr⟩

theorem swdPins {s : State} (h : flavourReady .swd s) : ∃ c d, pinOf .swclk s = some c ∧ pinOf .swdio s = some d := by
  obtain ⟨c, hc⟩ := Option.ne_none_iff_exists'.1 (h.2 .swclk (by simp [flavourRoles]))
  obtain ⟨d, hd⟩ := Option.ne_none_iff_exists'.1 (h.2 .swdio (by simp [flavourRoles]))
  exact ⟨c, d, hc, hd⟩

theorem oneRequest_drive (clk tms data : Bool) : OneRequest (flavourReady .swd) (.drive .swd clk tms data) where
  answered := fun s bs h hc hg => by
    obtain ⟨c, d, h1, h2⟩ := swdPins h
    refine ⟨waitDelay (record (.lv .swd clk none data) (applyLevels (setMask [(c, clk), (d, data)])
      (clrMask [(c, clk), (d, data)]) { s with coprocSrc := ⟨bs, s.coprocSrc.used⟩ })), ?_, ?_, ?_, ?_⟩
    · simp [exec, execDrive, drive, h.1, driveLevels, h1, h2, needPin, levelWrite, rendezvous_answered hc hg, tmsShown]
    · rw [applyLevels_state]; exact flavourReady_congr rfl rfl rfl rfl h
    · rw [applyLevels_state]; exact hc
    · rw [applyLevels_state]; rfl
  silent := fun s bs h hc hg => by
    obtain ⟨c, d, h1, h2⟩ := swdPins h
    simp [exec, execDrive, drive, h.1, driveLevels, h1, h2, needPin, levelWrite, rendezvous_silent hc hg]

theorem oneRequest_read : OneRequest (flavourReady .swd) (.read .swd) where
  answered := fun s bs h hc hg => by
    obtain ⟨c, d, -, h2⟩ := swdPins h
    let m : State := { s with coprocSrc := ⟨bs, s.coprocSrc.used⟩ }
    refine ⟨setRout (bitWord (lineLevel d m).1) (record (.smp .swd (lineLevel d m).1) (lineLevel d m).2), ?_, ?_, ?_, ?_⟩
    · simp [exec, execRead, readLine, h.1, sampledRole, h2, needPin, levelRead, rendezvous_answered hc hg, m]
    · rw [lineLevel_state]; exact flavourReady_congr rfl rfl rfl rfl h
    · rw [lineLevel_state]; exact hc
    · rw [lineLevel_state]; rfl
  silent := fun s bs h hc hg => by
    obtain ⟨c, d, -, h2⟩ := swdPins h
    simp [exec, execRead, readLine, h.1, sampledRole, h2, needPin, levelRead, rendezvous_silent hc hg]

theorem oneRequest_driveDirection (o : Bool) : OneRequest (flavourReady .swd) (.driveDirection o) where
  answered := fun s bs h hc hg => by
    obtain ⟨c, d, -, h2⟩ := swdPins h
    refine ⟨record (.dir (if o then .out else .inp)) (setDir (if o then .out else .inp)
      (afterClaim (if o then .output else .input) d { s with coprocSrc := ⟨bs, s.coprocSrc.used⟩ })), ?_, ?_, ?_, ?_⟩
    · cases o <;>
        simp [exec, execDriveDirection, driveDirection, h.1, claimOut, claimIn, h2, needPin, claimPin,
          rendezvous_answered hc hg, afterClaim]
    · rw [afterClaim_fields]; exact flavourReady_congr rfl rfl rfl rfl h
    · rw [afterClaim_fields]; exact hc
    · rw [afterClaim_fields]; rfl
  silent := fun s bs h hc hg => by
    obtain ⟨c, d, -, h2⟩ := swdPins h
    cases o <;>
      simp [exec, execDriveDirection, driveDirection, h.1, claimOut, claimIn, h2, needPin, claimPin, rendezvous_silent hc hg]

theorem oneRequest_driveInstrs (bs : List Bool) : ∀ i ∈ driveInstrs bs, OneRequest (flavourReady .swd) i := by
  intro i hi
  obtain ⟨b, -, hi⟩ := List.mem_flatMap.1 hi
  simp only [List.mem_cons, List.not_mem_nil, or_false] at hi
  rcases hi with rfl | rfl <;> exact oneRequest_drive _ _ _

theorem oneRequest_sampleInstrs (n : Nat) : ∀ i ∈ sampleInstrs n, OneRequest (flavourReady .swd) i := by
  intro i hi
  obtain ⟨l, hl, hi⟩ := List.mem_flatten.1 hi
  rw [List.eq_of_mem_replicate hl] at hi
  simp only [List.mem_cons, List.not_mem_nil, or_false] at hi
  rcases hi with rfl | rfl | rfl
  · exact oneRequest_drive _ _ _
  · exact oneRequest_read
  · exact oneRequest_drive _ _ _

theorem oneRequest_append {P : State → Prop} {a b : List Instr} (ha : ∀ i ∈ a, OneRequest P i)
    (hb : ∀ i ∈ b, OneRequest P i) : ∀ i ∈ a ++ b, OneRequest P i := fun i hi =>
  (List.mem_append.1 hi).elim (ha i) (hb i)

theorem oneRequest_requestInstrs (hdr : Byte) : ∀ i ∈ requestInstrs hdr, OneRequest (flavourReady .swd) i := by
  refine oneRequest_append (oneRequest_driveInstrs _) fun i hi => ?_
  rcases List.mem_cons.1 hi with rfl | hi
  · exact oneRequest_driveDirection _
  · exact oneRequest_sampleInstrs _ i hi

theorem oneRequest_turnBackInstrs : ∀ i ∈ turnBackInstrs, OneRequest (flavourReady .swd) i := by
  refine oneRequest_append (oneRequest_sampleInstrs _) fun i hi => ?_
  rw [List.mem_singleton.1 hi]
  exact oneRequest_driveDirection _

theorem oneRequest_ite {P : State → Prop} {a b : List Instr} (c : Bool) (ha : ∀ i ∈ a, OneRequest P i)
    (hb : ∀ i ∈ b, OneRequest P i) : ∀ i ∈ if c then a else b, OneRequest P i := by cases c <;> simpa

/-- Every primitive of a frame makes one request. -/
theorem oneRequest_frameInstrs (i : Instr) (s : State) : ∀ j ∈ frameInstrs i s, OneRequest (flavourReady .swd) j := by
  have nil : ∀ j ∈ ([] : List Instr), OneRequest (flavourReady .swd) j := fun j hj => by cases hj
  cases i with
  | writeReg cmd v =>
    exact oneRequest_append (oneRequest_append (oneRequest_requestInstrs _) oneRequest_turnBackInstrs)
      (oneRequest_ite _ (oneRequest_driveInstrs _) nil)
  | readReg cmd =>
    exact oneRequest_append (oneRequest_append (oneRequest_requestInstrs _)
      (oneRequest_ite _ (oneRequest_sampleInstrs _) nil)) oneRequest_turnBackInstrs
  | _ => exact nil

/-- So does every primitive of the idle cycles after it. -/
theorem oneRequest_settleInstrs (i : Instr) (s : State) : ∀ j ∈ settleInstrs i s, OneRequest (flavourReady .swd) j := by
  have nil : ∀ j ∈ ([] : List Instr), OneRequest (flavourReady .swd) j := fun j hj => by cases hj
  cases i with
  | writeReg cmd v => exact oneRequest_ite _ (oneRequest_driveInstrs _) nil
  | readReg cmd => exact oneRequest_ite _ (oneRequest_driveInstrs _) nil
  | _ => exact nil

/-! The whole frames, whatever the draws. -/

theorem getLsbD_header_one (cmd : Byte) : (header cmd).getLsbD 1 = cmd.getLsbD 1 := by
  simp [header]

/-- In a session of SWD capability the pins of SWD are there and SWDIO is claimed. -/
theorem swdReady_reached {s : State} (h : SessionInv s) (he : enabled .swd s = true) :
    ∃ c d, SwdReady c d (reached .direct s.coprocSrc s) ∧ s.isClaimed d = true := by
  have hm : modeAllows .swd s.tmode = true := by simp only [enabled, Bool.and_eq_true] at he; exact he.2
  obtain ⟨c, hc, -⟩ := h.swdClaimed hm .swclk (by simp)
  obtain ⟨d, hd, hd'⟩ := h.swdClaimed hm .swdio (by simp)
  exact ⟨c, d, ⟨he, hc, hd, rfl, h.decided⟩, hd'⟩

section Frames

variable {c d : Nat} {s t : State}

/-- Through the co-processor too the ACK of a frame is the one its draws give. -/
theorem requestAndAck_value (hc : s.cfg.impl = .coproc) (h : SwdReady c d (reached .direct s.coprocSrc s))
    (hd : s.isClaimed d = true) {hdr : Byte} {a : BitVec 3} (e : requestAndAck hdr s = .ok a t) :
    a = drawnAck s.lineSrc := by
  obtain ⟨u, e', -⟩ := requestAndAck_runs h hd hdr
  exact ((uniform_requestAndAck hdr).same hc e e').1

/-- And the value and the parity bit of a read. -/
theorem receiveData_value (hc : s.cfg.impl = .coproc) (h : SwdReady c d (reached .direct s.coprocSrc s))
    (hd : s.isClaimed d = true) {hdr : Byte} {a : BitVec 3} {m : State} {v : Word × Bool}
    (e : requestAndAck hdr s = .ok a m) (e' : receiveData m = .ok v t) :
    v = (drawnData s.lineSrc, drawnParity s.lineSrc) := by
  obtain ⟨u, k, ha, hf, -, hl⟩ := requestAndAck_runs h hd hdr
  obtain ⟨w, k', -, -, -⟩ := receiveData_runs (ha.swdReady h) (by rw [hf]; simp)
  have both : (fun s => (requestAndAck hdr s).andThen fun _ s => receiveData s) s = .ok v t := by simp only [e, andThen_ok, e']
  have direct : (fun s => (requestAndAck hdr s).andThen fun _ s => receiveData s) (reached .direct s.coprocSrc s) =
      .ok (valueOfBits 32 (drawn 32 u.lineSrc), ((leftAfter 32 u.lineSrc).draw Config.freeLine).1) w := by
    simp only [k, andThen_ok, k']
  rw [(((uniform_requestAndAck hdr).andThen fun _ => uniform_receiveData).same hc both direct).1, hl]
  have : leftAfter 36 s.lineSrc = leftAfter 32 (leftAfter 4 s.lineSrc) := leftAfter_add 4 32 _
  simp only [drawnData, drawnParity, this]
  rfl

theorem drawnOk_iff (s : State) (h : s.cfg.toDecided = Decided.spec) :
    drawnOk s = true ↔ decodeAck s.cfg.toDecided (drawnAck s.lineSrc) = .ok := by
  simp only [drawnOk, decide_eq_true_eq, decodeAck, h]
  split
  · simp_all
  · split <;> [simp_all; (split <;> simp_all)]

/-- A write through the co-processor is the run of its primitives, and then a bad ACK latches. -/
theorem writeFrame_eq_runAll (hc : s.cfg.impl = .coproc) (h : SwdReady c d (reached .direct s.coprocSrc s))
    (hd : s.isClaimed d = true) (hq : s.qcode = .ok) (cmd : Byte) (v : Word) :
    writeFrame (header cmd) v s = (runAll (frameInstrs (.writeReg cmd v) s ++ settleInstrs (.writeReg cmd v) s) s).andThen
      fun _ t => .ok () (if drawnOk s then t else applyAck (drawnAck s.lineSrc) t) := by
  have hdec : s.cfg.toDecided = Decided.spec := h.decided
  have htrn : s.cfg.trn = 1 := by rw [hdec]; rfl
  simp only [frameInstrs, settleInstrs, List.append_assoc]
  rw [runAll_append, ← requestAndAck_eq_runAll htrn, writeFrame]
  cases e1 : requestAndAck (header cmd) s with
  | stuck h => rfl
  | refused e => rfl
  | ok a t =>
    obtain rfl := requestAndAck_value hc h hd e1
    have k1 := onWire_frameInputs.requestAndAck _ _ _ _ e1
    simp only [andThen_ok, valueless_ok]
    rw [runAll_append, ← turnBack_eq_runAll (by rw [k1.1, htrn])]
    cases e2 : turnBack t with
    | stuck h => rfl
    | refused e => rfl
    | ok _ u =>
      have k2 := onWire_frameInputs.trans _ _ _ k1 (onWire_frameInputs.turnBack _ _ _ e2)
      simp only [andThen_ok, k2.1, ← drawnOk_iff s hdec]
      cases drawnOk s with
      | false => rfl
      | true =>
        simp only [↓reduceIte, Bool.true_and]
        rw [runAll_append, ← sendData_eq_runAll]
        cases e3 : sendData v (parityOdd v) u with
        | stuck h => rfl
        | refused e => rfl
        | ok _ w =>
          have k3 := onWire_frameInputs.trans _ _ _ k2 (onWire_frameInputs.sendData _ _ _ _ _ e3)
          simp only [andThen_ok, settle_eq_runAll, getLsbD_header_one, k3.2.2.1, hq, k3.2.2.2, and_true]
          exact (valueless_unit _).symm

/-- A read through the co-processor is the run of its primitives up to the acceptance of the value, then what its draws
decide: a good value is delivered and the idle cycles follow, a bad one or a bad ACK latches. -/
theorem readFrame_eq_runAll (hc : s.cfg.impl = .coproc) (h : SwdReady c d (reached .direct s.coprocSrc s))
    (hd : s.isClaimed d = true) (hq : s.qcode = .ok) (cmd : Byte) :
    readFrame (header cmd) s = (runAll (frameInstrs (.readReg cmd) s) s).andThen fun _ t =>
      if drawnOk s then
        if drawnParity s.lineSrc = parityOdd (drawnData s.lineSrc) then
          runAll (settleInstrs (.readReg cmd) s) (delivered (.readReg cmd) s t)
        else .ok () { t with qcode := .fail }
      else .ok () (applyAck (drawnAck s.lineSrc) t) := by
  have hdec : s.cfg.toDecided = Decided.spec := h.decided
  have htrn : s.cfg.trn = 1 := by rw [hdec]; rfl
  simp only [frameInstrs, settleInstrs, List.append_assoc]
  rw [runAll_append, ← requestAndAck_eq_runAll htrn, readFrame]
  cases e1 : requestAndAck (header cmd) s with
  | stuck h => rfl
  | refused e => rfl
  | ok a t =>
    obtain rfl := requestAndAck_value hc h hd e1
    have k1 := onWire_frameInputs.requestAndAck _ _ _ _ e1
    simp only [andThen_ok, valueless_ok, k1.1, ← drawnOk_iff s hdec]
    cases ho : drawnOk s with
    | false =>
      simp only [Bool.false_eq_true, ↓reduceIte, List.nil_append, ← turnBack_eq_runAll (show t.cfg.trn = 1 by rw [k1.1, htrn])]
    | true =>
      simp only [↓reduceIte]
      rw [runAll_append, ← receiveData_eq_runAll]
      cases e2 : receiveData t with
      | stuck h => rfl
      | refused e => rfl
      | ok v u =>
        obtain rfl := receiveData_value hc h hd e1 e2
        have k2 := onWire_frameInputs.trans _ _ _ k1 (onWire_frameInputs.receiveData _ _ _ e2)
        simp only [andThen_ok, valueless_ok]
        rw [← turnBack_eq_runAll (by rw [k2.1, htrn])]
        cases e3 : turnBack u with
        | stuck h => rfl
        | refused e => rfl
        | ok _ w =>
          have k3 := onWire_frameInputs.trans _ _ _ k2 (onWire_frameInputs.turnBack _ _ _ e3)
          have hw : w.qcode = .ok := k3.2.2.1.trans hq
          simp only [andThen_ok, Bool.true_and]
          by_cases hp : drawnParity s.lineSrc = parityOdd (drawnData s.lineSrc)
          · rw [if_pos hp, acceptData_good hw hp, settle_eq_runAll]
            simp only [getLsbD_header_one, hw, and_true, k3.2.2.2, hp, decide_true, Bool.true_and, delivered]
          · rw [if_neg hp, acceptData_bad hw hp, settle_eq_runAll]
            simp

end Frames

section Silent

variable {s : State} {k : Nat} {rest : List Bool}

/-- Where a part that runs one list of primitives, and then, when there is a second list, that one, hangs. -/
theorem twoRuns_silent {P : State → Prop} {a b : List Instr} (ha : ∀ i ∈ a, OneRequest P i) (hb : ∀ i ∈ b, OneRequest P i)
    (d : State → State) (hd : ∀ t, P t → P (d t) ∧ (d t).cfg = t.cfg ∧ (d t).coprocSrc = t.coprocSrc)
    {f : Res Unit} {g : State → Res Unit} (hf : f = (runAll a s).andThen fun _ t => g t)
    (hg : b ≠ [] → ∀ t, ∃ r : State → Res Unit, g t = (runAll b (d t)).andThen fun _ u => r u) (hP : P s) (hc : s.cfg.impl = .coproc)
    (hk : s.coprocSrc.given = List.replicate k true ++ false :: rest) :
    (k < a.length → ∃ u, execAll (a.take k) s = .next u ∧ f = .stuck { u with coprocSrc := ⟨rest, u.coprocSrc.used⟩ }) ∧
    (∀ j, k = a.length + j → j < b.length → ∃ m u, execAll a s = .next m ∧ execAll (b.take j) (d m) = .next u ∧
      f = .stuck { u with coprocSrc := ⟨rest, u.coprocSrc.used⟩ }) := by
  constructor
  · intro hl
    obtain ⟨u, h1, h2⟩ := runAll_silent ha hP hc hl hk
    exact ⟨u, h1, by rw [hf, h2]; rfl⟩
  · rintro j rfl hj
    rw [answers_split (Nat.le_add_right a.length j), Nat.add_sub_cancel_left] at hk
    obtain ⟨m, h1, h2, h3, h4⟩ := runAll_answered ha hP hc hk
    obtain ⟨q1, q2, q3⟩ := hd m h2
    obtain ⟨u, k1, k2⟩ := runAll_silent (rest := rest) hb q1 (by rw [q2]; exact h3) hj (by rw [q3, h4])
    obtain ⟨r, hr⟩ := hg (List.ne_nil_of_length_pos (Nat.zero_lt_of_lt hj)) m
    exact ⟨m, u, runAll_eq_ok.1 h1, k1, by rw [hf, h1, andThen_ok, hr, k2]; rfl⟩

/-- Delivering a value changes `RDATA` and `RPAR` and nothing else. -/
theorem delivered_fields (i : Instr) (s t : State) :
    delivered i s t = { t with rdata := (delivered i s t).rdata, rpar := (delivered i s t).rpar } := by
  unfold delivered
  split <;> rfl

theorem delivered_keeps (i : Instr) (s t : State) (h : flavourReady .swd t) :
    flavourReady .swd (delivered i s t) ∧ (delivered i s t).cfg = t.cfg ∧ (delivered i s t).coprocSrc = t.coprocSrc := by
  rw [delivered_fields]
  exact ⟨flavourReady_congr (s := t) rfl rfl rfl rfl h, rfl, rfl⟩

/-- In a session of SWD capability the SWD lines have pins. -/
theorem flavourReady_swd (h : SessionInv s) (he : enabled .swd s = true) : flavourReady .swd s :=
  ⟨he, fun r hr => by
    have hm : modeAllows .swd s.tmode = true := by simp only [enabled, Bool.and_eq_true] at he; exact he.2
    obtain ⟨p, hp, -⟩ := h.swdClaimed hm r hr
    simp [hp]⟩

/-- Where a write hangs. -/
theorem writeFrame_silent (hi : SessionInv s) (he : enabled .swd s = true) (hc : s.cfg.impl = .coproc) (hq : s.qcode = .ok)
    (cmd : Byte) (v : Word) (hk : s.coprocSrc.given = List.replicate k true ++ false :: rest) :
    (k < (frameInstrs (.writeReg cmd v) s).length → ∃ u, execAll ((frameInstrs (.writeReg cmd v) s).take k) s = .next u ∧
      writeFrame (header cmd) v s = .stuck { u with coprocSrc := ⟨rest, u.coprocSrc.used⟩ }) ∧
    (∀ j, k = (frameInstrs (.writeReg cmd v) s).length + j → j < (settleInstrs (.writeReg cmd v) s).length →
      ∃ m u, execAll (frameInstrs (.writeReg cmd v) s) s = .next m ∧
        execAll ((settleInstrs (.writeReg cmd v) s).take j) (delivered (.writeReg cmd v) s m) = .next u ∧
        writeFrame (header cmd) v s = .stuck { u with coprocSrc := ⟨rest, u.coprocSrc.used⟩ }) := by
  obtain ⟨c, d, hr, hd⟩ := swdReady_reached hi he
  refine twoRuns_silent (oneRequest_frameInstrs _ s) (oneRequest_settleInstrs _ s) _ (delivered_keeps _ s)
    (g := fun t => (runAll (settleInstrs (.writeReg cmd v) s) t).andThen fun _ u =>
      .ok () (if drawnOk s then u else applyAck (drawnAck s.lineSrc) u))
    ?_ (fun _ _ => ⟨_, rfl⟩) (flavourReady_swd hi he) hc hk
  rw [writeFrame_eq_runAll hc hr hd hq, runAll_append, andThen_assoc]

/-- Where a read hangs. -/
theorem readFrame_silent (hi : SessionInv s) (he : enabled .swd s = true) (hc : s.cfg.impl = .coproc) (hq : s.qcode = .ok)
    (cmd : Byte) (hk : s.coprocSrc.given = List.replicate k true ++ false :: rest) :
    (k < (frameInstrs (.readReg cmd) s).length → ∃ u, execAll ((frameInstrs (.readReg cmd) s).take k) s = .next u ∧
      readFrame (header cmd) s = .stuck { u with coprocSrc := ⟨rest, u.coprocSrc.used⟩ }) ∧
    (∀ j, k = (frameInstrs (.readReg cmd) s).length + j → j < (settleInstrs (.readReg cmd) s).length →
      ∃ m u, execAll (frameInstrs (.readReg cmd) s) s = .next m ∧
        execAll ((settleInstrs (.readReg cmd) s).take j) (delivered (.readReg cmd) s m) = .next u ∧
        readFrame (header cmd) s = .stuck { u with coprocSrc := ⟨rest, u.coprocSrc.used⟩ }) := by
  obtain ⟨c, d, hr, hd⟩ := swdReady_reached hi he
  refine twoRuns_silent (oneRequest_frameInstrs _ s) (oneRequest_settleInstrs _ s) _ (delivered_keeps _ s)
    (readFrame_eq_runAll hc hr hd hq cmd) (fun hne t => ⟨fun u => .ok () u, ?_⟩) (flavourReady_swd hi he) hc hk
  by_cases ho : drawnOk s = true <;> by_cases hp : drawnParity s.lineSrc = parityOdd (drawnData s.lineSrc)
  · rw [if_pos ho, if_pos hp]
    exact (valueless_unit _).symm
  all_goals exact absurd (by simp [settleInstrs, ho, hp]) hne

/-- The open batch is no part of what a session is. -/
theorem sessionInv_batchOpen (h : SessionInv s) (b : Bool) : SessionInv { s with batchOpen := b } :=
  ⟨h.1, h.2, h.3, h.4, h.5, h.6, h.7, h.8, h.9, h.10, h.11, h.12, h.13⟩

end Silent

/-! Steps of one request each: what `INIT` and `QUIT` are made of. -/

/-- Steps, one request before each. -/
def runSteps : List (State → State) → State → Res Unit
  | [], s => .ok () s
  | f :: fs, s => (rendezvous s).andThen fun _ s => runSteps fs (f s)

theorem runSteps_append (a b : List (State → State)) (s : State) :
    runSteps (a ++ b) s = (runSteps a s).andThen fun _ t => runSteps b t := by
  induction a generalizing s with
  | nil => rfl
  | cons f a ih =>
    rw [List.cons_append, runSteps, runSteps]
    cases rendezvous s <;> simp [ih]

/-- The state with other answers left. -/
def withAnswers (x : Source) (s : State) : State := { s with coprocSrc := x }

/-- A step takes no account of the co-processor's answers and changes neither them nor the configuration. -/
structure PlainStep (f : State → State) : Prop where
  free : ∀ (x : Source) (s : State), f (withAnswers x s) = withAnswers x (f s)
  cfg : ∀ s, (f s).cfg = s.cfg
  pincfg : ∀ s, (f s).pincfg = s.pincfg

/-- Silent after `k` answers, a run of steps hangs before its next step, with the first `k` in force. -/
theorem runSteps_silent {fs : List (State → State)} (hf : ∀ f ∈ fs, PlainStep f) {s : State} (hc : s.cfg.impl = .coproc)
    {k : Nat} {rest : List Bool} (hk : k < fs.length) (hg : s.coprocSrc.given = List.replicate k true ++ false :: rest) :
    runSteps fs s = .stuck ((fs.take k).foldl (fun t f => f t) (withAnswers ⟨rest, s.coprocSrc.used⟩ s)) := by
  induction k generalizing fs s with
  | zero =>
    obtain ⟨f, fs, rfl⟩ := List.exists_cons_of_length_pos hk
    simp [runSteps, rendezvous_silent hc hg, withAnswers]
  | succ k ih =>
    obtain ⟨f, fs, rfl⟩ := List.exists_cons_of_length_pos (Nat.zero_lt_of_lt hk)
    have h := hf f (by simp)
    have hg' : s.coprocSrc.given = true :: (List.replicate k true ++ false :: rest) := hg
    have e := h.free ⟨List.replicate k true ++ false :: rest, s.coprocSrc.used⟩ s
    rw [runSteps, rendezvous_answered hc hg', andThen_ok, List.take_succ_cons, List.foldl_cons, h.free]
    refine (congrArg (runSteps fs) e).trans ?_
    exact ih (fun g hg => hf g (by simp [hg])) (show (f s).cfg.impl = _ by rw [h.cfg]; exact hc) (by simpa using hk) rfl

theorem plainStep_comp {f g : State → State} (hf : PlainStep f) (hg : PlainStep g) : PlainStep fun s => g (f s) where
  free := fun x s => by rw [hf.free, hg.free]
  cfg := fun s => by rw [hg.cfg, hf.cfg]
  pincfg := fun s => by rw [hg.pincfg, hf.pincfg]

theorem plainStep_afterClaim (m : PinMode) (p : Nat) : PlainStep (afterClaim m p) where
  free := fun x s => by
    by_cases h : tableRead false s.claimed p = true <;>
      simp [afterClaim, funcWrite, record, saveOnce, State.isClaimed, State.funcOf, withAnswers, h]
  cfg := fun s => by rw [afterClaim_fields]
  pincfg := fun s => by rw [afterClaim_fields]

theorem plainStep_applyLevels (a b : List Nat) : PlainStep (applyLevels a b) where
  free := fun x s => by
    by_cases h : (a.filter fun p => b.contains p).isEmpty = true <;> simp only [applyLevels, withAnswers, h] <;> rfl
  cfg := fun s => by rw [applyLevels_state]
  pincfg := fun s => by rw [applyLevels_state]

theorem plainStep_setDir (d : Dir) : PlainStep (setDir d) := ⟨fun _ _ => rfl, fun _ => rfl, fun _ => rfl⟩

theorem plainStep_giveUp (p : Nat) : PlainStep (giveUp p) where
  free := fun x s => by
    by_cases h : tableRead false s.claimed p = true <;>
      simp [giveUp, funcWrite, record, State.isClaimed, State.savedMode, withAnswers, h]
  cfg := fun s => by rw [giveUp_fields]
  pincfg := fun s => by rw [giveUp_fields]

/-! `QUIT` restores pin by pin. -/

theorem restoreAll_eq_runSteps (ps : List Nat) (s : State) : restoreAll ps s = runSteps (ps.map giveUp) s := by
  induction ps generalizing s with
  | nil => rfl
  | cons p ps ih =>
    rw [List.map_cons, runSteps, restoreAll, restorePin]
    cases rendezvous s <;> simp [ih]

/-- What giving up the claimed pins of a list changes, in the order of the list. -/
theorem foldl_giveUp {ps : List Nat} {s : State} (hn : ps.Nodup) (hc : ∀ p ∈ ps, s.isClaimed p = true) :
    let t := (ps.map giveUp).foldl (fun t f => f t) s
    (∀ p, t.isClaimed p = if p ∈ ps then false else s.isClaimed p) ∧
      (∀ p, t.funcOf p = if p ∈ ps then s.savedMode p else s.funcOf p) ∧
      t.trace = s.trace ++ (ps.map fun p => .fn p (s.savedMode p)) ∧
      t = { s with func := t.func, claimed := t.claimed, trace := t.trace } := by
  induction ps generalizing s with
  | nil => simp
  | cons p ps ih =>
    obtain ⟨hp, hn⟩ := List.nodup_cons.1 hn
    have hpc := hc p (by simp)
    have hf := giveUp_fields p s
    obtain ⟨k1, k2, k3, k4⟩ := ih (s := giveUp p s) hn fun q hq => by
      rw [isClaimed_giveUp, if_neg (by rintro rfl; exact hp hq)]
      exact hc q (by simp [hq])
    refine ⟨fun q => ?_, fun q => ?_, ?_, ?_⟩
    · rw [List.map_cons, List.foldl_cons, k1, isClaimed_giveUp]
      by_cases h1 : q = p <;> by_cases h2 : q ∈ ps <;> simp [h1, h2]
    · rw [List.map_cons, List.foldl_cons, k2, funcOf_giveUp, savedMode_giveUp]
      by_cases h1 : q = p
      · subst h1; simp [hp, hpc]
      · by_cases h2 : q ∈ ps <;> simp [h1, h2]
    · rw [List.map_cons, List.foldl_cons, k3, hf, if_pos hpc]
      simp [State.savedMode]
    · rw [List.map_cons, List.foldl_cons, k4, hf]

/-- The claimed pins of a table of canonical form: each once, and claimed. -/
theorem claimedPins_wf {s : State} (h : tableWf false s.claimed = true) :
    (claimedPins s).Nodup ∧ ∀ p ∈ claimedPins s, s.isClaimed p = true := by
  obtain ⟨hs, hd⟩ := tableWf_iff.1 h
  refine ⟨(hs.imp fun h => Nat.ne_of_lt h).filter _, fun p hp => ?_⟩
  obtain ⟨⟨q, v⟩, hq, rfl⟩ := List.mem_map.1 (List.mem_filter.1 hp).1
  have hv := hd _ hq
  rw [State.isClaimed, tableRead_of_mem hs hq]
  cases v <;> simp_all

/-! `INIT` step by step. -/

/-- Wherever the pins are those of `s`, a part is a run of the steps `fs`. -/
structure StepsAs (s : State) (f : State → Res Unit) (fs : List (State → State)) : Prop where
  run : ∀ t, t.cfg = s.cfg → t.pincfg = s.pincfg → f t = runSteps fs t
  plain : ∀ g ∈ fs, PlainStep g

theorem runSteps_keeps {fs : List (State → State)} (hf : ∀ f ∈ fs, PlainStep f) {s t : State} {u : Unit}
    (h : runSteps fs s = .ok u t) : t.cfg = s.cfg ∧ t.pincfg = s.pincfg := by
  induction fs generalizing s with
  | nil => cases h; exact ⟨rfl, rfl⟩
  | cons f fs ih =>
    obtain ⟨_, m, hm, h⟩ := andThen_eq_ok.1 h
    have k := ih (fun g hg => hf g (by simp [hg])) h
    rw [(hf f (by simp)).cfg, (hf f (by simp)).pincfg, rendezvous_ok hm] at k
    exact k

section Steps

variable {s : State} {f g : State → Res Unit} {fs gs : List (State → State)}

theorem StepsAs.andThen (hf : StepsAs s f fs) (hg : StepsAs s g gs) :
    StepsAs s (fun t => (f t).andThen fun _ u => g u) (fs ++ gs) where
  run := fun t hc hp => by
    simp only [hf.run t hc hp, runSteps_append]
    cases e : runSteps fs t with
    | ok _ u =>
      have k := runSteps_keeps hf.plain e
      exact hg.run u (k.1.trans hc) (k.2.trans hp)
    | stuck h => rfl
    | refused e => rfl
  plain := fun h hh => (List.mem_append.1 hh).elim (hf.plain h) (hg.plain h)

theorem stepsAs_nil : StepsAs s (.ok ()) [] := ⟨fun _ _ _ => rfl, fun _ h => by cases h⟩

theorem stepsAs_claimOut {r : Role} (h : (pinOf r s).isSome = true) :
    StepsAs s (fun t => claimOut (pinOf r t) t) (claimStep .output r s) := by
  obtain ⟨p, hp⟩ := Option.isSome_iff_exists.1 h
  have e : claimStep .output r s = [afterClaim .output p] := by rw [claimStep, hp]; rfl
  rw [e]
  exact ⟨fun t h1 h2 => by simp only [pinOf_congr r h1 h2, hp]; rfl, by simpa using plainStep_afterClaim _ _⟩

theorem stepsAs_claimIn {r : Role} (h : (pinOf r s).isSome = true) :
    StepsAs s (fun t => claimIn (pinOf r t) t) (claimStep .input r s) := by
  obtain ⟨p, hp⟩ := Option.isSome_iff_exists.1 h
  have e : claimStep .input r s = [afterClaim .input p] := by rw [claimStep, hp]; rfl
  rw [e]
  exact ⟨fun t h1 h2 => by simp only [pinOf_congr r h1 h2, hp]; rfl, by simpa using plainStep_afterClaim _ _⟩

/-- The level write of the pins of some roles. -/
theorem stepsAs_levelWrite {a b : State → List Nat} {sets clrs : List Role}
    (ha : ∀ t, t.cfg = s.cfg → t.pincfg = s.pincfg → a t = sets.filterMap fun r => pinOf r s)
    (hb : ∀ t, t.cfg = s.cfg → t.pincfg = s.pincfg → b t = clrs.filterMap fun r => pinOf r s) :
    StepsAs s (fun t => levelWrite (a t) (b t) t) (levelStep sets clrs s) where
  run := fun t h1 h2 => by simp only [ha t h1 h2, hb t h1 h2]; rfl
  plain := by simpa [levelStep] using plainStep_applyLevels _ _

theorem stepsAs_initJtag (h : jtagOk s = true) : StepsAs s initJtag
    (claimStep .input .tdo s ++ levelStep [.tms] [.tck, .tdi] s ++ claimStep .output .tck s ++ claimStep .output .tms s ++
      claimStep .output .tdi s) := by
  simp only [jtagOk, Bool.and_eq_true] at h
  obtain ⟨⟨⟨hc, hm⟩, hi⟩, ho⟩ := h
  simp only [List.append_assoc]
  refine (stepsAs_claimIn ho).andThen (.andThen (stepsAs_levelWrite (fun t h1 h2 => ?_) fun t h1 h2 => ?_)
    (.andThen (stepsAs_claimOut hc) (.andThen (stepsAs_claimOut hm) (stepsAs_claimOut hi))))
  · rw [pinOf_congr _ h1 h2]; cases e : pinOf .tms s <;> simp [e]
  · rw [pinOf_congr _ h1 h2, pinOf_congr _ h1 h2]; cases e : pinOf .tck s <;> cases e' : pinOf .tdi s <;> simp [e, e']

theorem stepsAs_initSwd (h : swdOk s = true) : StepsAs s initSwd
    (levelStep [] [.swclk, .swdio] s ++ claimStep .output .swclk s ++
      (claimStep .output .swdio s).map fun f t => setDir .out (f t)) := by
  simp only [swdOk, Bool.and_eq_true] at h
  obtain ⟨d, hd⟩ := Option.isSome_iff_exists.1 h.2
  have e : claimStep .output .swdio s = [afterClaim .output d] := by rw [claimStep, hd]; rfl
  rw [e, List.append_assoc]
  refine .andThen (stepsAs_levelWrite (fun _ _ _ => rfl) fun t h1 h2 => ?_) (.andThen (stepsAs_claimOut h.1)
    (g := fun t => (claimOut (pinOf .swdio t) t).andThen fun _ t => .ok () (setDir .out t))
    ⟨fun t h1 h2 => ?_, by simpa using plainStep_comp (plainStep_afterClaim _ _) (plainStep_setDir _)⟩)
  · rw [pinOf_congr _ h1 h2, pinOf_congr _ h1 h2]; cases e : pinOf .swclk s <;> cases e' : pinOf .swdio s <;> simp [e, e']
  · simp only [pinOf_congr _ h1 h2, hd, claimOut, needPin, andThen_ok, claimPin]
    simp only [List.map_cons, List.map_nil, runSteps]
    cases rendezvous t <;> rfl

theorem stepsAs_initResetLine (r : Role) : StepsAs s (initResetLine r)
    (if pinOf r s = none then [] else levelStep [r] [] s ++ claimStep .output r s) := by
  cases hp : pinOf r s with
  | none => exact ⟨fun t h1 h2 => by simp only [initResetLine, pinOf_congr r h1 h2, hp]; rfl, by simp⟩
  | some p =>
    simp only [reduceCtorEq, ↓reduceIte]
    have k : StepsAs s (fun t => (levelWrite (pinOf r t).toList [] t).andThen fun _ t => claimOut (pinOf r t) t)
        (levelStep [r] [] s ++ claimStep .output r s) :=
      .andThen (stepsAs_levelWrite (fun t h1 h2 => by rw [pinOf_congr r h1 h2]; cases e : pinOf r s <;> simp [e]) fun _ _ _ => rfl)
        (stepsAs_claimOut (by simp [hp]))
    refine ⟨fun t h1 h2 => ?_, k.plain⟩
    rw [← k.run t h1 h2, initResetLine]
    simp only [pinOf_congr r h1 h2, hp, Option.toList_some]
    cases e : levelWrite [p] [] t with
    | ok _ u =>
      have hu : pinOf r u = some p := by
        obtain ⟨_, m, hm, h⟩ := andThen_eq_ok.1 e
        cases h
        rw [pinOf_applyLevels, rendezvous_ok hm, ← hp, ← pinOf_congr r h1 h2]; rfl
      simp only [andThen_ok, hu]
    | stuck h => rfl
    | refused e => rfl

theorem stepsAs_onlyIf {c : Bool} (h : c = true → StepsAs s f fs) : StepsAs s (onlyIf c f) (if c then fs else []) := by
  cases c
  · exact stepsAs_nil
  · exact h rfl

end Steps

/-- The effects of `INIT` up to its return are the run of its steps. -/
theorem stepsAs_initEffects (s : State) : StepsAs s (fun t =>
    (onlyIf (jtagOk s) initJtag t).andThen fun _ t => (onlyIf (swdOk s) initSwd t).andThen fun _ t =>
    (initResetLine .trst t).andThen fun _ t => initResetLine .srst t) (initSteps s) := by
  have e : initSteps s = (if jtagOk s then claimStep .input .tdo s ++ levelStep [.tms] [.tck, .tdi] s ++
      claimStep .output .tck s ++ claimStep .output .tms s ++ claimStep .output .tdi s else []) ++
      ((if swdOk s then levelStep [] [.swclk, .swdio] s ++ claimStep .output .swclk s ++
        (claimStep .output .swdio s).map fun f t => setDir .out (f t) else []) ++
      ((if pinOf .trst s = none then [] else levelStep [.trst] [] s ++ claimStep .output .trst s) ++
        if pinOf .srst s = none then [] else levelStep [.srst] [] s ++ claimStep .output .srst s)) := by
    simp only [initSteps, List.append_assoc, List.flatMap_cons, List.flatMap_nil, List.append_nil]
  rw [e]
  exact .andThen (stepsAs_onlyIf stepsAs_initJtag) (.andThen (stepsAs_onlyIf stepsAs_initSwd)
    (.andThen (stepsAs_initResetLine .trst) (stepsAs_initResetLine .srst)))

theorem initEffects_eq_runSteps (s : State) : initEffects s =
    (runSteps (initSteps s) { s with resHeld := true, tmode := initMode (jtagOk s) (swdOk s) }).andThen fun _ t =>
      returnCode .ok { flushBatch t with session := .active } := by
  rw [← (stepsAs_initEffects s).run { s with resHeld := true, tmode := initMode (jtagOk s) (swdOk s) } rfl rfl, initEffects]
  simp only [andThen_assoc]

/-- `INIT` past `acquire()`, silent after `k` answers: its first `k` steps are in force. -/
theorem initEffects_silent {s : State} (hc : s.cfg.impl = .coproc) {k : Nat} {rest : List Bool}
    (hk : k < (initSteps s).length) (hg : s.coprocSrc.given = List.replicate k true ++ false :: rest) :
    initEffects s = .stuck (((initSteps s).take k).foldl (fun t f => f t)
      (withAnswers ⟨rest, s.coprocSrc.used⟩ { s with resHeld := true, tmode := initMode (jtagOk s) (swdOk s) })) := by
  rw [initEffects_eq_runSteps, runSteps_silent (stepsAs_initEffects s).plain
    (s := { s with resHeld := true, tmode := initMode (jtagOk s) (swdOk s) }) hc hk hg, andThen_stuck]

end Sys2Proof.Machine
end

