-- ==== Sys2Proof/Tests/Slice0.lean ====
section
/-! SUPPORT. Tests. Expected results come from spec/95_test_vectors.md (V1 to V37, P1 to P5) or are written out from the
spec's encodings and rules by hand; the last part gives, for each statement with hypotheses, values that meet them. -/

set_option maxRecDepth 100000

namespace Sys2Proof.Tests

open Sys2Proof Sys2Proof.Machine

/-! The platform of spec/95_test_vectors.md, and states on it. -/

/-- `PIN_MAX = 53`, six further pin modes, `IMPL = DIRECT`, the coefficients of V8. -/
def plat : Config where
  toDecided := Decided.spec
  pinMax := 53
  altModes := 6
  addrW := 32
  impl := .direct
  defaultBase := 0x20000000
  defaultCoeff := 113714
  defaultOffset := 28

/-- The pin with an index. -/
def pin (n : Nat) : PinOperand := some (BitVec.ofNat 31 n)

/-- Configured as V4 and V37 say, outside a session, the pins in modes the core did not give them. -/
def idleState (pc : PinCfg) : State :=
  { State.resetOn plat with pincfg := pc, func := [(9, .alt 5), (10, .alt 5), (11, .alt 5), (25, .alt 2)] }

/-- SWCLK 11 and SWDIO 25 alone. -/
def swdPins : PinCfg := { PinCfg.allAbsent with swclk := pin 11, swdio := pin 25 }

/-- TCK 11, TMS 25, TDI 10, TDO 9, SRST 18. -/
def jtagPins : PinCfg := { PinCfg.allAbsent with tck := pin 11, tms := pin 25, tdi := pin 10, tdo := pin 9, srst := pin 18 }

/-- In a session of mode SWD, with bits for the line and a value of `QCODE`. -/
def swdState (given : List Bool) (q : QCode) : State :=
  { State.resetOn plat with
    pincfg := swdPins, session := .active, tmode := .swd, resHeld := true, qcode := q
    claimed := [(11, true), (25, true)], func := [(11, .output), (25, .output)], saved := [(25, .alt 2)]
    lineSrc := ⟨given, 0⟩ }

/-- In a session of mode JTAG. -/
def jtagState (given : List Bool) : State :=
  { State.resetOn plat with
    pincfg := jtagPins, session := .active, tmode := .jtag, resHeld := true
    claimed := [(9, true), (10, true), (11, true), (18, true), (25, true)]
    func := [(10, .output), (11, .output), (18, .output), (25, .output)], latch := [(18, true), (25, true)]
    lineSrc := ⟨given, 0⟩ }

/-- The next state, if there is one. -/
def next? (o : Host.Outcome State Fault Refusal) : Option State :=
  match o with
  | .next t => some t
  | .fault _ | .refused _ => none

/-- The refusal, if there is one. -/
def refusal? (o : Host.Outcome State Fault Refusal) : Option Refusal :=
  match o with
  | .refused e => some e
  | .next _ | .fault _ => none

/-- Bits in time order, as the vectors write them. -/
def bits (l : List Nat) : List Bool := l.map (· == 1)

/-- Tokens `>b` of spec/95_test_vectors.md. -/
def sent (l : List Nat) : List Event :=
  (bits l).flatMap fun b => [.lv .swd false none b, .lv .swd true none b]

/-- Tokens `<b`. -/
def taken (l : List Nat) : List Event :=
  (bits l).flatMap fun b => [.lv .swd false none false, .smp .swd b, .lv .swd true none false]

/-- The token `[IN]`, at pin 25. -/
def turnIn : List Event := [.fn 25 .input, .dir .inp]

/-- The token `[OUT]`, at pin 25. -/
def turnOut : List Event := [.fn 25 .output, .dir .out]

/-! Ill-formed terms, which the check refuses. -/

theorem test_wf_stream_length : (Instr.execJtag 2 [.read]).wf = false := by decide
theorem test_wf_stream_word : (Instr.execJtag 1 [.other 0x310000000000#48]).wf = false := by decide
theorem test_wf_switch : (Instr.switchUnsupported 2).wf = false := by decide
theorem test_wf_ack : (Instr.swdAckUndecodable 0b010#3).wf = false := by decide

/-! Decoding: words written out from spec/30_encoding.md R60 to R73 and the programs P1 to P5. -/

/-- What a frame decodes to. -/
def dec (f : Frame) : Option Instr := (decode f).toOption

theorem test_decode_configuration :
    dec (.words [0x01060000000B#48]) = some (.cfgPin 6 (pin 11)) ∧
    dec (.words [0x0104FFFFFFFF#48]) = some (.cfgPin 4 none) ∧
    dec (.words [0x02000001BC32#48]) = some (.cfgCoeff 113714) ∧
    dec (.words [0x0300FFFFFFFB#48]) = some (.cfgOffset 0xFFFFFFFB) ∧
    dec (.words [0x040020000000#48]) = some (.cfgBase 0x20000000) ∧
    dec (.words [0x050300000000#48]) = some (.cfgApDelay 3) := by decide

theorem test_decode_session :
    dec (.words [0x100000000000#48]) = some .init ∧
    dec (.words [0x110000000000#48]) = some .quit ∧
    dec (.words [0x200000000000#48]) = some .swdInit ∧
    dec (.words [0x1200000003E8#48]) = some (.setSpeed 1000) ∧
    dec (.words [0x130000000055#48]) = some (.speedToKhz 85) ∧
    dec (.words [0x140000000FA0#48]) = some (.khzToSpeed 4000) := by decide

theorem test_decode_engine :
    dec (.words [0x22A500000000#48]) = some (.readReg 0xA5) ∧
    dec (.words [0x23A323000052#48]) = some (.writeReg 0xA3 0x23000052) ∧
    dec (.words [0x240000000000#48]) = some .runQueue := by decide

theorem test_decode_sequences :
    dec (.words [0x210000000000#48]) = some .switchLineReset ∧
    dec (.words [0x210100000000#48]) = some .switchJtagToSwd ∧
    dec (.words [0x210200000000#48]) = some .switchSwdToJtag ∧
    dec (.words [0x210300000000#48]) = some (.switchUnsupported 3) := by decide

/-- `DRIVE 0,1,0`, `READ`, `DRIVE 1,1,0` (V37): the clock is bit 0, TMS bit 1, TDI bit 2. -/
theorem test_decode_execJtag :
    dec (.words [0x150000000003#48, 0x300200000000#48, 0x310000000000#48, 0x300300000000#48]) =
      some (.execJtag 3 [.drive false true false, .read, .drive true true false]) ∧
    dec (.words [0x150000000001#48, 0x330100000000#48]) = some (.execJtag 1 [.other 0x330100000000#48]) := by decide

theorem test_decode_driver :
    dec (.words [0x300D00000000#48]) = some (.drive .swd true false true) ∧
    dec (.words [0x300200000000#48]) = some (.drive .jtag false true false) ∧
    dec (.words [0x310800000000#48]) = some (.read .swd) ∧
    dec (.words [0x320200000000#48]) = some (.reset false true) ∧
    dec (.words [0x330100000000#48]) = some (.driveDirection true) := by decide

theorem test_decode_pinmux :
    dec (.words [0x400000000035#48]) = some (.validate (pin 53)) ∧
    dec (.words [0x41000000000B#48]) = some (.claimOut (pin 11)) ∧
    dec (.words [0x420000000019#48]) = some (.claimIn (pin 25)) ∧
    dec (.words [0x4300FFFFFFFF#48]) = some (.restore none) := by decide

/-- Rows of the table of V12. -/
theorem test_decode_requests :
    dec (.request 0xA9#8) = some (.swdRequestDpWrite true false true) ∧
    dec (.request 0x95#8) = some (.swdRequestDpRead false true false) ∧
    dec (.request 0xBB#8) = some (.swdRequestApWrite true true true) ∧
    dec (.request 0xAF#8) = some (.swdRequestApRead true false true) ∧
    dec (.request 0xE9#8) = none := by decide

theorem test_decode_wire :
    dec (.ack 0b001#3) = some .swdAckOk ∧
    dec (.ack 0b010#3) = some .swdAckWait ∧
    dec (.ack 0b100#3) = some .swdAckFault ∧
    dec (.ack 0b110#3) = some (.swdAckUndecodable 0b110) ∧
    dec (.data 0x123000052#33) = some (.swdData 0x23000052 true) ∧
    dec (.seqReset 0xFFFFFFFFFFFFFF#56) = some .seqLineReset ∧
    dec (.seq16 0xE79E#16) = some .seqJtagToSwd ∧
    dec (.seq16 0xE73C#16) = some .seqSwdToJtag := by decide

theorem test_decode_status :
    dec (.status 0#2) = some .statusOk ∧ dec (.status 1#2) = some .statusFail ∧
    dec (.status 2#2) = some .statusWait ∧ dec (.status 3#2) = some .statusNotSupported := by decide

/-- Reserved codes name no operation (R74); extra words name none either (R75). -/
theorem test_decode_reserved :
    dec (.words [0x000000000000#48]) = none ∧ dec (.words [0x060000000000#48]) = none ∧
    dec (.words [0xFF0000000000#48]) = none ∧
    dec (.words [0x100000000000#48, 0x100000000000#48]) = none ∧
    dec (.words [0x150000000002#48, 0x310000000000#48]) = none := by decide

/-- Table words, as spec/opcode_table.json numbers their bits. -/
theorem test_tableWord :
    decodeTableWord 48 0x22A500000000 = some (.readReg 0xA5) ∧
    decodeTableWord 48 0x150000000001 = some (.execJtag 1 [.other 0]) ∧
    decodeTableWord 8 0x87 = some (.swdRequestApRead false false false) ∧
    decodeTableWord 3 0x4 = some .swdAckFault ∧
    decodeTableWord 40 0x1FFFFFFFF = some (.swdData 0xFFFFFFFF true) ∧
    decodeTableWord 16 0xE73C = some .seqSwdToJtag ∧
    decodeTableWord 2 0x3 = some .statusNotSupported := by decide

/-! One step at a time. -/

/-- A word placed at the head of the stream runs, right after reset. -/
theorem test_step_after_reset :
    (next? (step (State.reset.withFetchWord 48 0x050300000000))).map (fun t => (t.apDelay, t.status, t.a8, t.pending)) =
      some (3, .ok, 3, []) ∧
    refusal? (step (State.reset.withFetchWord 48 0x22A500000000)) = some .noSwd ∧
    (next? (step (State.reset.withFetchWord 8 0x04))).map (·.qcode) = some .fail := by decide

/-- Codes the host may not issue (R74): an internal one, an unknown one. -/
theorem test_step_not_supported :
    (next? (step { State.resetOn plat with pending := [.host 0x330100000000#48] })).map (fun t => (t.status, t.trace)) =
      some (.notSupported, []) ∧
    (next? (step { State.resetOn plat with pending := [.host 0x7F0000000000#48] })).map (·.status) =
      some .notSupported := by decide

/-- V36. -/
theorem test_cfgPin :
    (next? (exec (.cfgPin 6 (pin 11)) (State.resetOn plat))).map (fun t => (t.pincfg.swclk, t.status)) =
      some (pin 11, .ok) ∧
    (next? (exec (.cfgPin 0 (pin 4)) (swdState [] .ok))).map (fun t => (t.pincfg.tck, t.status)) = some (none, .fail) ∧
    (next? (exec (.cfgPin 8 (pin 4)) (swdState [] .ok))).map (·.status) = some .notSupported := by decide

theorem test_cfgCoeff :
    (next? (exec (.cfgCoeff 0x7FFFFFFF) (State.resetOn plat))).map (fun t => (t.coeff, t.status)) =
      some (0x7FFFFFFF, .ok) ∧
    (next? (exec (.cfgCoeff 0x80000000) (State.resetOn plat))).map (fun t => (t.coeff, t.status)) =
      some (113714, .fail) := by decide

theorem test_cfgOffset :
    (next? (exec (.cfgOffset 0xFFFFFFFB) (State.resetOn plat))).map (fun t => t.offset.toInt) = some (-5) ∧
    (next? (exec (.cfgOffset 1) (swdState [] .ok))).map (fun t => (t.offset, t.status)) = some (28, .fail) := by decide

/-- `ADDR_W` below 32 keeps the low bits, above 32 extends with zeros (R62). -/
theorem test_cfgBase :
    (next? (exec (.cfgBase 0xFE003000) { State.resetOn plat with cfg := { plat with addrW := 16 } })).map (·.base) =
      some 0x3000 ∧
    (next? (exec (.cfgBase 0xFE003000) { State.resetOn plat with cfg := { plat with addrW := 40 } })).map (·.base) =
      some 0xFE003000 := by decide

theorem test_cfgApDelay :
    (next? (exec (.cfgApDelay 255) (swdState [] .ok))).map (fun t => (t.apDelay, t.status)) = some (255, .ok) := by decide

/-- V35: the outcomes of `INIT`, with `acquire()` succeeding. -/
theorem test_init_outcomes :
    let j : PinCfg := { jtagPins with srst := none }
    let run := fun pc => (next? (exec .init { idleState pc with acquireSrc := ⟨[true], 0⟩ })).map fun t => (t.status, t.tmode)
    run PinCfg.allAbsent = some (.fail, .none) ∧
    run swdPins = some (.ok, .swd) ∧
    run { swdPins with swdio := none } = some (.fail, .none) ∧
    run { swdPins with swdio := pin 54 } = some (.fail, .none) ∧
    run j = some (.fail, .none) ∧
    run jtagPins = some (.ok, .jtag) ∧
    run { j with trst := pin 99 } = some (.fail, .none) ∧
    run { j with swclk := pin 11, swdio := pin 25 } = some (.fail, .none) ∧
    run { j with swclk := pin 11, swdio := pin 25, trst := pin 7 } = some (.ok, .dual) ∧
    run { j with tdo := none, swclk := pin 11, swdio := pin 25 } = some (.ok, .swd) ∧
    (next? (exec .init { idleState swdPins with acquireSrc := ⟨[false], 0⟩ })).map
      (fun t => (t.status, t.claimed, t.resHeld)) = some (.fail, [], false) ∧
    (next? (exec .init (swdState [] .wait))).map (fun t => (t.status, t.qcode)) = some (.fail, .wait) := by decide

/-- P5 step 8: shared pins are saved once, the SWD write of the TMS pin comes later, TRST is deasserted. -/
theorem test_init_shared :
    (next? (exec .init { idleState { jtagPins with srst := none, swclk := pin 11, swdio := pin 25, trst := pin 7 } with
        func := [(10, .alt 5), (11, .alt 5), (25, .alt 5)], latch := [(11, true)], qcode := .fail, batchOpen := true
        acquireSrc := ⟨[true], 0⟩ })).map
      (fun t => (([9, 7, 10, 11, 25].map t.savedMode, [11, 25, 10, 7].map t.latchOf),
        ([9, 7, 10, 11, 25].map t.funcOf, engine t))) =
      some (([.input, .input, .alt 5, .alt 5, .alt 5], [false, false, false, true]),
        ([.input, .output, .output, .output, .output], .idle)) := by decide

/-- The example of R176; the latched code, the delays and the latches stay. -/
theorem test_quit :
    (next? (exec .quit { swdState [] .wait with delay := 85, latch := [(11, true)] })).map
      (fun t => ((t.session, t.tmode, t.status), ([11, 25].map t.funcOf, [11, 25].map t.isClaimed),
        (t.qcode, t.delay, t.latchOf 11))) =
      some ((.inactive, .none, .ok), ([.input, .alt 2], [false, false]), (.wait, 85, true)) := by decide

theorem test_swdInit :
    (next? (exec .swdInit (jtagState []))).map (·.status) = some .fail ∧
    (next? (exec .swdInit (swdState [] .ok))).map (·.status) = some .ok := by decide

/-- The example of R124. -/
theorem test_setSpeed :
    (next? (exec (.setSpeed 1000) (State.resetOn plat))).map (fun t => (t.delay, t.status)) = some (85, .ok) ∧
    (next? (exec (.setSpeed 0) { State.resetOn plat with delay := 85 })).map (fun t => (t.delay, t.status)) =
      some (85, .notSupported) := by decide

/-- V9. -/
theorem test_speedToKhz :
    ([0, 1, 28, 85, 113686, 4294967295].map fun d => (next? (exec (.speedToKhz d) (State.resetOn plat))).map (·.rout)) =
      [4061, 3921, 2030, 1006, 1, 0].map some ∧
    ([5, 4, 6].map fun d =>
        (next? (exec (.speedToKhz d) { State.resetOn plat with coeff := 1000, offset := -5, rout := 7 })).map
          fun t => (t.status, t.rout)) =
      [some (.fail, 7), some (.fail, 7), some (.ok, 1000)] := by decide

/-- V8. -/
theorem test_khzToSpeed :
    ([1, 100, 1000, 2000, 2030, 4000, 4061, 4062, 5000, 113714, 113715, 4294967295].map fun k =>
        (next? (exec (.khzToSpeed k) (State.resetOn plat))).map (·.rout)) =
      [113686, 1109, 85, 28, 28, 0, 0, 0, 0, 0, 0, 0].map some ∧
    ([(1000, -5, 100), (0x7FFFFFFF, 0x80000000, 1), (0, 28, 7), (0, -28, 7)].map fun e =>
        (next? (exec (.khzToSpeed e.2.2) { State.resetOn plat with coeff := e.1, offset := e.2.1 })).map (·.rout)) =
      [15, 4294967295, 0, 28].map some := by decide

theorem test_khzToSpeed_zero :
    (next? (exec (.khzToSpeed 0) { State.resetOn plat with rout := 7 })).map (fun t => (t.status, t.rout, t.qcode)) =
      some (.notSupported, 7, .ok) := by decide

/-- V37: one TCK cycle with TMS 1, sampling TDO. -/
theorem test_execJtag :
    (next? (exec (.execJtag 3 [.drive false true false, .read, .drive true true false]) (jtagState [true]))).map
      (fun t => ((t.status, t.jtagOut, t.rout), [11, 25, 10].map t.latchOf, t.trace)) =
      some ((.ok, [true], 1), [true, true, false],
        [.lv .jtag false (some true) false, .smp .jtag true, .lv .jtag true (some true) false]) := by decide

theorem test_execJtag_other :
    (next? (exec (.execJtag 2 [.drive true true true, .other 0x330100000000#48]) (jtagState []))).map
      (fun t => (t.status, t.trace)) = some (.notSupported, []) ∧
    (next? (exec (.execJtag 0 []) (jtagState []))).map (fun t => (t.status, t.trace)) = some (.ok, []) ∧
    (next? (exec (.execJtag 1 [.reset true false]) (swdState [] .ok))).map (·.status) = some .ok ∧
    refusal? (exec (.execJtag 1 [.read]) (swdState [] .ok)) = some .flavourDisabled := by decide

/-- V30, V34. -/
theorem test_switchLineReset :
    (next? (exec .switchLineReset (swdState [] .fail))).map
      (fun t => ((t.status, t.qcode, [11, 25].map t.latchOf), t.trace)) =
      some ((.ok, .fail, [true, true]), sent (List.replicate 56 1)) := by decide +kernel

/-- V31. -/
theorem test_switchJtagToSwd :
    (next? (exec .switchJtagToSwd (swdState [] .ok))).map (fun t => ((t.status, [11, 25].map t.latchOf), t.trace)) =
      some ((.ok, [true, false]), sent [0, 1, 1, 1, 1, 0, 0, 1, 1, 1, 1, 0, 0, 1, 1, 1, 0, 0, 0, 0, 0, 0, 0, 0]) := by
  decide +kernel

/-- V32. -/
theorem test_switchSwdToJtag :
    (next? (exec .switchSwdToJtag (swdState [] .ok))).map (fun t => ((t.status, [11, 25].map t.latchOf), t.trace)) =
      some ((.ok, [true, true]), sent [0, 0, 1, 1, 1, 1, 0, 0, 1, 1, 1, 0, 0, 1, 1, 1]) := by decide +kernel

/-- V33. -/
theorem test_switchUnsupported :
    (next? (exec (.switchUnsupported 255) (swdState [] .wait))).map (fun t => (t.status, t.qcode, t.trace)) =
      some (.notSupported, .wait, []) := by decide

/-- V20: a write to the access port, with `AP_DELAY = 3`. -/
theorem test_writeReg_ok :
    (next? (exec (.writeReg 0xA3 0x23000052) { swdState (bits [1, 1, 0, 0, 0]) .ok with apDelay := 3, delay := 85 })).map
      (fun t => ((t.status, t.qcode, t.batchOpen), ([25, 11].map t.latchOf, t.waited), t.trace)) =
      some ((.ok, .ok, true), ([false, true], (49 * 2) * 85),
        sent [1, 1, 0, 0, 0, 1, 0, 1] ++ turnIn ++ taken [1, 1, 0, 0, 0] ++ turnOut ++
          sent [0, 1, 0, 0, 1, 0, 1, 0, 0, 0, 0, 0, 0, 0, 0, 0] ++
          sent [0, 0, 0, 0, 0, 0, 0, 0, 1, 1, 0, 0, 0, 1, 0, 0] ++ sent [1] ++ sent [0, 0, 0]) := by decide +kernel

/-- V21, V25: WAIT, and a line stuck high. -/
theorem test_writeReg_faults :
    (next? (exec (.writeReg 0xA3 0x23000052) { swdState (bits [1, 0, 1, 0, 1]) .ok with apDelay := 3 })).map
      (fun t => ((t.status, t.qcode, engine t), t.trace)) =
      some ((.wait, .wait, .faulted),
        sent [1, 1, 0, 0, 0, 1, 0, 1] ++ turnIn ++ taken [1, 0, 1, 0, 1] ++ turnOut) ∧
    (next? (exec (.writeReg 0x81 0) (swdState (bits [1, 1, 1, 1, 1]) .ok))).map (fun t => (t.status, t.qcode)) =
      some (.fail, .fail) := by decide +kernel

/-- V22, V23: a read accepted, and one whose parity bit is wrong. -/
theorem test_readReg :
    let data := [1, 1, 1, 0, 1, 1, 1, 0, 0, 0, 1, 0, 1, 0, 0, 0, 0, 0, 0, 0, 0, 1, 0, 1, 1, 1, 0, 1, 0, 1, 0, 0]
    (next? (exec (.readReg 0xA5) (swdState (bits ([0, 1, 0, 0] ++ data ++ [1, 0])) .ok))).map
      (fun t => ((t.status, t.qcode, t.rdata, t.rpar), t.trace)) =
      some ((.ok, .ok, 0x2BA01477, true),
        sent [1, 0, 1, 0, 0, 1, 0, 1] ++ turnIn ++ taken ([0, 1, 0, 0] ++ data ++ [1, 0]) ++ turnOut) ∧
    (next? (exec (.readReg 0xA5)
        { swdState (bits ([0, 1, 0, 0] ++ data ++ [0, 0])) .ok with rdata := 7, rpar := true })).map
      (fun t => (t.status, t.qcode, t.rdata, t.rpar)) = some (.fail, .fail, 7, true) := by decide +kernel

/-- V24, V26: FAULT, and a read that is skipped. -/
theorem test_readReg_faults :
    (next? (exec (.readReg 0x9F) { swdState (bits [0, 0, 0, 1, 0]) .ok with apDelay := 3 })).map
      (fun t => ((t.status, t.qcode), t.trace)) =
      some ((.fail, .fail), sent [1, 1, 1, 1, 1, 0, 0, 1] ++ turnIn ++ taken [0, 0, 0, 1, 0] ++ turnOut) ∧
    (next? (exec (.readReg 0x8D) (swdState [] .wait))).map (fun t => (t.status, t.qcode, t.trace)) =
      some (.wait, .wait, []) := by decide +kernel

/-- V28: the assertions, also while faulted. -/
theorem test_assertions :
    refusal? (exec (.writeReg 0xA5 0) (swdState [] .fail)) = some .assertRnwOnWrite ∧
    refusal? (exec (.readReg 0xA3) (swdState [] .fail)) = some .assertNoRnwOnRead := by decide

/-- V29. -/
theorem test_runQueue :
    (next? (exec .runQueue { swdState [] .fail with batchOpen := true })).map
      (fun t => ((t.status, t.qcode, t.batchOpen), t.trace)) =
      some ((.fail, .ok, false), sent [0, 0, 0, 0, 0, 0, 0, 0]) := by decide +kernel

/-- V4: the masks. -/
theorem test_drive_masks :
    ([[(11, false), (25, false)], [(11, true), (25, false)], [(11, false), (25, true)], [(11, true), (25, true)]].map
        fun ls => (setMask ls, clrMask ls)) =
      [([], [11, 25]), ([11], [25]), ([25], [11]), ([11, 25], [])] := by decide

/-- V4: flavour JTAG, `DRIVE(JTAG,1,0,1)`; a TMS argument of flavour SWD is ignored. -/
theorem test_drive :
    (next? (exec (.drive .jtag true false true) { jtagState [] with delay := 3 })).map
      (fun t => ([11, 25, 10].map t.latchOf, t.waited)) = some ([true, false, true], 3) ∧
    (next? (exec (.drive .swd false true true) (swdState [] .ok))).map (fun t => ([11, 25].map t.latchOf, t.trace)) =
      some ([false, true], [.lv .swd false none true]) := by decide

/-- V6: the core's own latch, then a bit from the line, with no wait. -/
theorem test_read :
    (next? (exec (.read .swd) { swdState [false] .ok with latch := [(25, true)], delay := 3 })).map
      (fun t => (t.rout, t.lineSrc.given, t.waited)) = some (1, [false], 0) ∧
    (next? (exec (.read .swd) { swdState [true] .ok with func := [(11, .output)], swdioDir := .inp })).map
      (fun t => (t.rout, t.lineSrc.given)) = some (1, []) := by decide

/-- V5. -/
theorem test_reset :
    (next? (exec (.reset false true) (jtagState []))).map (fun t => (t.latchOf 18, t.trace)) =
      some (false, [.rst false true]) ∧
    (next? (exec (.reset true false) { jtagState [] with latch := [] })).map (·.latchOf 18) = some true ∧
    (next? (exec (.reset true true) (swdState [] .ok))).map (·.latch) = some [] := by decide

/-- V6: the direction given is set, the saved mode stays. -/
theorem test_driveDirection :
    (next? (exec (.driveDirection false) (swdState [] .ok))).map (fun t => (t.swdioDir, t.funcOf 25, t.savedMode 25)) =
      some (.inp, .input, .alt 2) ∧
    (next? (exec (.driveDirection true) { swdState [] .ok with func := [(11, .output)], swdioDir := .inp })).map
      (fun t => (t.swdioDir, t.funcOf 25, t.trace)) = some (.out, .output, turnOut) := by decide

/-- V1. -/
theorem test_validate :
    ([pin 0, pin 53, pin 54, pin 0x7FFFFFFF, none].map fun x =>
        (next? (exec (.validate x) (State.resetOn plat))).map (·.rout)) = [1, 1, 0, 0, 0].map some := by decide

/-- V2: claims record the first mode alone. -/
theorem test_claimOut :
    (next? (exec (.claimOut (pin 25)) (idleState swdPins))).map
      (fun t => (t.savedMode 25, t.isClaimed 25, t.funcOf 25)) = some (.alt 2, true, .output) ∧
    refusal? (exec (.claimOut (pin 54)) (idleState swdPins)) = some .badPin := by decide

theorem test_claimIn :
    (next? (exec (.claimIn (pin 25)) (swdState [] .ok))).map (fun t => (t.savedMode 25, t.funcOf 25)) =
      some (.alt 2, .input) ∧
    refusal? (exec (.claimIn none) (swdState [] .ok)) = some .badPin := by decide

/-- V2: a restore, and a second one that does nothing; but a co-processor that falls silent hangs that one too (R212). -/
theorem test_restore :
    (next? (exec (.restore (pin 25)) (swdState [] .ok))).map (fun t => (t.funcOf 25, t.isClaimed 25)) =
      some (.alt 2, false) ∧
    (next? (exec (.restore (pin 25)) (idleState swdPins))).map (fun t => (t.funcOf 25, t.trace)) =
      some (.alt 2, []) ∧
    [pin 25, pin 54, none].map (fun x => next? (exec (.restore x)
      { idleState swdPins with cfg := { plat with impl := .coproc }, coprocSrc := ⟨[false], 0⟩ })) =
      [none, none, none] := by decide

/-- V12: the wire order of a request. -/
theorem test_requests :
    (next? (exec (.swdRequestDpWrite true false true) (swdState [] .ok))).map (·.trace) =
      some (sent [1, 0, 0, 1, 0, 1, 0, 1]) ∧
    (next? (exec (.swdRequestDpRead false true false) (swdState [] .ok))).map (·.trace) =
      some (sent [1, 0, 1, 0, 1, 0, 0, 1]) ∧
    (next? (exec (.swdRequestApWrite true true true) (swdState [] .ok))).map (·.trace) =
      some (sent [1, 1, 0, 1, 1, 1, 0, 1]) ∧
    (next? (exec (.swdRequestApRead true false true) (swdState [] .ok))).map (·.trace) =
      some (sent [1, 1, 1, 1, 0, 1, 0, 1]) := by decide +kernel

/-- V13. -/
theorem test_acks :
    ([[1, 0, 0], [0, 1, 0], [0, 0, 1], [0, 0, 0], [1, 1, 0], [1, 0, 1], [0, 1, 1], [1, 1, 1]].map fun l =>
        codeOfAck (decodeAck Decided.spec (valueOfBits 3 (bits l)))) =
      [.ok, .wait, .fail, .fail, .fail, .fail, .fail, .fail] := by decide

theorem test_ack_rows :
    (next? (exec .swdAckOk (swdState [] .ok))).map (·.qcode) = some .ok ∧
    (next? (exec .swdAckWait (swdState [] .ok))).map (·.qcode) = some .wait ∧
    (next? (exec .swdAckFault (swdState [] .wait))).map (·.qcode) = some .wait ∧
    (next? (exec (.swdAckUndecodable 0b110) (swdState [] .ok))).map (·.qcode) = some .fail := by decide

/-- The data phase of V20, received (V27) and with a wrong parity bit. -/
theorem test_swdData :
    (next? (exec (.swdData 0x23000052 true) { swdState [] .ok with swdioDir := .inp })).map
      (fun t => (t.rdata, t.rpar, t.qcode)) = some (0x23000052, true, .ok) ∧
    (next? (exec (.swdData 0x23000052 false) { swdState [] .ok with swdioDir := .inp })).map
      (fun t => (t.rdata, t.rpar, t.qcode)) = some (0, false, .fail) := by decide

/-- V31, V32 again, from the rows of the wire. -/
theorem test_sequence_rows :
    (next? (exec .seqLineReset (swdState [] .ok))).map (·.trace.length) = some 112 ∧
    (next? (exec .seqJtagToSwd (swdState [] .ok))).map (·.trace) =
      some (sent [0, 1, 1, 1, 1, 0, 0, 1, 1, 1, 1, 0, 0, 1, 1, 1, 0, 0, 0, 0, 0, 0, 0, 0]) ∧
    (next? (exec .seqSwdToJtag (swdState [] .ok))).map (·.trace) =
      some (sent [0, 0, 1, 1, 1, 1, 0, 0, 1, 1, 1, 0, 0, 1, 1, 1]) := by decide +kernel

theorem test_status_rows :
    ([Instr.statusOk, .statusFail, .statusWait, .statusNotSupported].map fun i =>
        (next? (exec i { State.resetOn plat with status := .wait })).map (·.status)) =
      [.ok, .fail, .wait, .notSupported].map some := by decide

/-- V10. -/
theorem test_parity :
    ([0x00000000, 0x00000001, 0x00000003, 0x00000007, 0x80000000, 0x50000000, 0xFFFFFFFE, 0xFFFFFFFF, 0x12345678,
        0xDEADBEEF, 0xA5A5A5A5, 0x23000052, 0x2BA01477].map parityOdd) =
      bits [1, 0, 1, 0, 0, 1, 0, 1, 0, 1, 1, 1, 1] := by decide

/-- V11. -/
theorem test_header :
    ([0x00, 0xFF, 0x40, 0x7E, 0x24, 0x25, 0xA5, 0x5A].map header) =
      [0x81, 0xBF, 0x81, 0xBF, 0xA5, 0xA5, 0xA5, 0x9B] := by decide

/-! Values that meet the hypotheses of the statements, each clause at a boundary of its range. -/

theorem swdState_inv (given : List Bool) (q : QCode) : SessionInv (swdState given q) where
  activeMode := by simp [swdState, State.resetOn]
  activeHeld := by simp [swdState, State.resetOn]
  inactiveUnclaimed := fun h => by simp [swdState] at h
  claimedValid := fun p h => by
    simp only [State.isClaimed, swdState, tableRead] at h
    split at h <;> [skip; split at h] <;> first | (simp [swdState, State.resetOn, plat]; omega) | simp at h
  jtagClaimed := fun h => by simp [swdState, modeAllows] at h
  swdClaimed := fun _ r hr => by
    simp only [List.mem_cons, List.not_mem_nil, or_false] at hr
    rcases hr with rfl | rfl
    · exact ⟨11, rfl, rfl⟩
    · exact ⟨25, rfl, rfl⟩
  resetClaimed := fun _ r hr p hp => by
    simp only [List.mem_cons, List.not_mem_nil, or_false] at hr
    rcases hr with rfl | rfl <;> cases hp
  swdioOut := fun _ => ⟨rfl, fun p hp => by cases hp; rfl⟩
  decided := rfl
  apDelayFits := Nat.two_pow_pos _
  baseFits := Nat.mod_lt _ (Nat.two_pow_pos _)
  tablesWf := ⟨rfl, rfl, rfl, rfl⟩
  modesValid := fun p => by
    simp only [State.funcOf, State.savedMode, swdState, tableRead]
    constructor
    · split <;> [skip; split] <;> trivial
    · split <;> simp [validMode, State.resetOn, plat]

theorem swdState_session (given : List Bool) (q : QCode) : SwdSession (swdState given q) :=
  ⟨swdState_inv given q, rfl, rfl⟩

theorem jtagState_inv (given : List Bool) : SessionInv (jtagState given) where
  activeMode := by simp [jtagState, State.resetOn]
  activeHeld := by simp [jtagState, State.resetOn]
  inactiveUnclaimed := fun h => by simp [jtagState] at h
  claimedValid := fun p h => by
    by_contra hp
    have hp' : 53 < p := by simpa [jtagState, State.resetOn, plat] using hp
    have : (jtagState given).isClaimed p = false := by
      simp only [State.isClaimed, jtagState, tableRead]
      repeat rw [if_neg (by omega)]
    rw [this] at h
    cases h
  jtagClaimed := fun _ r hr => by
    simp only [List.mem_cons, List.not_mem_nil, or_false] at hr
    rcases hr with rfl | rfl | rfl | rfl
    · exact ⟨11, rfl, rfl⟩
    · exact ⟨25, rfl, rfl⟩
    · exact ⟨10, rfl, rfl⟩
    · exact ⟨9, rfl, rfl⟩
  swdClaimed := fun h => by simp [jtagState, modeAllows] at h
  resetClaimed := fun _ r hr p hp => by
    simp only [List.mem_cons, List.not_mem_nil, or_false] at hr
    rcases hr with rfl | rfl <;> cases hp
    rfl
  swdioOut := fun h => by simp [jtagState, modeAllows] at h
  decided := rfl
  apDelayFits := Nat.two_pow_pos _
  baseFits := Nat.mod_lt _ (Nat.two_pow_pos _)
  tablesWf := ⟨rfl, rfl, rfl, rfl⟩
  modesValid := fun p => by
    constructor
    · simp only [State.funcOf, jtagState, tableRead]
      repeat' split
      all_goals trivial
    · simp [State.savedMode, jtagState, State.resetOn, tableRead, validMode]

theorem idleState_inv (pc : PinCfg) : SessionInv (idleState pc) where
  activeMode := by simp [idleState, State.resetOn]
  activeHeld := by simp [idleState, State.resetOn]
  inactiveUnclaimed := fun _ p => rfl
  claimedValid := fun p h => by cases h
  jtagClaimed := fun h => by simp [idleState, State.resetOn, modeAllows] at h
  swdClaimed := fun h => by simp [idleState, State.resetOn, modeAllows] at h
  resetClaimed := fun h => by simp [idleState, State.resetOn] at h
  swdioOut := fun h => by simp [idleState, State.resetOn, modeAllows] at h
  decided := rfl
  apDelayFits := Nat.two_pow_pos _
  baseFits := Nat.mod_lt _ (Nat.two_pow_pos _)
  tablesWf := ⟨rfl, rfl, rfl, rfl⟩
  modesValid := fun p => by
    constructor
    · simp only [State.funcOf, idleState, tableRead]
      repeat' split
      all_goals simp [validMode, State.resetOn, plat]
    · simp [State.savedMode, idleState, State.resetOn, tableRead, validMode]

/-- Statement DecodeEncodeAgree: well-formed terms at the edges of the three checks. -/
theorem witness_DecodeEncodeAgree :
    (Instr.execJtag 1 [.other 0x310800000000#48]).wf = true ∧ (Instr.switchUnsupported 3).wf = true ∧
    (Instr.swdAckUndecodable 0b111#3).wf = true := by decide

/-- Statement DecodedIsWellFormed. -/
theorem witness_DecodedIsWellFormed : dec (.words [0x21FF00000000#48]) = some (.switchUnsupported 0xFF) := by decide

/-- Statement StepRunsHostOperation. -/
theorem witness_StepRunsHostOperation :
    { State.resetOn plat with pending := [.host 0x150000000001#48, .host 0x310000000000#48, .host 0#48] }.pending =
      [0x150000000001#48, 0x310000000000#48].map Request.host ++ [.host 0#48] ∧
    dec (.words [0x150000000001#48, 0x310000000000#48]) = some (.execJtag 1 [.read]) ∧
    (Instr.execJtag 1 [.read]).level = .host := by decide

/-- Statement StepRunsComponentRequest: a frame that decodes, and one that does not. -/
theorem witness_StepRunsComponentRequest :
    { State.resetOn plat with pending := [.component (.words [0x330000000000#48])] }.pending =
      [.component (.words [0x330000000000#48])] ∧
    dec (.words [0x330000000000#48]) = some (.driveDirection false) ∧ dec (.request 0#8) = none := by decide

/-- Statement HostPortAnswersNotSupported: codes next to listed ones. -/
theorem witness_HostPortAnswersNotSupported :
    ∀ w ∈ [0x000000000000#48, 0x060000000000#48, 0x160000000000#48, 0x250000000000#48, 0x300000000000#48, 0xFF0000000000#48],
      opField w ∉ [0x01#8, 0x02#8, 0x03#8, 0x04#8, 0x05#8, 0x10#8, 0x11#8, 0x12#8, 0x13#8, 0x14#8, 0x15#8, 0x20#8, 0x21#8,
        0x22#8, 0x23#8, 0x24#8] := by simp [opField]

/-- Statement StepWaitsForHost: nothing pending, and one word short. -/
theorem witness_StepWaitsForHost :
    (State.resetOn plat).pending = [] ∧ [0x310000000000#48].length < extraWords 0x150000000002#48 := by decide

/-- Statements ResetValues, ResetMeetsInvariant and CfgApDelaySetsCount. -/
theorem witness_ResetValues : plat.defaultBase < 2 ^ plat.addrW ∧ plat.toDecided = Decided.spec := by decide

/-- Statement StepKeepsInvariant: a state in a session, with an operation to run. -/
theorem witness_StepKeepsInvariant :
    Inv { swdState [] .fail with pending := [.host 0x240000000000#48] } ∧
    (next? (step { swdState [] .fail with pending := [.host 0x240000000000#48] })).isSome = true := by
  refine ⟨⟨?_, ?_⟩, by decide +kernel⟩
  · have h := swdState_inv [] .fail
    exact ⟨h.1, h.2, h.3, h.4, h.5, h.6, h.7, h.8, h.9, h.10, h.11, h.12, h.13⟩
  · simp [HostOnly]

/-- Statements ConfigurationFrozenInSession, OnlyInitAndQuitChangePhase and OneWaitPerDrive. -/
theorem witness_anyOperation :
    (swdState [] .ok).session = .active ∧ (next? (exec .switchSwdToJtag (swdState [] .ok))).isSome = true ∧
    Instr.switchSwdToJtag ≠ .init ∧ Instr.switchSwdToJtag ≠ .quit := by decide +kernel

/-- Statement PreSessionModeKept: an operation that restores. -/
theorem witness_PreSessionModeKept :
    (next? (exec .quit (swdState [] .ok))).map (fun t => preSessionMode t 25) = some (preSessionMode (swdState [] .ok) 25) := by
  decide

/-- Statement ValidateAnswersRange: on both sides of `PIN_MAX`. -/
theorem witness_ValidateAnswersRange :
    (53#31).toNat ≤ (State.resetOn plat).cfg.pinMax ∧ (State.resetOn plat).cfg.pinMax < (54#31).toNat := by decide

/-- Statement ClaimsSaveOnceAndSetMode: on both sides of `PIN_MAX`. -/
theorem witness_ClaimsSaveOnceAndSetMode :
    (idleState swdPins).cfg.impl = .direct ∧ (53#31).toNat ≤ (idleState swdPins).cfg.pinMax ∧
    (idleState swdPins).cfg.pinMax < (54#31).toNat := by decide

/-- Statement RestoreWritesBackMode: a claimed pin, an unclaimed one, one out of range. -/
theorem witness_RestoreWritesBackMode :
    (swdState [] .ok).cfg.impl = .direct ∧ (25#31).toNat ≤ (swdState [] .ok).cfg.pinMax ∧
    (swdState [] .ok).isClaimed (25#31).toNat = true ∧ (swdState [] .ok).isClaimed (53#31).toNat = false ∧
    (swdState [] .ok).cfg.pinMax < (54#31).toNat := by decide

/-- Statement DriveJtagSetsLines: distinct pins, and TMS sharing the pin of TCK with another level and with its own. -/
theorem witness_DriveJtagSetsLines :
    let s := { jtagState [] with pincfg := { jtagPins with tms := pin 11 } }
    enabled .jtag (jtagState []) = true ∧ (jtagState []).cfg.impl = .direct ∧ pinOf .tck (jtagState []) = some 11 ∧
    pinOf .tms (jtagState []) = some 25 ∧ pinOf .tdi (jtagState []) = some 10 ∧
    ((25, true) ∈ [(11, false), (25, true), (10, false)] ∧ (25, !true) ∉ [(11, false), (25, true), (10, false)]) ∧
    ((0 : Nat) ∉ [11, 25, 10]) ∧
    enabled .jtag s = true ∧ pinOf .tck s = some 11 ∧ pinOf .tms s = some 11 ∧ pinOf .tdi s = some 10 ∧
    ((11, true) ∈ [(11, true), (11, true), (10, false)] ∧ (11, !true) ∉ [(11, true), (11, true), (10, false)]) ∧
    (11, !true) ∈ [(11, true), (11, false), (10, false)] := by decide

/-- Statement DriveSwdSetsLines: distinct pins, and one pin for both lines. -/
theorem witness_DriveSwdSetsLines :
    let s := { swdState [] .ok with pincfg := { swdPins with swclk := pin 25 } }
    enabled .swd (swdState [] .ok) = true ∧ (swdState [] .ok).cfg.impl = .direct ∧
    pinOf .swclk (swdState [] .ok) = some 11 ∧ pinOf .swdio (swdState [] .ok) = some 25 ∧
    enabled .swd s = true ∧ pinOf .swclk s = some 25 ∧ pinOf .swdio s = some 25 := by decide

/-- Statement ReadSamplesLine: an output, an input with a bit given, an input with none. -/
theorem witness_ReadSamplesLine :
    enabled .swd (swdState [] .ok) = true ∧ pinOf .swdio (swdState [] .ok) = some 25 ∧
    (swdState [] .ok).funcOf 25 = .output ∧
    enabled .jtag (jtagState [true]) = true ∧ pinOf .tdo (jtagState [true]) = some 9 ∧
    (jtagState [true]).funcOf 9 ≠ .output ∧ (jtagState [true]).lineSrc.given = true :: [] ∧
    (jtagState []).lineSrc.given = [] := by decide

/-- Statement ResetDrivesLines: one line, no line, both on one pin with one level. -/
theorem witness_ResetDrivesLines :
    let s := { jtagState [] with pincfg := { jtagPins with trst := pin 18 } }
    (jtagState []).session = .active ∧ (jtagState []).cfg.impl = .direct ∧
    pinOf .srst (jtagState []) = some 18 ∧ pinOf .trst (jtagState []) ≠ some 18 ∧
    pinOf .trst (swdState [] .ok) = none ∧ pinOf .srst (swdState [] .ok) = none ∧
    pinOf .trst s = some 18 ∧ pinOf .srst s = some 18 := by decide

/-- Statement DriveDirectionSetsDirection. -/
theorem witness_DriveDirectionSetsDirection :
    enabled .swd (swdState [] .ok) = true ∧ (swdState [] .ok).cfg.impl = .direct ∧
    pinOf .swdio (swdState [] .ok) = some 25 := by decide

/-- Statements DriverRefusedWhenDisabled and EngineRefusals: no session, and sessions of the other mode. -/
theorem witness_refusals :
    enabled .jtag (State.resetOn plat) = false ∧ enabled .swd (State.resetOn plat) = false ∧
    enabled .swd (jtagState []) = false ∧ enabled .jtag (swdState [] .ok) = false ∧
    (State.resetOn plat).session = .inactive ∧ (∀ w ∈ [StreamWord.read], primitiveInstr w ≠ none) ∧
    ((swdState [] .ok).session = .active ∧ modeAllows .jtag (swdState [] .ok).tmode = false ∧
      (swdState [] .ok).cfg.impl = .direct ∧ (∀ w ∈ [StreamWord.reset true false, .read], primitiveInstr w ≠ none) ∧
      ∃ w ∈ [StreamWord.reset true false, .read], w = .read) ∧
    (State.resetOn plat).cfg.toDecided = Decided.spec ∧
    (State.resetOn plat).swdioDir = .out ∧ enabled .swd (swdState [] .fail) = true ∧
    (0xA5#8).getLsbD 2 = true ∧ (0xA3#8).getLsbD 2 = false := by decide

/-- Statements DelayFromKhz and SetSpeedSetsDelay. -/
theorem witness_DelayFromKhz : (1 : Word) ≠ 0 ∧ (0xFFFFFFFF : Word) ≠ 0 := by decide

/-- Statement SpeedToKhzDivides: the smallest positive divisor, and zero. -/
theorem witness_SpeedToKhzDivides :
    let s := { State.resetOn plat with offset := -5 }
    0 < ((6 : Word).toNat : Int) + s.offset.toInt ∧ ((5 : Word).toNat : Int) + s.offset.toInt ≤ 0 := by decide

/-- Statement DelayNonIncreasingInKhz. -/
theorem witness_DelayNonIncreasingInKhz :
    (1 : Word) ≠ 0 ∧ (1 : Word).toNat ≤ (2 : Word).toNat ∧
    (next? (exec (.khzToSpeed 1) (State.resetOn plat))).isSome = true ∧
    (next? (exec (.khzToSpeed 2) (State.resetOn plat))).isSome = true := by decide

/-- Statement CfgPinConfiguresRole: both phases, and the first code that names no role. -/
theorem witness_CfgPinConfiguresRole :
    (State.resetOn plat).session = .inactive ∧ (swdState [] .ok).session = .active ∧ 7 < (8#8).toNat := by decide

/-- Statement CfgTimingAndBase: both phases, both sides of `2^31`. -/
theorem witness_CfgTimingAndBase :
    (State.resetOn plat).session = .inactive ∧ (0x7FFFFFFF#32).toNat < 2 ^ 31 ∧ 2 ^ 31 ≤ (0x80000000#32).toNat ∧
    (swdState [] .ok).session = .active := by decide

/-- Statement InitFails: each of the four reasons, the draw given. -/
theorem witness_InitFails :
    let b := idleState { jtagPins with srst := none }
    let d := { idleState swdPins with acquireSrc := ⟨[false], 0⟩ }
    (swdState [] .ok).session = .active ∧
    ((∀ r ∈ [Role.tck, .tms, .tdi, .tdo], pinOf r b ≠ none) ∧ pinOf .trst b = none ∧ pinOf .srst b = none) ∧
    ((∃ r ∈ [Role.tck, .tms, .tdi, .tdo], pinOf r (State.resetOn plat) = none) ∧
      ∃ r ∈ [Role.swclk, .swdio], pinOf r (State.resetOn plat) = none) ∧
    (initRefuses d = false ∧ d.cfg.impl = .direct ∧ d.acquireSrc.draw Config.freeAcquire = (false, ⟨[], 0⟩)) := by
  decide

/-- Statement InitStartsSession: each mode, with no shared pin; and a session without SWD. -/
theorem witness_InitStartsSession :
    ∀ pc ∈ [swdPins, jtagPins, { jtagPins with swclk := pin 0, swdio := pin 53 }],
      let s := { idleState pc with acquireSrc := ⟨[true], 0⟩ }
      SessionInv s ∧ initRefuses s = false ∧ s.cfg.impl = .direct ∧
        s.acquireSrc.draw Config.freeAcquire = (true, ⟨[], 0⟩) ∧ (sessionPins s).Nodup := by
  intro pc hpc
  have h := idleState_inv pc
  refine ⟨⟨h.1, h.2, h.3, h.4, h.5, h.6, h.7, h.8, h.9, h.10, h.11, h.12, h.13⟩, ?_⟩
  clear h
  revert pc
  decide +kernel

/-- Statement InitStartsSession, its clauses on shared pins: pin 25 is TMS and SWDIO (P5), the last claim and the last
level write that name it are SWDIO's; pin 9 is TDO alone, which no level write names. -/
theorem witness_InitStartsSession_shared :
    let s := idleState { jtagPins with swclk := pin 11, swdio := pin 25 }
    sessionRoles s = [.tdo, .tck, .tms, .tdi, .swclk] ++ .swdio :: [.trst, .srst] ∧ pinOf .tms s = some 25 ∧
    pinOf .swdio s = some 25 ∧ (∀ q ∈ [Role.trst, .srst], pinOf q s ≠ some 25) ∧
    levelGroups s = [[.tms, .tck, .tdi]] ++ [.swclk, .swdio] :: [[.trst], [.srst]] ∧
    (∃ r ∈ [Role.swclk, .swdio], pinOf r s = some 25) ∧
    (∀ r ∈ [Role.swclk, .swdio], pinOf r s = some 25 → initialLevel r = false) ∧
    (∀ h ∈ [[Role.trst], [.srst]], ∀ r ∈ h, pinOf r s ≠ some 25) ∧
    ∀ g ∈ levelGroups s, ∀ r ∈ g, pinOf r s ≠ some 9 := by decide

/-- Statement QuitRestoresPins: both phases. -/
theorem witness_QuitRestoresPins :
    SessionInv (swdState [] .ok) ∧ (swdState [] .ok).session = .active ∧ (swdState [] .ok).cfg.impl = .direct ∧
    (State.resetOn plat).session = .inactive := ⟨swdState_inv _ _, by decide⟩

/-- Statement SwdInitAnswersCapability: each reason. -/
theorem witness_SwdInitAnswersCapability :
    (swdState [] .ok).session = .active ∧ (swdState [] .ok).tmode = .swd ∧ (State.resetOn plat).session = .inactive ∧
    (jtagState []).tmode = .jtag := by decide

/-- Statements ExecJtagChecksStream and ExecJtagRunsPrimitives: with a word that is none, with JTAG, without it. -/
theorem witness_ExecJtag :
    (∃ w ∈ [StreamWord.read, .other 0x330100000000#48], primitiveInstr w = none) ∧
    SessionInv (jtagState []) ∧ (jtagState []).session = .active ∧ (jtagState []).cfg.impl = .direct ∧
    (∀ w ∈ [StreamWord.drive true false true, .read], primitiveInstr w ≠ none) ∧
    modeAllows .jtag (jtagState []).tmode = true ∧
    SessionInv (swdState [] .ok) ∧ ∀ w ∈ [StreamWord.reset true false], ∃ a b, w = .reset a b :=
  ⟨by decide, jtagState_inv _, by decide, by decide, by decide, by decide, swdState_inv _ _, by decide⟩

/-- Statement WriteRegTransmits. -/
theorem witness_WriteRegTransmits :
    SwdSession (swdState [true, true, false, false, false] .ok) ∧ (0xA3#8).getLsbD 2 = false ∧
    (swdState [true, true, false, false, false] .ok).qcode = .ok ∧
    pinOf .swdio (swdState [true, true, false, false, false] .ok) = some 25 ∧
    (swdState [true, true, false, false, false] .ok).lineSrc.given = [true, true, false, false, false] ++ [] :=
  ⟨swdState_session _ _, by decide⟩

/-- Statement BadAckLatchesFault: WAIT on a write, an undecodable ACK on a read. -/
theorem witness_BadAckLatchesFault :
    SwdSession (swdState [true, false, true, false, true] .ok) ∧ isRegisterOp (.writeReg 0xA3 0) = true ∧
    (∃ v, Instr.writeReg 0xA3 0 = .writeReg 0xA3 v) ∧ isRegisterOp (.readReg 0xA5) = true ∧
    [false, true, false] ≠ [true, false, false] ∧ [true, true, true] ≠ [true, false, false] ∧
    (swdState [true, false, true, false, true] .ok).lineSrc.given = [true, false, true, false, true] ++ [] ∧
    (swdState [true, true, true, true, true] .ok).lineSrc.given = [true, true, true, true, true] ++ [] :=
  ⟨swdState_session _ _, by decide, ⟨0, rfl⟩, by decide⟩

/-- The draws of an accepted read of `v`. -/
def readDraws (v : Word) (good : Bool) : List Bool :=
  [true, true, false, false] ++ wireBits v ++ [if good then parityOdd v else !parityOdd v, false]

/-- Statements ReadRegAccepts and ReadRegRejectsBadParity. -/
theorem witness_ReadReg :
    (∀ good, SwdSession (swdState (readDraws 0x2BA01477 good) .ok)) ∧ (0xA5#8).getLsbD 2 = true ∧
    (swdState (readDraws 0x2BA01477 true) .ok).lineSrc.given =
      [true, true, false, false] ++ wireBits 0x2BA01477#32 ++ [parityOdd 0x2BA01477, false] ++ [] ∧
    (swdState (readDraws 0x2BA01477 false) .ok).lineSrc.given =
      [true, true, false, false] ++ wireBits 0x2BA01477#32 ++ [!parityOdd 0x2BA01477, false] ++ [] :=
  ⟨fun _ => swdState_session _ _, by decide⟩

/-- Statements RegisterOperationsComplete, FaultedOperationSkipped and StickyErrorBatch. -/
theorem witness_registerOperations :
    SwdSession (swdState [] .ok) ∧ SwdSession (swdState [] .wait) ∧ isRegisterOp (.writeReg 0xA3 0) = true ∧
    enabled .swd (swdState [] .wait) = true ∧ (swdState [] .wait).qcode ≠ .ok ∧ (swdState [] .fail).qcode ≠ .ok ∧
    [Instr.writeReg 0xB1 0xF0, .readReg 0x8D] ≠ [] ∧
    ∀ i ∈ [Instr.writeReg 0xB1 0xF0, .readReg 0x8D], isRegisterOp i = true :=
  ⟨swdState_session _ _, swdState_session _ _, by decide⟩

/-- Statement OnlyFlushAndInitClearFault: an operation that could latch, and one of a port that could not. -/
theorem witness_OnlyFlushAndInitClearFault :
    (next? (exec .swdAckFault (swdState [] .wait))).isSome = true ∧ (swdState [] .wait).qcode ≠ .ok ∧
    (next? (exec .switchSwdToJtag (swdState [] .wait))).isSome = true ∧ Instr.switchSwdToJtag.level ≠ .format := by
  decide +kernel

/-- Statements RunQueueFlushes, SwitchSequencesOnWire and SentRowsOnWire. -/
theorem witness_wire :
    SwdSession (swdState [] .fail) ∧ pinOf .swclk (swdState [] .fail) = some 11 ∧
    pinOf .swdio (swdState [] .fail) = some 25 ∧ 11 ≠ 25 := ⟨swdState_session _ _, by decide⟩

/-- Statement UnknownSequenceUnsupported: the edges of the range. -/
theorem witness_UnknownSequenceUnsupported : 3 ≤ (3#8).toNat ∧ 3 ≤ (255#8).toNat := by decide

/-- Statements AckRowsLatch and DataRowSendsOrAccepts: each clause. -/
theorem witness_receivedRows :
    SwdSession (swdState [] .ok) ∧ (swdState [] .ok).cfg.toDecided = Decided.spec ∧ (swdState [] .ok).qcode = .ok ∧
    (swdState [] .fail).qcode ≠ .ok ∧ { swdState [] .ok with swdioDir := .inp }.swdioDir = .inp ∧ true = parityOdd 0 ∧ false ≠ parityOdd 0 :=
  ⟨swdState_session _ _, by decide⟩

/-- Statement SwclkHighAfterCycles: an operation that makes cycles, and one that makes none. -/
theorem witness_SwclkHighAfterCycles :
    SessionInv (swdState [] .ok) ∧ enabled .swd (swdState [] .ok) = true ∧ pinOf .swclk (swdState [] .ok) = some 11 ∧
    pinOf .swdio (swdState [] .ok) = some 25 ∧ Instr.switchSwdToJtag.level ≠ .internal ∧
    (next? (exec .switchSwdToJtag (swdState [] .ok))).isSome = true ∧
    (next? (exec .swdInit (swdState [] .ok))).isSome = true := ⟨swdState_inv _ _, by decide +kernel⟩

/-- The SWD session with a co-processor that will give these answers. -/
def coprocState (answers : List Bool) : State :=
  { swdState [] .ok with cfg := { plat with impl := .coproc }, coprocSrc := ⟨answers, 0⟩ }

/-- Statements DirectNeverHangs, CoprocessorAgreesWithDirect and AnsweringCoprocessorCompletes. -/
theorem witness_coprocessor :
    (swdState [] .ok).cfg.impl = .direct ∧ (coprocState []).cfg.impl = .coproc ∧
    (next? (exec (.drive .swd true false true) (coprocState [true]))).isSome = true ∧
    (next? (exec (.drive .swd true false true) (asDirect (coprocState [])))).isSome = true := by decide

/-- Statement SilentCoprocessorHangs, the first request: each clause. -/
theorem witness_SilentCoprocessorHangs_first :
    let s := coprocState [false]
    let j := { jtagState [] with cfg := { plat with impl := .coproc }, coprocSrc := ⟨[false], 0⟩ }
    s.cfg.impl = .coproc ∧ s.coprocSrc.given = false :: [] ∧
    (enabled .swd s = true ∧ ∀ r ∈ flavourRoles .swd, pinOf r s ≠ none) ∧
    j.cfg.impl = .coproc ∧ j.coprocSrc.given = false :: [] ∧
    (enabled .jtag j = true ∧ ∀ r ∈ flavourRoles .jtag, pinOf r j ≠ none) ∧
    s.session = .active ∧ validPin s.cfg (pin 53) ≠ none ∧ initRefuses { s with session := .inactive } = false ∧
    11 ≤ s.cfg.pinMax ∧ s.isClaimed 11 = true ∧ isRegisterOp (.readReg 0xA5) = true ∧ s.qcode = .ok ∧
    (∀ v ∈ [StreamWord.reset true true, .read], primitiveInstr v ≠ none) ∧
    ∀ v ∈ [StreamWord.drive true true true], primitiveInstr v ≠ none := by decide

/-- Statement SilentCoprocessorHangs, in mid-operation: a line reset that hangs in its last `DRIVE`, and a stream that
hangs in its last word. -/
theorem witness_SilentCoprocessorHangs_later :
    let s := coprocState (List.replicate 111 true ++ [false])
    let r := coprocState [true, false]
    s.cfg.impl = .coproc ∧ s.cfg.toDecided = Decided.spec ∧
    (enabled .swd s = true ∧ ∀ r ∈ flavourRoles .swd, pinOf r s ≠ none) ∧
    111 < (driveInstrs (sentBits .switchLineReset)).length ∧
    s.coprocSrc.given = List.replicate 111 true ++ false :: [] ∧
    (coprocState []).swdioDir = .out ∧
    (∀ v ∈ [StreamWord.reset true true] ++ .reset false false :: [], primitiveInstr v ≠ none) ∧
    execAll ([StreamWord.reset true true].filterMap primitiveInstr) r =
      .next { r with trace := [.rst true true], coprocSrc := ⟨[false], 0⟩ } ∧
    primitiveInstr (.reset false false) = some (.reset false false) ∧
    exec (.reset false false) { r with trace := [.rst true true], coprocSrc := ⟨[false], 0⟩ } =
      .fault (.stuck { r with trace := [.rst true true], coprocSrc := ⟨[], 0⟩ }) :=
  ⟨rfl, rfl, by decide, by decide, rfl, rfl, by decide, rfl, rfl, rfl⟩

/-- The SWD session with a co-processor and with bits for the line, two idle cycles after a frame of an access port. -/
def frameState (given answers : List Bool) : State :=
  { swdState given .ok with apDelay := 2, cfg := { plat with impl := .coproc }, coprocSrc := ⟨answers, 0⟩ }

theorem frameState_inv (given answers : List Bool) : SessionInv (frameState given answers) :=
  have h := swdState_inv given .ok
  ⟨h.1, h.2, h.3, h.4, h.5, h.6, h.7, h.8, h.9, show 2 < 2 ^ 8 by decide, h.11, h.12, h.13⟩

/-- Statement SilentCoprocessorHangs, the register operations: a write that hangs at its first and at its last request of the
frame and in its last idle cycle, and a read of an even value that hangs there. -/
theorem witness_SilentCoprocessorHangs_register :
    let w := Instr.writeReg 0x02 0
    let r := Instr.readReg 0x06
    let s := fun k => frameState [false, true, false, false] (List.replicate k true ++ [false])
    let t := fun k => frameState ([false, true, false, false] ++ List.replicate 32 false ++ [true]) (List.replicate k true ++ [false])
    (∀ k, SessionInv (s k) ∧ (s k).cfg.impl = .coproc ∧ enabled .swd (s k) = true ∧ (s k).qcode = .ok) ∧
    (∀ k, SessionInv (t k) ∧ (t k).cfg.impl = .coproc ∧ enabled .swd (t k) = true ∧ (t k).qcode = .ok) ∧
    isRegisterOp w = true ∧ isRegisterOp r = true ∧
    0 < (frameInstrs w (s 0)).length ∧ 98 < (frameInstrs w (s 98)).length ∧
    102 = (frameInstrs w (s 102)).length + 3 ∧ 3 < (settleInstrs w (s 102)).length ∧
    135 = (frameInstrs r (t 135)).length + 3 ∧ 3 < (settleInstrs r (t 135)).length :=
  ⟨fun _ => ⟨frameState_inv _ _, rfl, rfl, rfl⟩, fun _ => ⟨frameState_inv _ _, rfl, rfl, rfl⟩, by decide +kernel⟩

/-- Statement SilentCoprocessorHangs, `INIT` and `QUIT`: the first and the last step of each. -/
theorem witness_SilentCoprocessorHangs_session :
    let i := fun k => { idleState swdPins with
      cfg := { plat with impl := .coproc }, acquireSrc := ⟨[true], 0⟩, coprocSrc := ⟨List.replicate (k + 1) true ++ [false], 0⟩ }
    (∀ k, (i k).cfg.impl = .coproc ∧ initRefuses (i k) = false ∧
      (i k).acquireSrc.draw Config.freeAcquire = (true, ⟨[], 0⟩)) ∧
    0 < (initSteps (i 0)).length ∧ 2 < (initSteps (i 2)).length ∧
    (∀ k, SessionInv (frameState [] k) ∧ (frameState [] k).session = .active) ∧
    ∀ k < 2, k < (claimedPins (frameState [] (List.replicate k true ++ [false]))).length :=
  ⟨fun _ => ⟨rfl, rfl, rfl⟩, by decide, by decide, fun _ => ⟨frameState_inv _ _, rfl⟩, by decide⟩

end Sys2Proof.Tests
end

section
/-! The Speed Calibrator (spec/42_speed.md): the range of a delay, each operation on a zero and on a positive frequency, and
the statements about them. -/

namespace Sys2Proof.Machine

/-- R125: no delay leaves its register. -/
theorem delayForKhz_mem_Ico (coeff : BitVec 31) (offset : BitVec 32) (khz : Word) :
    delayForKhz coeff offset khz ∈ Set.Ico (0 : Int) (2 ^ 32) := by
  have hquot : coeff.toNat / khz.toNat < 2 ^ 31 := (Nat.div_le_self _ _).trans_lt coeff.isLt
  have hoff : -2 ^ 31 ≤ offset.toInt := offset.le_toInt
  constructor
  · exact le_max_left _ _
  · exact max_lt (by decide) (by omega)

/-- R125: a stored delay is the integer that was computed. -/
theorem toNat_ofInt_delayForKhz (coeff : BitVec 31) (offset : BitVec 32) (khz : Word) :
    ((BitVec.ofInt 32 (delayForKhz coeff offset khz)).toNat : Int) = delayForKhz coeff offset khz := by
  obtain ⟨hnonneg, hlt⟩ := delayForKhz_mem_Ico coeff offset khz
  rw [BitVec.toNat_ofInt, Nat.cast_pow, Nat.cast_ofNat, Int.emod_eq_of_lt hnonneg hlt, Int.toNat_of_nonneg hnonneg]

theorem exec_khzToSpeed_zero (s : State) : exec (.khzToSpeed 0) s = .next (setStatus .notSupported s) := rfl

theorem exec_khzToSpeed_of_ne_zero {khz : Word} (hk : khz ≠ 0) (s : State) :
    exec (.khzToSpeed khz) s =
      .next (setStatus .ok (setRout (BitVec.ofInt 32 (delayForKhz s.coeff s.offset khz)) s)) :=
  if_neg hk

theorem exec_setSpeed_zero (s : State) : exec (.setSpeed 0) s = .next (setStatus .notSupported s) := rfl

/-- Settles O23: the delay that R120 computes fits in `ROUT`, so storing it loses nothing. -/
theorem delayFromKhz : Obligations.DelayFromKhz := by
  intro s
  refine ⟨fun khz hk => ⟨_, exec_khzToSpeed_of_ne_zero hk s, ?_, rfl⟩, exec_khzToSpeed_zero s⟩
  calc ((BitVec.ofInt 32 (delayForKhz s.coeff s.offset khz)).toNat : Int)
      = delayForKhz s.coeff s.offset khz := toNat_ofInt_delayForKhz ..
    _ = max 0 ((s.coeff.toNat : Int) / khz.toNat - s.offset.toInt) := by rw [delayForKhz, Int.natCast_ediv]

/-- Settles O25: both operations answer a zero frequency before they read the coefficient or the offset. -/
theorem zeroFrequencyUnsupported : Obligations.ZeroFrequencyUnsupported :=
  fun s => ⟨exec_khzToSpeed_zero s, exec_setSpeed_zero s⟩

end Sys2Proof.Machine
end

section
/-! `SWITCH_SEQ` with an unknown identifier (spec/44_sequences.md R164): its row in the decoder, what it does in any state,
and the statement about both. -/

namespace Sys2Proof.Machine

/-- R71: the three known identifiers lie below 3, so every other one has the fallback row. -/
theorem decodeSwitch_of_three_le {id : Byte} (hid : 3 ≤ id.toNat) : decodeSwitch id = .switchUnsupported id := by
  unfold decodeSwitch
  split
  case h_1 => exact absurd hid (by decide)
  case h_2 => exact absurd hid (by decide)
  case h_3 => exact absurd hid (by decide)
  case h_4 => rfl

theorem exec_switchUnsupported (id : Byte) (s : State) :
    exec (.switchUnsupported id) s = .next (setStatus .notSupported s) := rfl

/-- Settles O50: no session, flavour or pin is read before the answer. -/
theorem unknownSequenceUnsupported : Obligations.UnknownSequenceUnsupported :=
  fun s id hid => ⟨decodeSwitch_of_three_le hid, exec_switchUnsupported id s⟩

end Sys2Proof.Machine
end

section
/-! The decoder against the encoder (spec/30_encoding.md): what a command word's fields decide, that the encoder's frames
read back, and that whatever is accepted is well-formed. -/

namespace Sys2Proof

/-! What the encoder writes reads back. -/

/-- R75: a frame of one command word that is no `EXEC_JTAG` is read as that word alone. -/
theorem decode_oneWord {op : Byte} (h : op ≠ 0x15#8) (a8 : Byte) (a32 : Word) :
    decode (oneWord op a8 a32) = decodeSingle (commandWord op a8 a32) := by
  simp [oneWord, decode, decodeWords, h]

@[simp] theorem allowedInStream_commandWord (op a8 : Byte) (a32 : Word) :
    allowedInStream (commandWord op a8 a32) = ((op == 0x30#8 || op == 0x31#8) && !a8.getLsbD 3 || op == 0x32#8) := by
  have hop : (commandWord op a8 a32).extractLsb' 40 8 = op := opField_commandWord op a8 a32
  have hbit : (commandWord op a8 a32).getLsbD 35 = a8.getLsbD 3 := getLsbD_commandWord_a8 op a8 a32 3 (by decide)
  simp only [allowedInStream, hop, hbit]

/-- R73: where the operand bits of a primitive stand in its word. -/
theorem getElem_commandWord_packBits (op : Byte) (b0 b1 b2 b3 : Bool) (a32 : Word) :
    (commandWord op (packBits b0 b1 b2 b3) a32)[32] = b0 ∧ (commandWord op (packBits b0 b1 b2 b3) a32)[33] = b1 ∧
      (commandWord op (packBits b0 b1 b2 b3) a32)[34] = b2 := by
  obtain ⟨h0, h1, h2, -⟩ := getLsbD_packBits b0 b1 b2 b3
  have bit := getLsbD_commandWord_a8 op (packBits b0 b1 b2 b3) a32
  exact ⟨(bit 0 (by decide)).trans h0, (bit 1 (by decide)).trans h1, (bit 2 (by decide)).trans h2⟩

theorem getElem_packBits (b0 b1 b2 b3 : Bool) :
    (packBits b0 b1 b2 b3)[0] = b0 ∧ (packBits b0 b1 b2 b3)[1] = b1 ∧ (packBits b0 b1 b2 b3)[2] = b2 ∧
      (packBits b0 b1 b2 b3)[3] = b3 := getLsbD_packBits b0 b1 b2 b3

/-- R65, R73: a word of a stream is the word of its primitive. -/
theorem decodeStream_encodeStream {w : StreamWord} (h : w.wf = true) : decodeStream (encodeStream w) = w := by
  cases w with
  | drive tck tms tdi => simp [decodeStream, encodeStream, getElem_commandWord_packBits, getElem_packBits]
  | read => decide
  | reset trst srst => simp [decodeStream, encodeStream, getElem_commandWord_packBits]
  | other w =>
    have hw : allowedInStream w = false := by simpa [StreamWord.wf] using h
    simp [decodeStream, encodeStream, hw]

/-- R65: the words after `EXEC_JTAG` are its stream. -/
theorem decode_encode_execJtag {n : Word} {ws : List StreamWord} (h : (Instr.execJtag n ws).wf = true) :
    decode (encode (.execJtag n ws)) = .ok (.execJtag n ws) := by
  simp only [Instr.wf, Bool.and_eq_true, beq_iff_eq, List.all_eq_true] at h
  obtain ⟨hlen, hws⟩ := h
  have hmap : ws.map (decodeStream ∘ encodeStream) = ws :=
    (List.map_congr_left fun w hw => decodeStream_encodeStream (hws w hw)).trans (List.map_id ws)
  simp [encode, decode, decodeWords, hlen, hmap]

/-- R66, R68: the four rows of a request byte. -/
theorem decodeRequest_requestByte (p a3 a2 rnw ap : Bool) :
    decodeRequest (requestByte p a3 a2 rnw ap) = .ok (match rnw, ap with
      | false, false => .swdRequestDpWrite p a3 a2
      | true, false => .swdRequestDpRead p a3 a2
      | false, true => .swdRequestApWrite p a3 a2
      | true, true => .swdRequestApRead p a3 a2) := by
  cases p <;> cases a3 <;> cases a2 <;> cases rnw <;> cases ap <;> rfl

/-- R69: a value of the fallback row is none of the three decodable ones. -/
theorem decodeAckFrame_undecodable {a : BitVec 3} (h : (Instr.swdAckUndecodable a).wf = true) :
    decodeAckFrame a = .swdAckUndecodable a := by
  simp only [Instr.wf, Bool.and_eq_true, bne_iff_ne] at h
  obtain ⟨⟨hok, hwait⟩, hfault⟩ := h
  simp [decodeAckFrame, hok, hwait, hfault]

/-- R70: bits 31:0 of the data row are the value, bit 32 the parity bit. -/
theorem decode_encode_swdData (v : Word) (p : Bool) : decode (encode (.swdData v p)) = .ok (.swdData v p) := by
  have hv : (BitVec.ofBool p ++ v).extractLsb' 0 32 = v := BitVec.extractLsb'_append_eq_right
  have hp : (BitVec.ofBool p ++ v).getLsbD 32 = p := by rw [BitVec.getLsbD_append]; cases p <;> rfl
  simp only [encode, decode]
  rw [hv, hp]

/-- Settles O1: the fields of the words the encoder builds read back, row by row. -/
theorem decodeEncodeAgree : Obligations.DecodeEncodeAgree := by
  intro i h
  cases i with
  | execJtag n ws => exact decode_encode_execJtag h
  | switchUnsupported id =>
    have hid : 3 ≤ id.toNat := by simpa [Instr.wf] using h
    simp [encode, decode_oneWord, decodeSingle, Machine.decodeSwitch_of_three_le hid]
  | swdRequestDpWrite p a3 a2 => exact decodeRequest_requestByte p a3 a2 false false
  | swdRequestDpRead p a3 a2 => exact decodeRequest_requestByte p a3 a2 true false
  | swdRequestApWrite p a3 a2 => exact decodeRequest_requestByte p a3 a2 false true
  | swdRequestApRead p a3 a2 => exact decodeRequest_requestByte p a3 a2 true true
  | swdAckUndecodable a => exact congrArg Except.ok (decodeAckFrame_undecodable h)
  | swdData v p => exact decode_encode_swdData v p
  | drive f clk tms data | read f | reset trst srst | driveDirection output =>
    simp [encode, decode_oneWord, decodeSingle, getElem_packBits]
  | swdAckOk | swdAckWait | swdAckFault => rfl
  | seqLineReset | seqJtagToSwd | seqSwdToJtag => decide
  | statusOk | statusFail | statusWait | statusNotSupported => rfl
  | _ => simp [encode, decode_oneWord, decodeSingle, decodeSwitch]

/-! What the decoder accepts is well-formed. -/

theorem decodeStream_wf (w : CmdWord) : (decodeStream w).wf = true := by
  unfold decodeStream
  split
  · split <;> rfl
  · next h => simpa [StreamWord.wf] using h

/-- R71: the fallback row holds none of the three known identifiers. -/
theorem decodeSwitch_wf (id : Byte) : (decodeSwitch id).wf = true := by
  unfold decodeSwitch
  split
  case h_4 h0 h1 h2 =>
    simp only [Instr.wf, decide_eq_true_eq]
    simp only [imp_false, ← BitVec.toNat_inj, BitVec.toNat_ofNat] at h0 h1 h2
    omega
  all_goals rfl

theorem decodeSingle_wf {w : CmdWord} {i : Instr} (h : decodeSingle w = .ok i) : i.wf = true := by
  unfold decodeSingle at h
  split at h <;> cases h
  case h_12 => exact decodeSwitch_wf _
  all_goals rfl

theorem decodeWords_wf {ws : List CmdWord} {i : Instr} (h : decodeWords ws = .ok i) : i.wf = true := by
  cases ws with
  | nil => cases h
  | cons w ws =>
    simp only [decodeWords] at h
    split at h
    · split at h <;> cases h
      next hlen => simp [Instr.wf, hlen, decodeStream_wf]
    · cases ws with
      | nil => exact decodeSingle_wf h
      | cons _ _ => cases h

theorem decodeRequest_wf {b : Byte} {i : Instr} (h : decodeRequest b = .ok i) : i.wf = true := by
  unfold decodeRequest at h
  split at h
  · simp only at h
    split at h <;> cases h <;> rfl
  · cases h

theorem decodeAckFrame_wf (a : BitVec 3) : (decodeAckFrame a).wf = true := by
  unfold decodeAckFrame
  split
  · rfl
  · split
    · rfl
    · split
      · rfl
      · simp_all [Instr.wf]

theorem decodeStatus_wf (c : BitVec 2) : (decodeStatus c).wf = true := by
  unfold decodeStatus
  split <;> rfl

/-- Settles O2, format by format. -/
theorem decodedIsWellFormed : Obligations.DecodedIsWellFormed := by
  intro f i h
  cases f with
  | words ws => exact decodeWords_wf h
  | request b => exact decodeRequest_wf h
  | ack a => cases h; exact decodeAckFrame_wf a
  | data d => cases h; rfl
  | seq16 b =>
    simp only [decode] at h
    split at h
    · cases h; rfl
    · split at h <;> cases h
      rfl
  | seqReset b =>
    simp only [decode] at h
    split at h <;> cases h
    rfl
  | status c => cases h; exact decodeStatus_wf c

/-- Settles O3: each word is evaluated. -/
theorem specWordsDecode : Obligations.SpecWordsDecode := by
  refine ⟨?_, ?_, ?_, ?_, ?_, ?_, ?_, ?_, ?_, ?_, ?_, ?_, ?_, ?_, ?_, ?_, ?_, ?_, ?_, ?_⟩
  all_goals rfl

end Sys2Proof
end

section
/-! Taking operations off the stream (spec/30_encoding.md R60, R65, R74, R75; spec/60_exceptions.md R214): what `fetch` finds
for each form of the stream, and the statements about a step that follow. -/

namespace Sys2Proof.Machine

/-- The words of an operation are taken when all of them are there. -/
theorem takeHost_map (ws : List CmdWord) (rest : List Request) :
    takeHost (ws.map Request.host ++ rest) ws.length = some (ws, rest) := by
  induction ws with
  | nil => cases rest <;> rfl
  | cons w ws ih => simp [takeHost, ih]

/-- Nothing is taken while words are missing. -/
theorem takeHost_short {ws : List CmdWord} {n : Nat} (h : ws.length < n) : takeHost (ws.map Request.host) n = none := by
  induction ws generalizing n with
  | nil =>
    obtain ⟨n, rfl⟩ := Nat.exists_eq_succ_of_ne_zero (Nat.ne_of_gt h)
    rfl
  | cons w ws ih =>
    obtain ⟨n, rfl⟩ := Nat.exists_eq_succ_of_ne_zero (Nat.ne_of_gt (Nat.zero_lt_of_lt h))
    simp [takeHost, ih (Nat.lt_of_succ_lt_succ h)]

/-- R65, R75: an accepted frame has as many words after the first as that one asks for. -/
theorem length_of_decodeWords {w : CmdWord} {ws : List CmdWord} {i : Instr} (h : decode (.words (w :: ws)) = .ok i) :
    ws.length = extraWords w := by
  simp only [decode, decodeWords] at h
  unfold extraWords
  split at h
  · next hop =>
    split at h <;> cases h
    next hlen => rw [if_pos hop, hlen]
  · next hop =>
    rw [if_neg hop]
    cases ws with
    | nil => rfl
    | cons _ _ => cases h

theorem fetch_component {s : State} {f : Frame} {rest : List Request} {i : Instr}
    (h : s.pending = .component f :: rest) (hd : decode f = .ok i) : fetch s = .run i { s with pending := rest } := by
  simp only [fetch, h, hd]

theorem fetch_component_error {s : State} {f : Frame} {rest : List Request} {e : DecodeError}
    (h : s.pending = .component f :: rest) (hd : decode f = .error e) : fetch s = .refused .badFrame := by
  simp only [fetch, h, hd]

theorem fetch_host {s : State} {w : CmdWord} {ws : List CmdWord} {rest : List Request}
    (h : s.pending = (w :: ws).map Request.host ++ rest) (hlen : ws.length = extraWords w) :
    fetch s = hostOperation (w :: ws) { s with pending := rest, a8 := a8Field w, a32 := a32Field w } := by
  have htake : takeHost (ws.map Request.host ++ rest) (extraWords w) = some (ws, rest) := hlen ▸ takeHost_map ws rest
  simp only [fetch, h, List.map_cons, List.cons_append, htake, loadOperands]

theorem fetch_host_short {s : State} {w : CmdWord} {ws : List CmdWord} (h : s.pending = (w :: ws).map Request.host)
    (hlen : ws.length < extraWords w) : fetch s = .idle := by
  simp only [fetch, h, List.map_cons, takeHost_short hlen]

/-- R61, R74: an operation of one word that the host may issue has one of the host's codes. -/
theorem decodeSingle_level_host {w : CmdWord} {i : Instr} (h : decodeSingle w = .ok i) (hi : i.level = .host) :
    opField w ∈ [0x01#8, 0x02#8, 0x03#8, 0x04#8, 0x05#8, 0x10#8, 0x11#8, 0x12#8, 0x13#8, 0x14#8, 0x15#8, 0x20#8, 0x21#8,
      0x22#8, 0x23#8, 0x24#8] := by
  unfold decodeSingle at h
  simp only at h
  split at h
  case h_16 | h_17 | h_18 | h_19 | h_20 | h_21 | h_22 | h_23 => cases h; cases hi
  case h_24 => cases h
  all_goals
    next hop => rw [hop]; decide

/-- Settles O4: an accepted frame has all its words, so `fetch` takes exactly these. -/
theorem stepRunsHostOperation : Obligations.StepRunsHostOperation := by
  intro s w ws rest i hp hd hi
  simp [step, fetch_host hp (length_of_decodeWords hd), hostOperation, hd, hi]

/-- Settles O5. -/
theorem stepRunsComponentRequest : Obligations.StepRunsComponentRequest := by
  intro s f rest hp
  constructor
  · intro i hd
    simp only [step, fetch_component hp hd]
  · intro e hd
    simp only [step, fetch_component_error hp hd]

/-- Settles O6: a code that is not the host's asks for no further word, and whether or not it decodes it is answered. -/
theorem hostPortAnswersNotSupported : Obligations.HostPortAnswersNotSupported := by
  intro s w rest hp hop
  have hne : opField w ≠ 0x15#8 := fun h => hop (by rw [h]; decide)
  have hfetch := fetch_host (ws := []) hp (by simp [extraWords, hne])
  have hdec : decode (.words [w]) = decodeSingle w := by simp [decode, decodeWords, hne]
  have hanswer : ∀ t : State, hostOperation [w] t = .answered (setStatus .notSupported t) := by
    intro t
    unfold hostOperation
    rw [hdec]
    cases hd : decodeSingle w with
    | error e => rfl
    | ok i => simp [show i.level ≠ .host from fun hi => hop (decodeSingle_level_host hd hi)]
  simp only [step, hfetch, hanswer, setStatus]

/-- Settles O7. -/
theorem stepWaitsForHost : Obligations.StepWaitsForHost := by
  constructor
  · intro s hp
    simp [step, fetch, hp]
  · intro s w ws hp hlen
    simp [step, fetch_host_short hp hlen]

end Sys2Proof.Machine
end

section
/-! The state after power-on reset (spec/70_reset_and_hazards.md R220): its values and the invariant. -/

namespace Sys2Proof.Machine

theorem toDecided_platform : Config.platform.toDecided = Decided.spec := rfl

/-- Settles O8. -/
theorem resetValues : Obligations.ResetValues := by
  intro c
  refine ⟨rfl, rfl, rfl, rfl, fun r => ?_, rfl, rfl, Nat.mod_eq_of_lt, rfl, rfl, rfl, rfl, rfl, fun _ => rfl, rfl, rfl,
    toDecided_platform⟩
  cases r <;> rfl

/-- No pin is claimed and no session runs, so what is left of the invariant are the ranges of the fields. -/
theorem sessionInv_resetOn {c : Config} (hc : c.toDecided = Decided.spec) : SessionInv (State.resetOn c) where
  activeMode := by simp [State.resetOn]
  activeHeld := by simp [State.resetOn]
  inactiveUnclaimed := fun _ _ => rfl
  claimedValid := fun _ h => by cases h
  jtagClaimed := fun h => by cases h
  swdClaimed := fun h => by cases h
  resetClaimed := fun h => by cases h
  swdioOut := fun h => by cases h
  decided := hc
  apDelayFits := Nat.two_pow_pos _
  baseFits := Nat.mod_lt _ (Nat.two_pow_pos _)
  tablesWf := ⟨rfl, rfl, rfl, rfl⟩
  modesValid := fun _ => ⟨trivial, trivial⟩

theorem inv_resetOn {c : Config} (hc : c.toDecided = Decided.spec) : Inv (State.resetOn c) :=
  ⟨sessionInv_resetOn hc, fun _ h => by cases h⟩

/-- Settles O9. -/
theorem resetMeetsInvariant : Obligations.ResetMeetsInvariant :=
  ⟨fun _ => inv_resetOn, inv_resetOn toDecided_platform⟩

end Sys2Proof.Machine
end

section
/-! The co-processor against direct access (spec/60_exceptions.md R211, R212), for whole operations: every operation is
uniform, so what it does through the co-processor and what it does directly follow from one another. -/

namespace Sys2Proof.Machine

theorem reached_self {m : Impl} {s : State} (h : s.cfg.impl = m) : reached m s.coprocSrc s = s := by subst h; rfl

/-- A part that completes, either way, completes directly in the same state but for the answers left. -/
theorem Uniform.reached_direct {α : Type} {f : State → Res α} (hf : Uniform f) {s t : State} {a : α}
    (h : f s = .ok a t) (x : Source) : f (reached .direct x s) = .ok a (reached .direct x t) := by
  rcases hf s with ⟨k, b, u, hk⟩ | ⟨k, e, hk⟩
  · rw [hk.direct x]
    cases hm : s.cfg.impl with
    | direct =>
      have hd := hk.direct s.coprocSrc
      rw [reached_self hm, h] at hd
      cases hd
      rfl
    | coproc =>
      cases ha : answered k s.coprocSrc with
      | none =>
        obtain ⟨g, hg, -⟩ := hk.silent _ ha
        rw [reached_self hm, h] at hg
        cases hg
      | some y =>
        have hc := hk.answers _ _ ha
        rw [reached_self hm, h] at hc
        cases hc
        rfl
  · cases hm : s.cfg.impl with
    | direct =>
      have hd := hk.direct s.coprocSrc
      rw [reached_self hm, h] at hd
      cases hd
    | coproc =>
      cases ha : answered k s.coprocSrc with
      | none =>
        obtain ⟨g, hg⟩ := hk.silent _ ha
        rw [reached_self hm, h] at hg
        cases hg
      | some y =>
        have hc := hk.answers _ _ ha
        rw [reached_self hm, h] at hc
        cases hc

/-- With the pins reached directly no answer of a co-processor is taken. -/
theorem Uniform.coprocSrc_direct {α : Type} {f : State → Res α} (hf : Uniform f) {s t : State} {a : α}
    (hd : s.cfg.impl = .direct) (h : f s = .ok a t) : t.coprocSrc = s.coprocSrc := by
  have hk := hf.reached_direct h s.coprocSrc
  rw [reached_self hd, h, Res.ok.injEq] at hk
  rw [hk.2]; rfl

/-- An operation that completes, either way, completes directly in the same state but for the answers left. -/
theorem exec_reached_direct {i : Instr} {s t : State} (h : exec i s = .next t) (x : Source) :
    exec i (reached .direct x s) = .next (reached .direct x t) := by
  obtain ⟨f, hf, hexec⟩ := exec_uniform i
  rw [hexec, finish_eq_next] at h ⊢
  exact hf.reached_direct h x

/-- Settles O57: a part of an operation that is reached directly completes or is refused. -/
theorem directNeverHangs : Obligations.DirectNeverHangs := by
  intro i s e hd hexec
  obtain ⟨f, hf, hi⟩ := exec_uniform i
  rw [hi, ← reached_self hd] at hexec
  obtain ⟨h, hstuck, -⟩ := finish_eq_fault.1 hexec
  rcases hf s with ⟨k, a, t, hk⟩ | ⟨k, r, hk⟩
  · rw [hk.direct] at hstuck; cases hstuck
  · rw [hk.direct] at hstuck; cases hstuck

/-- Settles O58. -/
theorem coprocessorAgreesWithDirect : Obligations.CoprocessorAgreesWithDirect :=
  fun _ _ _ _ h => exec_reached_direct h ⟨[], 0⟩

/-- Settles O59: the number of requests is the one of the operation's uniform part. -/
theorem answeringCoprocessorCompletes : Obligations.AnsweringCoprocessorCompletes := by
  intro i s t hc h
  obtain ⟨f, hf, hi⟩ := exec_uniform i
  have hs : ∀ x, { s with coprocSrc := x } = reached .coproc x s := fun x => by rw [reached, ← hc]
  have hd : f (reached .direct ⟨[], 0⟩ s) = .ok () t := by rw [← finish_eq_next, ← hi]; exact h
  rcases hf s with ⟨n, a, u, hk⟩ | ⟨n, e, hk⟩
  · rw [hk.direct, Res.ok.injEq] at hd
    obtain ⟨-, rfl⟩ := hd
    refine ⟨n, ⟨reached .coproc ⟨[], 0⟩ u, ?_, rfl, rfl⟩, fun k hkn rest used => ?_⟩
    · have ha : answered n ⟨List.replicate n true, 0⟩ = some ⟨[], 0⟩ := answered_replicate n 0
      rw [hs, hi, hk.answers _ _ ha, finish_ok]
    · obtain ⟨hnone, hleft⟩ := answered_silent hkn rest used
      obtain ⟨h, hstuck, hsrc, ⟨before, hbefore⟩, after, hafter⟩ := hk.silent _ hnone
      exact ⟨h, before, after, by rw [hs, hi, hstuck, finish_stuck], hsrc.trans hleft, hbefore.symm, hafter.symm⟩
  · rw [hk.direct] at hd; cases hd

end Sys2Proof.Machine
end

section
/-! The primitives taken apart: what each of them did when it completed. -/

namespace Sys2Proof.Machine

theorem levelWrite_ok {a b : List Nat} {s t : State} {u : Unit} (h : levelWrite a b s = .ok u t) :
    ∃ m, rendezvous s = .ok () m ∧ t = applyLevels a b m := by
  obtain ⟨_, m, hm, h⟩ := andThen_eq_ok.1 h
  cases h
  exact ⟨m, hm, rfl⟩

theorem drive_ok {f : Flavour} {clk tms data : Bool} {s t : State} {u : Unit} (h : drive f clk tms data s = .ok u t) :
    enabled f s = true ∧ ∃ ls m, driveLevels f clk tms data s = .ok ls s ∧ rendezvous s = .ok () m ∧
      t = waitDelay (record (.lv f clk (tmsShown f tms) data) (applyLevels (setMask ls) (clrMask ls) m)) := by
  unfold drive at h
  split at h
  · next he =>
    obtain ⟨ls, s', hls, h1⟩ := andThen_eq_ok.1 h
    obtain ⟨_, n, hn, h2⟩ := andThen_eq_ok.1 h1
    obtain ⟨rfl, -⟩ := driveLevels_ok hls
    obtain ⟨m, hm, rfl⟩ := levelWrite_ok hn
    cases h2
    exact ⟨he, ls, m, hls, hm, rfl⟩
  · cases h

theorem readLine_ok {f : Flavour} {s t : State} {b : Bool} (h : readLine f s = .ok b t) :
    enabled f s = true ∧ ∃ p m, pinOf (sampledRole f) s = some p ∧ rendezvous s = .ok () m ∧ b = (lineLevel p m).1 ∧
      t = setRout (bitWord b) (record (.smp f b) (lineLevel p m).2) := by
  unfold readLine at h
  split at h
  · next he =>
    obtain ⟨p, _, hp, h1⟩ := andThen_eq_ok.1 h
    obtain ⟨v, n, hv, h2⟩ := andThen_eq_ok.1 h1
    obtain ⟨_, m, hm, h3⟩ := andThen_eq_ok.1 hv
    obtain ⟨hp, rfl⟩ := needPin_eq_ok.1 hp
    cases h3
    cases h2
    exact ⟨he, p, m, hp, hm, rfl, rfl⟩
  · cases h

theorem driveReset_ok {a b : Bool} {s t : State} {u : Unit} (h : driveReset a b s = .ok u t) :
    s.session = .active ∧ ∃ m, rendezvous s = .ok () m ∧
      t = record (.rst a b) (applyLevels (setMask (resetLevels a b s)) (clrMask (resetLevels a b s)) m) := by
  unfold driveReset at h
  split at h
  · next hs =>
    obtain ⟨_, n, hn, h1⟩ := andThen_eq_ok.1 h
    obtain ⟨m, hm, rfl⟩ := levelWrite_ok hn
    cases h1
    exact ⟨hs, m, hm, rfl⟩
  · cases h

/-- R173, R174: an `INIT` that completes was refused by its checks, or by the draw, or started a session. -/
theorem exec_init_next {s t : State} (h : exec .init s = .next t) :
    (initRefuses s = true ∧ t = setStatus .fail s) ∨
    (initRefuses s = false ∧ ∃ m, rendezvous s = .ok () m ∧
      (((drawAcquire m).1 = false ∧ t = setStatus .fail (drawAcquire m).2) ∨
        ((drawAcquire m).1 = true ∧ initEffects (drawAcquire m).2 = .ok () t))) := by
  simp only [exec, execInit] at h
  split at h
  · next hr => cases h; exact .inl ⟨hr, rfl⟩
  · next hr =>
    obtain ⟨ok, n, hn, h⟩ := andThen_eq_ok.1 (finish_eq_next.1 h)
    obtain ⟨_, m, hm, hn⟩ := andThen_eq_ok.1 hn
    cases hn
    refine .inr ⟨by simpa using hr, m, hm, ?_⟩
    split at h
    · next ha => exact .inr ⟨ha, h⟩
    · next ha => cases h; exact .inl ⟨by simpa using ha, rfl⟩

/-- R176: a `QUIT` that completes found no session, or restored the claimed pins and ended it. -/
theorem exec_quit_next {s t : State} (h : exec .quit s = .next t) :
    (s.session = .inactive ∧ t = setStatus .ok s) ∨
    (s.session ≠ .inactive ∧ ∃ m, restoreAll (claimedPins s) s = .ok () m ∧
      t = setStatus .ok { m with resHeld := false, session := .inactive, tmode := .none }) := by
  simp only [exec, execQuit] at h
  split at h
  · next hs => cases h; exact .inl ⟨hs, rfl⟩
  · next hs =>
    obtain ⟨_, m, hm, h⟩ := andThen_eq_ok.1 (finish_eq_next.1 h)
    cases h
    exact .inr ⟨hs, m, hm, rfl⟩

/-! Relations between the state before and after that hold across every operation. -/

/-- The relations that every access to the pins respects, with the event it leaves in the history. -/
structure PinwiseKept (R : State → State → Prop) : Prop extends Composes R where
  answers : ∀ (x : Source) (s : State), R s { s with coprocSrc := x }
  driven : ∀ f clk tms data a b s, R s (waitDelay (record (.lv f clk tms data) (applyLevels a b s)))
  sampled : ∀ f b p s, R s (setRout (bitWord b) (record (.smp f b) (lineLevel p s).2))
  resetDriven : ∀ x y a b s, R s (record (.rst x y) (applyLevels a b s))
  level : ∀ a b s, R s (applyLevels a b s)
  claim : ∀ m p s, m = .output ∨ m = .input → R s (afterClaim m p s)
  giveUp : ∀ p s, R s (giveUp p s)
  turn : ∀ d s, R s (record (.dir d) (setDir d s))

namespace PinwiseKept

variable {R : State → State → Prop} (h : PinwiseKept R)
include h

theorem rendezvous : Keeps R rendezvous := fun s _ t e => by rw [rendezvous_ok e]; exact h.answers _ s

theorem levelWrite (a b : List Nat) : Keeps R (levelWrite a b) := fun _ _ _ e => by
  obtain ⟨m, hm, rfl⟩ := levelWrite_ok e
  exact h.trans _ _ _ (h.rendezvous _ _ _ hm) (h.level a b m)

theorem drive (f : Flavour) (clk tms data : Bool) : Keeps R (drive f clk tms data) := fun _ _ _ e => by
  obtain ⟨-, ls, m, -, hm, rfl⟩ := drive_ok e
  exact h.trans _ _ _ (h.rendezvous _ _ _ hm) (h.driven _ _ _ _ _ _ m)

theorem readLine (f : Flavour) : Keeps R (readLine f) := fun _ _ _ e => by
  obtain ⟨-, p, m, -, hm, -, rfl⟩ := readLine_ok e
  exact h.trans _ _ _ (h.rendezvous _ _ _ hm) (h.sampled _ _ _ m)

theorem driveReset (a b : Bool) : Keeps R (driveReset a b) := fun _ _ _ e => by
  obtain ⟨-, m, hm, rfl⟩ := driveReset_ok e
  exact h.trans _ _ _ (h.rendezvous _ _ _ hm) (h.resetDriven _ _ _ _ m)

theorem claimOut (x : Option Nat) : Keeps R (claimOut x) := fun _ _ _ e => by
  obtain ⟨p, m, -, hm, rfl⟩ := claimOut_ok e
  exact h.trans _ _ _ (h.rendezvous _ _ _ hm) (h.claim _ _ m (.inl rfl))

theorem claimIn (x : Option Nat) : Keeps R (claimIn x) := fun _ _ _ e => by
  obtain ⟨p, m, -, hm, rfl⟩ := claimIn_ok e
  exact h.trans _ _ _ (h.rendezvous _ _ _ hm) (h.claim _ _ m (.inr rfl))

theorem restorePin (p : Nat) : Keeps R (restorePin p) := fun _ _ _ e => by
  obtain ⟨m, hm, rfl⟩ := restorePin_ok e
  exact h.trans _ _ _ (h.rendezvous _ _ _ hm) (h.giveUp p m)

theorem restoreAll (ps : List Nat) : Keeps R (restoreAll ps) := keeps_restoreAll h.toComposes h.restorePin ps

theorem driveDirection (o : Bool) : Keeps R (driveDirection o) := fun s _ _ e => by
  obtain ⟨-, m, hm, rfl⟩ := driveDirection_ok e
  refine h.trans _ _ _ ?_ (h.turn _ m)
  cases o
  · exact h.claimIn _ s _ m hm
  · exact h.claimOut _ s _ m hm

theorem onWire : OnWire R where
  toComposes := h.toComposes
  drive := h.drive .swd
  readLine := h.readLine .swd
  driveDirection := h.driveDirection

theorem initEffects (hm : ∀ (s : State) m, R s { s with resHeld := true, tmode := m }) (hd : ∀ d s, R s (setDir d s))
    (he : ∀ s : State, R s (setStatus .ok { flushBatch s with session := .active })) : Keeps R initEffects :=
  keeps_initEffects h.toComposes hm h.levelWrite h.claimOut h.claimIn hd he

end PinwiseKept

/-- The relations that also every write of a register respects, but for those that `INIT`, `QUIT`, `RUN_QUEUE` and
`SET_SPEED` alone make. -/
structure Respected (R : State → State → Prop) : Prop extends PinwiseKept R where
  status : ∀ c s, R s (setStatus c s)
  rout : ∀ w s, R s (setRout w s)
  jtagOut : ∀ (o : List Bool) (s : State), R s { s with jtagOut := o }
  batch : ∀ s : State, R s { s with batchOpen := true }
  latch : ∀ c s, R s (latchFault c s)
  accept : ∀ v p s, R s (acceptData v p s)
  apDelay : ∀ (n : Byte) (s : State), R s { s with apDelay := apDelayValue s.cfg.toDecided n }
  pincfg : ∀ (c : PinCfg) (s : State), s.session ≠ Session.active → R s { s with pincfg := c }
  coeff : ∀ (c : BitVec 31) (s : State), s.session ≠ Session.active → R s { s with coeff := c }
  offset : ∀ (c : BitVec 32) (s : State), s.session ≠ Session.active → R s { s with offset := c }
  base : ∀ (a : Word) (s : State), s.session ≠ Session.active → R s { s with base := baseValue s.cfg a }

theorem Respected.everywhere {R : State → State → Prop} (h : Respected R) : Everywhere R where
  toOnWire := h.onWire
  driveJtag := h.drive .jtag
  readJtag := h.readLine .jtag
  driveReset := h.driveReset
  claimOut := h.claimOut
  claimIn := h.claimIn
  rendezvous := h.rendezvous
  restorePin := h.restorePin
  status := h.status
  rout := h.rout
  jtagOut := h.jtagOut
  batch := h.batch
  latch := h.latch
  accept := h.accept
  apDelay := h.apDelay
  pincfg := h.pincfg
  coeff := h.coeff
  offset := h.offset
  base := h.base

end Sys2Proof.Machine
end

section
/-! What an operation leaves alone: the platform and the stream, the phase, the configuration in a session, the mode a pin
had before the session, a latched fault. -/

namespace Sys2Proof.Machine

/-- What every operation but `INIT` and `QUIT` leaves unchanged: every field not named here, and in a session the
configuration too (spec/10_state.md R27 f, spec/60_exceptions.md R207). -/
structure OperationFrame (s t : State) : Prop where
  fields : t = { s with
    status := t.status, rdata := t.rdata, rpar := t.rpar, rout := t.rout, qcode := t.qcode, batchOpen := t.batchOpen,
    pincfg := t.pincfg, coeff := t.coeff, offset := t.offset, base := t.base, apDelay := t.apDelay, delay := t.delay,
    swdioDir := t.swdioDir, claimed := t.claimed, saved := t.saved, func := t.func, latch := t.latch, trace := t.trace,
    waited := t.waited, jtagOut := t.jtagOut, lineSrc := t.lineSrc, coprocSrc := t.coprocSrc, levelDraws := t.levelDraws }
  frozen : s.session = .active → t.pincfg = s.pincfg ∧ t.coeff = s.coeff ∧ t.offset = s.offset ∧ t.base = s.base

namespace OperationFrame

variable {s t u : State}

theorem cfg (h : OperationFrame s t) : t.cfg = s.cfg := by rw [h.fields]
theorem session (h : OperationFrame s t) : t.session = s.session := by rw [h.fields]
theorem tmode (h : OperationFrame s t) : t.tmode = s.tmode := by rw [h.fields]
theorem resHeld (h : OperationFrame s t) : t.resHeld = s.resHeld := by rw [h.fields]
theorem pending (h : OperationFrame s t) : t.pending = s.pending := by rw [h.fields]

theorem trans (h : OperationFrame s t) (k : OperationFrame t u) : OperationFrame s u where
  fields := by
    have hk := k.fields
    rw [h.fields] at hk
    exact hk
  frozen := fun hs => by
    obtain ⟨h1, h2, h3, h4⟩ := h.frozen hs
    obtain ⟨k1, k2, k3, k4⟩ := k.frozen (h.session.trans hs)
    exact ⟨k1.trans h1, k2.trans h2, k3.trans h3, k4.trans h4⟩

end OperationFrame

theorem respected_operationFrame : Respected OperationFrame where
  refl := fun _ => ⟨rfl, fun _ => ⟨rfl, rfl, rfl, rfl⟩⟩
  trans := fun _ _ _ h k => h.trans k
  answers := fun _ _ => ⟨rfl, fun _ => ⟨rfl, rfl, rfl, rfl⟩⟩
  driven := fun _ _ _ _ _ _ _ => by rw [applyLevels_state]; exact ⟨rfl, fun _ => ⟨rfl, rfl, rfl, rfl⟩⟩
  sampled := fun _ _ _ _ => by rw [lineLevel_state]; exact ⟨rfl, fun _ => ⟨rfl, rfl, rfl, rfl⟩⟩
  resetDriven := fun _ _ _ _ _ => by rw [applyLevels_state]; exact ⟨rfl, fun _ => ⟨rfl, rfl, rfl, rfl⟩⟩
  level := fun _ _ _ => by rw [applyLevels_state]; exact ⟨rfl, fun _ => ⟨rfl, rfl, rfl, rfl⟩⟩
  claim := fun _ _ _ _ => by rw [afterClaim_fields]; exact ⟨rfl, fun _ => ⟨rfl, rfl, rfl, rfl⟩⟩
  giveUp := fun _ _ => by rw [giveUp_fields]; exact ⟨rfl, fun _ => ⟨rfl, rfl, rfl, rfl⟩⟩
  turn := fun _ _ => ⟨rfl, fun _ => ⟨rfl, rfl, rfl, rfl⟩⟩
  status := fun _ _ => ⟨rfl, fun _ => ⟨rfl, rfl, rfl, rfl⟩⟩
  rout := fun _ _ => ⟨rfl, fun _ => ⟨rfl, rfl, rfl, rfl⟩⟩
  jtagOut := fun _ _ => ⟨rfl, fun _ => ⟨rfl, rfl, rfl, rfl⟩⟩
  batch := fun _ => ⟨rfl, fun _ => ⟨rfl, rfl, rfl, rfl⟩⟩
  latch := fun _ _ => by unfold latchFault; split <;> exact ⟨rfl, fun _ => ⟨rfl, rfl, rfl, rfl⟩⟩
  accept := fun _ _ _ => by
    unfold acceptData latchFault
    split
    · exact ⟨rfl, fun _ => ⟨rfl, rfl, rfl, rfl⟩⟩
    · split
      · exact ⟨rfl, fun _ => ⟨rfl, rfl, rfl, rfl⟩⟩
      · split <;> exact ⟨rfl, fun _ => ⟨rfl, rfl, rfl, rfl⟩⟩
  apDelay := fun _ _ => ⟨rfl, fun _ => ⟨rfl, rfl, rfl, rfl⟩⟩
  pincfg := fun _ _ hs => ⟨rfl, fun h => absurd h hs⟩
  coeff := fun _ _ hs => ⟨rfl, fun h => absurd h hs⟩
  offset := fun _ _ hs => ⟨rfl, fun h => absurd h hs⟩
  base := fun _ _ hs => ⟨rfl, fun h => absurd h hs⟩

theorem exec_operationFrame {i : Instr} {s t : State} (hi : i ≠ .init) (hq : i ≠ .quit) (h : exec i s = .next t) :
    OperationFrame s t := by
  have e := respected_operationFrame.everywhere
  by_cases hr : i = .runQueue
  · subst hr
    exact e.runQueue (fun _ => ⟨rfl, fun _ => ⟨rfl, rfl, rfl, rfl⟩⟩) h
  · by_cases hs : ∃ k, i = .setSpeed k
    · obtain ⟨k, rfl⟩ := hs
      exact e.setSpeed (fun _ _ => ⟨rfl, fun _ => ⟨rfl, rfl, rfl, rfl⟩⟩) h
    · exact e.exec i hi hq hr (fun k hk => hs ⟨k, hk⟩) h

/-- The platform and the stream, which no operation writes. -/
def InputsKept (s t : State) : Prop := t.cfg = s.cfg ∧ t.pending = s.pending

theorem pinwiseKept_inputsKept : PinwiseKept InputsKept where
  refl := fun _ => ⟨rfl, rfl⟩
  trans := fun _ _ _ h k => ⟨k.1.trans h.1, k.2.trans h.2⟩
  answers := fun _ _ => ⟨rfl, rfl⟩
  driven := fun _ _ _ _ _ _ _ => by simp [InputsKept]
  sampled := fun _ _ _ _ => by rw [lineLevel_state]; exact ⟨rfl, rfl⟩
  resetDriven := fun _ _ _ _ _ => by simp [InputsKept]
  level := fun _ _ _ => by simp [InputsKept]
  claim := fun _ _ _ _ => by rw [afterClaim_fields]; exact ⟨rfl, rfl⟩
  giveUp := fun _ _ => by rw [giveUp_fields]; exact ⟨rfl, rfl⟩
  turn := fun _ _ => ⟨rfl, rfl⟩

theorem inputsKept_initEffects : Keeps InputsKept initEffects :=
  pinwiseKept_inputsKept.initEffects (fun _ _ => ⟨rfl, rfl⟩) (fun _ _ => ⟨rfl, rfl⟩) fun _ => ⟨rfl, rfl⟩

theorem exec_inputsKept {i : Instr} {s t : State} (h : exec i s = .next t) : InputsKept s t := by
  by_cases hi : i = .init
  · subst hi
    rcases exec_init_next h with ⟨-, rfl⟩ | ⟨-, m, hm, h'⟩
    · exact ⟨rfl, rfl⟩
    · have k := pinwiseKept_inputsKept.rendezvous _ _ _ hm
      rcases h' with ⟨-, rfl⟩ | ⟨-, he⟩
      · exact k
      · exact pinwiseKept_inputsKept.trans _ (drawAcquire m).2 _ k (inputsKept_initEffects _ _ _ he)
  · by_cases hq : i = .quit
    · subst hq
      rcases exec_quit_next h with ⟨-, rfl⟩ | ⟨-, m, hm, rfl⟩
      · exact ⟨rfl, rfl⟩
      · have k := pinwiseKept_inputsKept.restoreAll _ _ _ _ hm
        exact ⟨k.1, k.2⟩
    · exact ⟨(exec_operationFrame hi hq h).cfg, (exec_operationFrame hi hq h).pending⟩

/-- Settles O11: `INIT` is refused in a session, and `QUIT` only restores pins. -/
theorem configurationFrozenInSession : Obligations.ConfigurationFrozenInSession := by
  intro i s t h
  refine ⟨(exec_inputsKept h).1, fun hs => ?_⟩
  by_cases hi : i = .init
  · subst hi
    rcases exec_init_next h with ⟨-, rfl⟩ | ⟨hr, -⟩
    · exact ⟨rfl, rfl, rfl, rfl⟩
    · simp [initRefuses, hs] at hr
  · by_cases hq : i = .quit
    · subst hq
      rcases exec_quit_next h with ⟨-, rfl⟩ | ⟨-, m, hm, rfl⟩
      · exact ⟨rfl, rfl, rfl, rfl⟩
      · exact (respected_operationFrame.restoreAll _ _ _ _ hm).frozen hs
    · exact (exec_operationFrame hi hq h).frozen hs

/-- Settles O12. -/
theorem onlyInitAndQuitChangePhase : Obligations.OnlyInitAndQuitChangePhase := fun _ _ _ h hi hq =>
  have hf := exec_operationFrame hi hq h
  ⟨hf.session, hf.tmode, hf.resHeld⟩

/-! The mode a pin had before the session (spec/40_pinmux.md R96). -/

/-- What teardown would write back is the same before and after. -/
def PreSessionKept (s t : State) : Prop := ∀ p, preSessionMode t p = preSessionMode s p

theorem preSessionMode_congr {s t : State} (hc : t.claimed = s.claimed) (hs : t.saved = s.saved) (hf : t.func = s.func) :
    PreSessionKept s t := fun p => by
  rw [preSessionMode, State.isClaimed, State.savedMode, State.funcOf, hc, hs, hf]
  rfl

/-- Giving a claimed pin up writes its saved mode back, which is what it would have been given back in. -/
theorem preSessionMode_giveUp (p : Nat) (s : State) : PreSessionKept s (giveUp p s) := by
  intro q
  simp only [preSessionMode, isClaimed_giveUp, funcOf_giveUp, savedMode_giveUp]
  by_cases hq : q = p
  · subst hq; simp
  · simp [hq]

theorem respected_preSessionKept : Respected PreSessionKept where
  refl := fun _ _ => rfl
  trans := fun _ _ _ h k p => (k p).trans (h p)
  answers := fun _ _ => preSessionMode_congr rfl rfl rfl
  driven := fun _ _ _ _ _ _ _ => preSessionMode_congr (by simp) (by simp) (by simp)
  sampled := fun _ _ _ _ => by rw [lineLevel_state]; exact preSessionMode_congr rfl rfl rfl
  resetDriven := fun _ _ _ _ _ => preSessionMode_congr (by simp) (by simp) (by simp)
  level := fun _ _ _ => preSessionMode_congr (by simp) (by simp) (by simp)
  claim := fun m p s _ q => preSessionMode_afterClaim m p q s
  giveUp := preSessionMode_giveUp
  turn := fun _ _ => preSessionMode_congr rfl rfl rfl
  status := fun _ _ => preSessionMode_congr rfl rfl rfl
  rout := fun _ _ => preSessionMode_congr rfl rfl rfl
  jtagOut := fun _ _ => preSessionMode_congr rfl rfl rfl
  batch := fun _ => preSessionMode_congr rfl rfl rfl
  latch := fun _ _ => preSessionMode_congr (by simp) (by simp) (by simp)
  accept := fun _ _ _ => preSessionMode_congr (by simp) (by simp) (by simp)
  apDelay := fun _ _ => preSessionMode_congr rfl rfl rfl
  pincfg := fun _ _ _ => preSessionMode_congr rfl rfl rfl
  coeff := fun _ _ _ => preSessionMode_congr rfl rfl rfl
  offset := fun _ _ _ => preSessionMode_congr rfl rfl rfl
  base := fun _ _ _ => preSessionMode_congr rfl rfl rfl

/-- Settles O13: a claim saves the mode it overwrites, and a restore writes it back. -/
theorem preSessionModeKept : Obligations.PreSessionModeKept := by
  intro i s t h
  have e := respected_preSessionKept.everywhere
  have same : ∀ {s t : State}, t.claimed = s.claimed → t.saved = s.saved → t.func = s.func → PreSessionKept s t :=
    preSessionMode_congr
  by_cases hr : i = .runQueue
  · subst hr; exact e.runQueue (fun _ => same rfl rfl rfl) h
  by_cases hi : i = .init
  · subst hi
    exact e.init (fun _ => same rfl rfl rfl) (respected_preSessionKept.initEffects (fun _ _ => same rfl rfl rfl)
      (fun _ _ => same rfl rfl rfl) fun _ => same rfl rfl rfl) h
  by_cases hq : i = .quit
  · subst hq; exact e.quit (fun _ => same rfl rfl rfl) h
  by_cases hs : ∃ k, i = .setSpeed k
  · obtain ⟨k, rfl⟩ := hs
    exact e.setSpeed (fun _ _ => same rfl rfl rfl) h
  · exact e.exec i hi hq hr (fun k hk => hs ⟨k, hk⟩) h

end Sys2Proof.Machine
end

section
/-! The Pin Multiplexer (spec/40_pinmux.md): when an operand names a valid pin, and what each operation then does. -/

namespace Sys2Proof.Machine

/-! R90: the range of a pin index. -/

theorem validPin_of_le {c : Config} {p : BitVec 31} (h : p.toNat ≤ c.pinMax) : validPin c (some p) = some p.toNat := by
  simp [validPin, h]

theorem validPin_of_gt {c : Config} {p : BitVec 31} (h : c.pinMax < p.toNat) : validPin c (some p) = none := by
  simp [validPin, h]

theorem exec_validate (x : PinOperand) (s : State) :
    exec (.validate x) s = .next { s with rout := bitWord (validPin s.cfg x).isSome } := rfl

/-- Settles O14. -/
theorem validateAnswersRange : Obligations.ValidateAnswersRange := by
  intro s
  refine ⟨fun p hp => ?_, fun p hp => ?_, rfl⟩
  · rw [exec_validate, validPin_of_le hp]; rfl
  · rw [exec_validate, validPin_of_gt hp]; rfl

/-! R91, R92: claims. -/

theorem exec_claimOut_direct {s : State} {p : BitVec 31} (hd : s.cfg.impl = .direct) (hp : p.toNat ≤ s.cfg.pinMax) :
    exec (.claimOut (some p)) s = .next (afterClaim .output p.toNat s) := by
  simp only [exec, execClaimOut, validPin_of_le hp, claimOut_direct _ hd, finish_ok]

theorem exec_claimIn_direct {s : State} {p : BitVec 31} (hd : s.cfg.impl = .direct) (hp : p.toNat ≤ s.cfg.pinMax) :
    exec (.claimIn (some p)) s = .next (afterClaim .input p.toNat s) := by
  simp only [exec, execClaimIn, validPin_of_le hp, claimIn_direct _ hd, finish_ok]

theorem exec_claim_refused {s : State} {x : PinOperand} (h : validPin s.cfg x = none) :
    exec (.claimOut x) s = .refused .badPin ∧ exec (.claimIn x) s = .refused .badPin := by
  simp [exec, execClaimOut, execClaimIn, claimOut, claimIn, h, needPin]

/-- The mode of the claimed pin is saved at the first claim alone. -/
theorem savedMode_afterClaim_same (m : PinMode) (p : Nat) (s : State) :
    (afterClaim m p s).savedMode p = if s.isClaimed p then s.savedMode p else s.funcOf p := by
  cases h : s.isClaimed p <;> simp [h]

/-- Every other pin keeps its entry in the three tables of a claim. -/
theorem afterClaim_elsewhere (m : PinMode) {p q : Nat} (h : q ≠ p) (s : State) :
    (afterClaim m p s).funcOf q = s.funcOf q ∧ (afterClaim m p s).isClaimed q = s.isClaimed q ∧
      (afterClaim m p s).savedMode q = s.savedMode q := by
  simp [h]

/-- Settles O15. -/
theorem claimsSaveOnceAndSetMode : Obligations.ClaimsSaveOnceAndSetMode := by
  intro s
  refine ⟨fun p hd hp e he => ?_, fun p hp => exec_claim_refused (validPin_of_gt hp), exec_claim_refused rfl⟩
  have hexec : exec e.1 s = .next (afterClaim e.2 p.toNat s) := by
    simp only [List.mem_cons, List.not_mem_nil, or_false] at he
    rcases he with rfl | rfl
    · exact exec_claimOut_direct hd hp
    · exact exec_claimIn_direct hd hp
  refine ⟨_, hexec, by simp, by simp, savedMode_afterClaim_same .., fun q hq => afterClaim_elsewhere _ hq s, by simp, ?_⟩
  rw [trace_afterClaim]
  exact afterClaim_fields ..

/-! R93: restoring. -/

theorem exec_restore_direct {s : State} {p : BitVec 31} (hd : s.cfg.impl = .direct) (hp : p.toNat ≤ s.cfg.pinMax) :
    exec (.restore (some p)) s = .next (giveUp p.toNat s) := by
  simp only [exec, execRestore, validPin_of_le hp, restorePin_direct _ hd, finish_ok]

theorem exec_restore_invalid {s : State} {x : PinOperand} (hd : s.cfg.impl = .direct) (hx : validPin s.cfg x = none) :
    exec (.restore x) s = .next s := by
  simp only [exec, execRestore, hx, rendezvous_direct hd, finish_ok]

/-- Settles O16. -/
theorem restoreWritesBackMode : Obligations.RestoreWritesBackMode := by
  intro s
  refine ⟨fun p hd hp hc => ⟨_, exec_restore_direct hd hp, ?_, ?_, fun q hq => ?_, ?_, ?_⟩,
    fun hd => ⟨fun p hp => ?_, exec_restore_invalid hd rfl⟩⟩
  · simp [funcOf_giveUp, hc]
  · simp [isClaimed_giveUp]
  · simp [funcOf_giveUp, isClaimed_giveUp, hq]
  · rw [giveUp_fields, if_pos hc]
  · rw [giveUp_fields]
  · by_cases hm : s.cfg.pinMax < p.toNat
    · exact exec_restore_invalid hd (validPin_of_gt hm)
    · have hc : s.isClaimed p.toNat = false := hp.resolve_left hm
      rw [exec_restore_direct hd (Nat.le_of_not_lt hm), giveUp_unclaimed hc]

end Sys2Proof.Machine
end

section
/-! The Bit-Level Driver (spec/41_bitdriver.md) with the pins reached directly: the levels that one level write gives, and
each primitive. -/

namespace Sys2Proof.Machine

/-! Level writes of a list of pins with levels (spec/20_memory.md R42). -/

section Masks

variable {ls : List (Nat × Bool)} {p : Nat} {v : Bool}

/-- A pin driven to one level alone takes it. -/
theorem latchOf_applyMasks (s : State) (hp : (p, v) ∈ ls) (hn : (p, !v) ∉ ls) :
    (applyLevels (setMask ls) (clrMask ls) s).latchOf p = v := by
  rw [latchOf_applyLevels]
  · cases v
    · rw [if_pos (mem_clrMask.2 hp)]
    · rw [if_neg (mt mem_clrMask.1 hn), if_pos (mem_setMask.2 hp)]
  · rw [mem_setMask, mem_clrMask]
    cases v
    · exact fun h => hn h.1
    · exact fun h => hn h.2

/-- A pin that is not driven keeps its level. -/
theorem latchOf_applyMasks_elsewhere (s : State) (hp : p ∉ ls.map Prod.fst) :
    (applyLevels (setMask ls) (clrMask ls) s).latchOf p = s.latchOf p := by
  have hn : ∀ v, (p, v) ∉ ls := fun v h => hp (List.mem_map.2 ⟨_, h, rfl⟩)
  have hset : p ∉ setMask ls := mt mem_setMask.1 (hn true)
  have hclr : p ∉ clrMask ls := mt mem_clrMask.1 (hn false)
  rw [latchOf_applyLevels _ _ _ _ fun h => hset h.1, if_neg hclr, if_neg hset]

/-- With no pin driven to both levels no free level is drawn. -/
theorem levelDraws_applyMasks (s : State) (h : ∀ p v, (p, v) ∈ ls → (p, !v) ∉ ls) :
    (applyLevels (setMask ls) (clrMask ls) s).levelDraws = s.levelDraws :=
  levelDraws_applyLevels _ _ _ fun p hp => by
    rw [mem_setMask] at hp
    rw [mem_clrMask]
    exact h p true hp

end Masks

/-! `DRIVE` (R101, R102). -/

/-- What a `DRIVE` of the levels `ls` gives. -/
def afterDrive (f : Flavour) (clk tms data : Bool) (ls : List (Nat × Bool)) (s : State) : State :=
  waitDelay (record (.lv f clk (tmsShown f tms) data) (applyLevels (setMask ls) (clrMask ls) s))

theorem afterDrive_fields (f : Flavour) (clk tms data : Bool) (ls : List (Nat × Bool)) (s : State) :
    afterDrive f clk tms data ls s = { s with
      latch := (applyLevels (setMask ls) (clrMask ls) s).latch
      levelDraws := (applyLevels (setMask ls) (clrMask ls) s).levelDraws
      trace := s.trace ++ [.lv f clk (tmsShown f tms) data], waited := s.waited + s.delay.toNat } := by
  unfold afterDrive
  rw [applyLevels_state]
  rfl

theorem latchOf_afterDrive (f : Flavour) (clk tms data : Bool) (ls : List (Nat × Bool)) (s : State) (p : Nat) :
    (afterDrive f clk tms data ls s).latchOf p = (applyLevels (setMask ls) (clrMask ls) s).latchOf p := by
  rw [afterDrive_fields]; rfl

theorem exec_drive_direct {f : Flavour} {clk tms data : Bool} {ls : List (Nat × Bool)} {s : State}
    (he : enabled f s = true) (hd : s.cfg.impl = .direct) (hl : driveLevels f clk tms data s = .ok ls s) :
    exec (.drive f clk tms data) s = .next (afterDrive f clk tms data ls s) := by
  simp [exec, execDrive, drive, he, hl, levelWrite_direct _ _ hd, afterDrive]

/-- Settles O17. -/
theorem driveJtagSetsLines : Obligations.DriveJtagSetsLines := by
  intro s clk tms data c m d he hd hc hm hi
  have hl : driveLevels .jtag clk tms data s = .ok [(c, clk), (m, tms), (d, data)] s := by
    simp [driveLevels, hc, hm, hi, needPin]
  refine ⟨_, exec_drive_direct he hd hl, fun p v hp hn => ?_, fun p hp => ?_, fun hn => ?_, ?_, ?_, ?_⟩
  · rw [latchOf_afterDrive, latchOf_applyMasks s hp hn]
  · rw [latchOf_afterDrive, latchOf_applyMasks_elsewhere s (by simpa using hp)]
  · rw [afterDrive_fields]; exact levelDraws_applyMasks s hn
  · exact congrArg State.trace (afterDrive_fields ..)
  · exact congrArg State.waited (afterDrive_fields ..)
  · rw [afterDrive_fields]

/-- Settles O18. -/
theorem driveSwdSetsLines : Obligations.DriveSwdSetsLines := by
  intro s clk tms data c d he hd hc hi
  have hl : driveLevels .swd clk tms data s = .ok [(c, clk), (d, data)] s := by simp [driveLevels, hc, hi, needPin]
  refine ⟨_, exec_drive_direct he hd hl, fun hcd => ?_, fun p h1 h2 => ?_, ?_, ?_, ?_⟩
  · have hn : ∀ p v, (p, v) ∈ [(c, clk), (d, data)] → (p, !v) ∉ [(c, clk), (d, data)] := by
      intro p v hp hq
      simp only [List.mem_cons, Prod.mk.injEq, List.not_mem_nil, or_false] at hp hq
      rcases hp with ⟨rfl, rfl⟩ | ⟨rfl, rfl⟩ <;> simp_all
    refine ⟨?_, ?_, ?_⟩
    · rw [latchOf_afterDrive, latchOf_applyMasks s (v := clk) (by simp) (hn _ _ (by simp))]
    · rw [latchOf_afterDrive, latchOf_applyMasks s (v := data) (by simp) (hn _ _ (by simp))]
    · rw [afterDrive_fields]; exact levelDraws_applyMasks s hn
  · rw [latchOf_afterDrive, latchOf_applyMasks_elsewhere s (by simp [h1, h2])]
  · exact congrArg State.trace (afterDrive_fields ..)
  · exact congrArg State.waited (afterDrive_fields ..)
  · rw [afterDrive_fields]

/-! `READ` (R103). -/

/-- What a `READ` at pin `p` gives. -/
def afterRead (f : Flavour) (p : Nat) (s : State) : State :=
  setRout (bitWord (lineLevel p s).1) (record (.smp f (lineLevel p s).1) (lineLevel p s).2)

theorem readLine_direct {f : Flavour} {s : State} {p : Nat} (he : enabled f s = true) (hd : s.cfg.impl = .direct)
    (hp : pinOf (sampledRole f) s = some p) : readLine f s = .ok (lineLevel p s).1 (afterRead f p s) := by
  simp [readLine, he, hp, needPin, levelRead_direct _ hd, afterRead]

theorem exec_read_direct {f : Flavour} {s : State} {p : Nat} (he : enabled f s = true) (hd : s.cfg.impl = .direct)
    (hp : pinOf (sampledRole f) s = some p) : exec (.read f) s = .next (afterRead f p s) := by
  simp only [exec, execRead, readLine_direct he hd hp, andThen_ok, finish_ok]

/-- A draw is a free value when no bit is given. -/
theorem drawLine_free {s : State} (h : s.lineSrc.given = []) :
    drawLine s = (Config.freeLine s.lineSrc.used, { s with lineSrc := ⟨[], s.lineSrc.used + 1⟩ }) := by
  simp [drawLine, Source.draw, h]

/-- Settles O19. -/
theorem readSamplesLine : Obligations.ReadSamplesLine := by
  intro s f p he hd hp
  have hr := exec_read_direct (f := f) (p := p) he hd (by cases f <;> exact hp)
  have hexec : ∀ b t, lineLevel p s = (b, t) → exec (.read f) s = .next (setRout (bitWord b) (record (.smp f b) t)) := by
    intro b t hl
    rw [hr, afterRead, hl]
  refine ⟨fun hf => hexec _ _ (lineLevel_output hf), fun b bs hf hg => ?_, fun hf hg => ?_⟩
  · exact hexec _ _ ((lineLevel_input hf).trans (drawLine_given hg))
  · exact hexec _ _ ((lineLevel_input hf).trans (drawLine_free hg))

/-! `RESET` (R104, R105). -/

theorem mem_resetLevels {a b : Bool} {s : State} {p : Nat} {v : Bool} :
    (p, v) ∈ resetLevels a b s ↔ (pinOf .trst s = some p ∧ resetLevel s.cfg.toDecided a = v) ∨
      (pinOf .srst s = some p ∧ resetLevel s.cfg.toDecided b = v) := by
  simp [resetLevels]

/-- What a `RESET` gives. -/
def afterReset (a b : Bool) (s : State) : State :=
  record (.rst a b) (applyLevels (setMask (resetLevels a b s)) (clrMask (resetLevels a b s)) s)

theorem driveReset_direct {s : State} (a b : Bool) (hs : s.session = .active) (hd : s.cfg.impl = .direct) :
    driveReset a b s = .ok () (afterReset a b s) := by
  simp [driveReset, hs, levelWrite_direct _ _ hd, afterReset]

theorem latchOf_afterReset (a b : Bool) (s : State) (p : Nat) : (afterReset a b s).latchOf p =
    (applyLevels (setMask (resetLevels a b s)) (clrMask (resetLevels a b s)) s).latchOf p := rfl

theorem resetLevel_not_injective (c : Decided) (a b : Bool) : resetLevel c a = (!resetLevel c b) → a ≠ b := by
  rintro h rfl
  cases hr : resetLevel c a <;> simp [hr] at h

/-- Settles O20. -/
theorem resetDrivesLines : Obligations.ResetDrivesLines := by
  intro s trst srst hs hd
  refine ⟨afterReset trst srst s, ?_, fun p hp hq => ?_, fun p hp hq => ?_, fun p h1 h2 => ?_, ?_, ?_⟩
  · simp only [exec, execReset, driveReset_direct _ _ hs hd, finish_ok]
  · rw [latchOf_afterReset, latchOf_applyMasks s (mem_resetLevels.2 (.inl ⟨hp, rfl⟩))]
    · rfl
    · rw [mem_resetLevels]
      rintro (⟨-, h⟩ | ⟨h, k⟩)
      · exact resetLevel_not_injective _ _ _ h rfl
      · exact resetLevel_not_injective _ _ _ k (hq.resolve_left fun hne => hne h).symm
  · rw [latchOf_afterReset, latchOf_applyMasks s (mem_resetLevels.2 (.inr ⟨hp, rfl⟩))]
    · rfl
    · rw [mem_resetLevels]
      rintro (⟨h, k⟩ | ⟨-, h⟩)
      · exact resetLevel_not_injective _ _ _ k (hq.resolve_left fun hne => hne h)
      · exact resetLevel_not_injective _ _ _ h rfl
  · rw [latchOf_afterReset, latchOf_applyMasks_elsewhere]
    rintro hm
    obtain ⟨⟨q, v⟩, hv, rfl⟩ := List.mem_map.1 hm
    rcases mem_resetLevels.1 hv with ⟨h, -⟩ | ⟨h, -⟩
    · exact h1 h
    · exact h2 h
  · simp [afterReset]
  · unfold afterReset; rw [applyLevels_state]; rfl

/-! `DRIVE_DIRECTION` (R106). -/

/-- What a turn of SWDIO, at pin `d`, gives: a claim, then the direction and its event. -/
def afterTurn (output : Bool) (d : Nat) (s : State) : State :=
  record (.dir (if output then .out else .inp)) (setDir (if output then .out else .inp)
    (afterClaim (if output then .output else .input) d s))

theorem driveDirection_direct {s : State} {d : Nat} (output : Bool) (he : enabled .swd s = true)
    (hd : s.cfg.impl = .direct) (hp : pinOf .swdio s = some d) :
    driveDirection output s = .ok () (afterTurn output d s) := by
  cases output <;> simp [driveDirection, he, hp, claimIn_direct _ hd, claimOut_direct _ hd, afterTurn]

/-- Settles O21. -/
theorem driveDirectionSetsDirection : Obligations.DriveDirectionSetsDirection := by
  intro s d output he hd hp
  let m : PinMode := if output then .output else .input
  refine ⟨afterTurn output d s, ?_, ?_, ?_, ?_, savedMode_afterClaim_same m d s,
    fun q hq => afterClaim_elsewhere m hq s, ?_, ?_⟩
  · simp only [exec, execDriveDirection, driveDirection_direct output he hd hp, finish_ok]
  · cases output <;> rfl
  · exact (funcOf_afterClaim m d d s).trans (if_pos rfl)
  · exact (isClaimed_afterClaim m d d s).trans (if_pos rfl)
  · cases output <;> simp [afterTurn, toInput, toOutput]
  · unfold afterTurn; rw [afterClaim_fields]; rfl

/-! Where the driver refuses (spec/60_exceptions.md R200 a to c). -/

theorem drive_refused {f : Flavour} {s : State} (he : enabled f s = false) (clk tms data : Bool) :
    drive f clk tms data s = .refused .flavourDisabled := by simp [drive, he]

theorem readLine_refused {f : Flavour} {s : State} (he : enabled f s = false) :
    readLine f s = .refused .flavourDisabled := by simp [readLine, he]

theorem driveDirection_refused {s : State} (he : enabled .swd s = false) (output : Bool) :
    driveDirection output s = .refused .flavourDisabled := by simp [driveDirection, he]

/-- The first bit that is sent is refused. -/
theorem swdOut_refused {s : State} (he : enabled .swd s = false) {bs : List Bool} (hb : bs ≠ []) :
    swdOut bs s = .refused .flavourDisabled := by
  obtain ⟨b, bs, rfl⟩ := List.exists_cons_of_ne_nil hb
  simp only [swdOut, cycOut, drive_refused he, andThen_refused]

theorem wireBits_ne_nil {n : Nat} (hn : n ≠ 0) (v : BitVec n) : wireBits v ≠ [] := fun h =>
  hn (by rw [← length_wireBits v, h]; rfl)

theorem primitiveInstr_ne_none {w : StreamWord} : primitiveInstr w ≠ none ↔ isPrimitive w = true := by
  cases w <;> simp [primitiveInstr, isPrimitive]

theorem all_isPrimitive {ws : List StreamWord} (h : ∀ w ∈ ws, primitiveInstr w ≠ none) : ws.all isPrimitive = true :=
  List.all_eq_true.2 fun w hw => primitiveInstr_ne_none.1 (h w hw)

/-- R180: a valid stream in a session is run. -/
theorem exec_execJtag_active {s : State} {ws : List StreamWord} (hs : s.session = .active)
    (hw : ∀ w ∈ ws, primitiveInstr w ≠ none) (n : Word) : exec (.execJtag n ws) s =
      finish ((runStream ws s).andThen fun out s => returnCode .ok { s with jtagOut := out }) := by
  simp [exec, execExecJtag, all_isPrimitive hw, hs]

/-- A `RESET` leaves the phase, the mode and the platform as they are. -/
theorem afterReset_phase (a b : Bool) (s : State) : (afterReset a b s).session = s.session ∧
    (afterReset a b s).tmode = s.tmode ∧ (afterReset a b s).cfg = s.cfg := by simp [afterReset]

/-- A stream is refused at its first primitive that is no `RESET`, where flavour JTAG is not enabled. -/
theorem runStream_refused {ws : List StreamWord} {s : State} (hs : s.session = .active)
    (hm : modeAllows .jtag s.tmode = false) (hd : s.cfg.impl = .direct) (hw : ∀ w ∈ ws, primitiveInstr w ≠ none)
    (hn : ∃ w ∈ ws, ∀ a b, w ≠ .reset a b) : runStream ws s = .refused .flavourDisabled := by
  have he : enabled .jtag s = false := by simp [enabled, hm]
  induction ws generalizing s with
  | nil => obtain ⟨w, hw, -⟩ := hn; cases hw
  | cons w ws ih =>
    cases w with
    | drive tck tms tdi => simp only [runStream, runPrimitive, drive_refused he, andThen_refused]
    | read => simp only [runStream, runPrimitive, readLine_refused he, andThen_refused]
    | reset a b =>
      obtain ⟨h1, h2, h3⟩ := afterReset_phase a b s
      have hrest : runStream ws (afterReset a b s) = .refused .flavourDisabled := by
        refine ih (h1.trans hs) (by rw [h2]; exact hm) (by rw [h3]; exact hd) (fun w h => hw w (by simp [h])) ?_
          (by simp [enabled, h2, hm])
        obtain ⟨w, hmem, hne⟩ := hn
        rcases List.mem_cons.1 hmem with rfl | hmem
        · exact absurd rfl (hne a b)
        · exact ⟨w, hmem, hne⟩
      simp only [runStream, runPrimitive, driveReset_direct a b hs hd, andThen_ok, hrest, andThen_refused]
    | other w => exact absurd rfl (hw (.other w) (by simp))

/-- Settles O22. -/
theorem driverRefusedWhenDisabled : Obligations.DriverRefusedWhenDisabled := by
  intro s
  refine ⟨fun f clk tms data he => ?_, fun f he => ?_, fun o he => ?_, fun a b hs => ?_, fun n ws hs hw => ?_,
    fun n ws hs hm hd hw hn => ?_, fun p a3 a2 v he hdec => ⟨fun i hi => ?_, fun ho => ?_⟩⟩
  · simp only [exec, execDrive, drive_refused he, finish_refused]
  · simp only [exec, execRead, readLine_refused he, andThen_refused, finish_refused]
  · simp only [exec, execDriveDirection, driveDirection_refused he, finish_refused]
  · simp [exec, execReset, driveReset, hs]
  · simp [exec, execExecJtag, all_isPrimitive hw, hs]
  · rw [exec_execJtag_active hs hw, runStream_refused hs hm hd hw hn]; rfl
  · have bits : ∀ {bs : List Bool}, bs ≠ [] → finish (swdOut bs s) = .refused .flavourDisabled := fun hb => by
      rw [swdOut_refused he hb, finish_refused]
    have hlen : s.cfg.lineResetLen = 56 := by rw [hdec]; rfl
    simp only [List.mem_cons, List.not_mem_nil, or_false] at hi
    rcases hi with rfl | rfl | rfl | rfl | rfl | rfl | rfl
    · exact bits (wireBits_ne_nil (by decide) _)
    · exact bits (wireBits_ne_nil (by decide) _)
    · exact bits (wireBits_ne_nil (by decide) _)
    · exact bits (wireBits_ne_nil (by decide) _)
    · exact bits (by simp [hlen])
    · have hn : wireBits s.cfg.seqJtagToSwd ≠ [] := wireBits_ne_nil (by decide) _
      simp only [exec, execSeqJtagToSwd, jtagToSwd, swdOut_refused he hn, andThen_refused, finish_refused]
    · exact bits (wireBits_ne_nil (by decide) _)
  · have hn : wireBits v ≠ [] := wireBits_ne_nil (by decide) _
    simp only [exec, execSwdData, ho, sendData, swdOut_refused he hn, andThen_refused, finish_refused]

end Sys2Proof.Machine
end

section
/-! The Speed Calibrator (spec/42_speed.md), the operations that store and divide: `SET_SPEED`, `SPEED_TO_KHZ`, and how a
delay follows the frequency. -/

namespace Sys2Proof.Machine

theorem exec_setSpeed_of_ne_zero {khz : Word} (hk : khz ≠ 0) (s : State) : exec (.setSpeed khz) s =
    .next (setStatus .ok { s with delay := BitVec.ofInt 32 (delayForKhz s.coeff s.offset khz) }) :=
  if_neg hk

theorem exec_speedToKhz (delay : Word) (s : State) : exec (.speedToKhz delay) s =
    if khzDivisor s.offset delay ≤ 0 then .next (setStatus .fail s)
    else .next (setStatus .ok (setRout (BitVec.ofNat 32 (s.coeff.toNat / (khzDivisor s.offset delay).toNat)) s)) := rfl

/-- Settles O24: the delay fits in `DELAY`. -/
theorem setSpeedSetsDelay : Obligations.SetSpeedSetsDelay := by
  intro s khz hk
  refine ⟨_, exec_setSpeed_of_ne_zero hk s, ?_, rfl⟩
  calc ((BitVec.ofInt 32 (delayForKhz s.coeff s.offset khz)).toNat : Int)
      = delayForKhz s.coeff s.offset khz := toNat_ofInt_delayForKhz ..
    _ = max 0 ((s.coeff.toNat : Int) / khz.toNat - s.offset.toInt) := by rw [delayForKhz, Int.natCast_ediv]

/-- Settles O26: the quotient is at most the coefficient, which has 31 bits, so it fits in `ROUT`. -/
theorem speedToKhzDivides : Obligations.SpeedToKhzDivides := by
  intro s delay
  constructor
  · intro hpos
    have hdiv : 0 < khzDivisor s.offset delay := hpos
    have hfit : s.coeff.toNat / (khzDivisor s.offset delay).toNat < 2 ^ 32 :=
      ((Nat.div_le_self _ _).trans_lt s.coeff.isLt).trans (by decide)
    refine ⟨_, (exec_speedToKhz delay s).trans (if_neg (Int.not_le.2 hdiv)), ?_, rfl⟩
    calc ((BitVec.ofNat 32 (s.coeff.toNat / (khzDivisor s.offset delay).toNat)).toNat : Int)
        = ((s.coeff.toNat / (khzDivisor s.offset delay).toNat : Nat) : Int) := by
          rw [BitVec.toNat_ofNat, Nat.mod_eq_of_lt hfit]
      _ = (s.coeff.toNat : Int) / khzDivisor s.offset delay := by
          rw [Int.natCast_ediv, Int.toNat_of_nonneg (Int.le_of_lt hdiv)]
  · intro hneg
    exact (exec_speedToKhz delay s).trans (if_pos hneg)

/-- R122: dividing by more gives no more. -/
theorem delayForKhz_antitone {coeff : BitVec 31} {offset : BitVec 32} {k l : Word} (hk : k ≠ 0) (hkl : k.toNat ≤ l.toNat) :
    delayForKhz coeff offset l ≤ delayForKhz coeff offset k := by
  have hpos : 0 < k.toNat := Nat.pos_of_ne_zero fun h => hk (BitVec.eq_of_toNat_eq h)
  have hdiv : ((coeff.toNat / l.toNat : Nat) : Int) ≤ (coeff.toNat / k.toNat : Nat) :=
    Int.ofNat_le.2 (Nat.div_le_div_left hkl hpos)
  exact max_le_max_left 0 (Int.sub_le_sub_right hdiv _)

/-- Settles O27: both delays are the integers of R120. -/
theorem delayNonIncreasingInKhz : Obligations.DelayNonIncreasingInKhz := by
  intro s t u k l hk hkl ht hu
  have hl : l ≠ 0 := by
    rintro rfl
    exact hk (BitVec.eq_of_toNat_eq (Nat.le_zero.1 hkl))
  rw [exec_khzToSpeed_of_ne_zero hk] at ht
  rw [exec_khzToSpeed_of_ne_zero hl] at hu
  cases ht
  cases hu
  refine Int.ofNat_le.1 ?_
  calc ((BitVec.ofInt 32 (delayForKhz s.coeff s.offset l)).toNat : Int)
      = delayForKhz s.coeff s.offset l := toNat_ofInt_delayForKhz ..
    _ ≤ delayForKhz s.coeff s.offset k := delayForKhz_antitone hk hkl
    _ = ((BitVec.ofInt 32 (delayForKhz s.coeff s.offset k)).toNat : Int) := (toNat_ofInt_delayForKhz ..).symm

end Sys2Proof.Machine
end

section
/-! The configuration operations (spec/45_session.md R170 to R172, R175, R177, R178): each in the phase it works in and in
the other. -/

namespace Sys2Proof.Machine

theorem PinCfg.get_set (c : PinCfg) (r q : Role) (x : PinOperand) :
    (c.set r x).get q = if q = r then x else c.get q := by
  cases r <;> cases q <;> rfl

theorem whenInactive_inactive {s : State} (h : s.session = .inactive) (k : State → State) : whenInactive k s = k s := by
  simp [whenInactive, h]

theorem whenInactive_active {s : State} (h : s.session = .active) (k : State → State) :
    whenInactive k s = setStatus .fail s := by
  simp [whenInactive, h]

theorem exec_cfgPin {role : Byte} {r : Role} (h : roleOfCode role = some r) (x : PinOperand) (s : State) :
    exec (.cfgPin role x) s =
      .next (whenInactive (fun s => setStatus .ok { s with pincfg := s.pincfg.set r x }) s) := by
  simp only [exec, execCfgPin, h]

/-- R63: the codes above 7 name no role. -/
theorem roleOfCode_of_gt {c : Byte} (h : 7 < c.toNat) : roleOfCode c = none := by
  unfold roleOfCode
  split
  case h_9 => rfl
  all_goals exact absurd h (by decide)

/-- Settles O28. -/
theorem cfgPinConfiguresRole : Obligations.CfgPinConfiguresRole := by
  intro s x
  constructor
  · intro e he
    have hrole : roleOfCode e.1 = some e.2 := by
      revert e
      decide
    refine ⟨fun hs => ?_, fun hs => ?_⟩
    · refine ⟨_, (exec_cfgPin hrole x s).trans (congrArg _ (whenInactive_inactive hs _)), ?_, fun r hr => ?_, rfl⟩
      · exact (PinCfg.get_set ..).trans (if_pos rfl)
      · exact (PinCfg.get_set ..).trans (if_neg hr)
    · exact (exec_cfgPin hrole x s).trans (congrArg _ (whenInactive_active hs _))
  · intro code hcode
    simp only [exec, execCfgPin, roleOfCode_of_gt hcode, setStatus]

theorem exec_cfgCoeff (c : Word) (s : State) : exec (.cfgCoeff c) s = .next (whenInactive (fun s =>
    if c.getLsbD 31 then setStatus .fail s else setStatus .ok { s with coeff := c.extractLsb' 0 31 }) s) := rfl

/-- R171: bit 31 tells a coefficient that fits from one that does not. -/
theorem getLsbD_31_iff (c : Word) : c.getLsbD 31 = true ↔ 2 ^ 31 ≤ c.toNat := by
  have h := c.isLt
  rw [BitVec.getLsbD, Nat.testBit_eq_decide_div_mod_eq, decide_eq_true_eq]
  omega

/-- Settles O29. -/
theorem cfgTimingAndBase : Obligations.CfgTimingAndBase := by
  intro s
  refine ⟨fun hs => ⟨fun c hc => ?_, fun c hc => ?_, fun o => ?_, fun a => ?_⟩, fun hs a i hi => ?_⟩
  · have hbit : ¬c.getLsbD 31 = true := fun h => Nat.not_le.2 hc ((getLsbD_31_iff c).1 h)
    refine ⟨setStatus .ok { s with coeff := c.extractLsb' 0 31 }, ?_, ?_, rfl⟩
    · rw [exec_cfgCoeff, whenInactive_inactive hs, if_neg hbit]
    · change (c.extractLsb' 0 31).toNat = c.toNat
      rw [BitVec.extractLsb'_toNat, Nat.shiftRight_zero, Nat.mod_eq_of_lt hc]
  · rw [exec_cfgCoeff, whenInactive_inactive hs, if_pos ((getLsbD_31_iff c).2 hc)]
    rfl
  · exact congrArg Host.Outcome.next (whenInactive_inactive hs _)
  · exact congrArg Host.Outcome.next (whenInactive_inactive hs _)
  · simp only [List.mem_cons, List.not_mem_nil, or_false] at hi
    rcases hi with rfl | rfl | rfl <;> exact congrArg Host.Outcome.next (whenInactive_active hs _)

/-- Settles O30: with `AP_DELAY_W` at 8 nothing of the operand is cut. -/
theorem cfgApDelaySetsCount : Obligations.CfgApDelaySetsCount := by
  intro s n
  refine ⟨rfl, fun hdec => ?_⟩
  have hfit : apDelayValue s.cfg.toDecided n = n.toNat := by
    rw [hdec]
    exact Nat.mod_eq_of_lt n.isLt
  simp only [exec, execCfgApDelay, hfit, setStatus]

end Sys2Proof.Machine
end

section
/-! The engine's small parts (spec/43_swd_engine.md): the parity bit, the request byte, what is refused or skipped, and the
rows that only latch or return a code. -/

namespace Sys2Proof.Machine

theorem xorAll_eq_odd (bs : List Bool) : xorAll bs = decide ((bs.filter id).length % 2 = 1) := by
  induction bs with
  | nil => rfl
  | cons b bs ih =>
    have hcons : xorAll (b :: bs) = (b ^^ xorAll bs) := rfl
    rw [hcons, ih]
    cases b with
    | false => simp
    | true =>
      rcases Nat.mod_two_eq_zero_or_one (bs.filter id).length with h | h <;>
        simp [h, Nat.add_mod]

/-- Settles O37: the exclusive or of the bits is 1 when the number of ones is odd. -/
theorem parityOddCountsOnes : Obligations.ParityOddCountsOnes := by
  intro v
  have hcount : ((wireBits v).filter id).length = ((List.range 32).filter fun k => v.getLsbD k).length := by
    rw [wireBits, List.filter_map, List.length_map]
    rfl
  rw [parityOdd, xorAll_eq_odd, hcount]
  simp

/-- Settles O38: the two masks force bits 0, 6 and 7 and let bits 1 to 5 through. -/
theorem headerForcesFraming : Obligations.HeaderForcesFraming := by
  intro cmd
  have hbit : ∀ k, (header cmd).getLsbD k = ((cmd.getLsbD k && (0x3E#8).getLsbD k) || (0x81#8).getLsbD k) := fun k => by
    rw [header, BitVec.getLsbD_or, BitVec.getLsbD_and]
  refine ⟨fun k h1 h5 => ?_, ?_, ?_, ?_⟩
  · rw [hbit]
    obtain ⟨hone, hzero⟩ : (0x3E#8).getLsbD k = true ∧ (0x81#8).getLsbD k = false := by
      interval_cases k <;> decide
    rw [hone, hzero, Bool.and_true, Bool.or_false]
  · rw [hbit, show (0x81#8).getLsbD 0 = true by decide, Bool.or_true]
  · rw [hbit, show (0x3E#8).getLsbD 6 = false by decide, show (0x81#8).getLsbD 6 = false by decide, Bool.and_false]; rfl
  · rw [hbit, show (0x81#8).getLsbD 7 = true by decide, Bool.or_true]

/-- R131: a faulted engine skips the frame. -/
theorem registerOperation_faulted {s : State} (hq : s.qcode ≠ .ok) (frame : State → Res Unit) :
    registerOperation frame s = .ok () { s with batchOpen := true, status := codeOfQ s.qcode } := by
  simp only [registerOperation, hq, ↓reduceIte, returnQCode, returnCode, setStatus]

/-- A register operation with the right direction bit is the writing or the reading frame (R135, R141). -/
theorem exec_registerOp {i : Instr} {s : State} (he : enabled .swd s = true) (hi : isRegisterOp i = true) :
    (∃ cmd v, i = .writeReg cmd v ∧ exec i s = finish (registerOperation (writeFrame (header cmd) v) s)) ∨
      ∃ cmd, i = .readReg cmd ∧ exec i s = finish (registerOperation (readFrame (header cmd)) s) := by
  cases i with
  | writeReg cmd v =>
    have hc : ¬cmd.getLsbD 2 = true := by simpa [isRegisterOp] using hi
    exact .inl ⟨cmd, v, rfl, by simp only [exec, execWriteReg, he, if_neg hc]; rfl⟩
  | readReg cmd =>
    have hc : cmd.getLsbD 2 = true := hi
    exact .inr ⟨cmd, rfl, by simp [exec, execReadReg, he, hc]⟩
  | _ => cases hi

theorem exec_registerOp_faulted {i : Instr} {s : State} (he : enabled .swd s = true) (hi : isRegisterOp i = true)
    (hq : s.qcode ≠ .ok) : exec i s = .next { s with batchOpen := true, status := codeOfQ s.qcode } := by
  rcases exec_registerOp he hi with ⟨cmd, v, -, h⟩ | ⟨cmd, -, h⟩ <;>
    rw [h, registerOperation_faulted hq, finish_ok]

/-- Settles O44. -/
theorem faultedOperationSkipped : Obligations.FaultedOperationSkipped := fun _ _ => exec_registerOp_faulted

/-- Settles O45: the session is tested first, then the direction bit, and `QCODE` after both. -/
theorem engineRefusals : Obligations.EngineRefusals := by
  intro s
  refine ⟨fun he => ⟨fun cmd v => ?_, fun cmd => ?_, fun i hi => ?_⟩, fun he => ⟨fun cmd v hc => ?_, fun cmd hc => ?_⟩⟩
  · simp [exec, execWriteReg, he]
  · simp [exec, execReadReg, he]
  · have hseq : ∀ seq, switchSequence seq s = .refused .noSwd := fun seq => by simp [switchSequence, he]
    simp only [List.mem_cons, List.not_mem_nil, or_false] at hi
    rcases hi with rfl | rfl | rfl | rfl
    · simp [exec, execRunQueue, he]
    · exact hseq _
    · exact hseq _
    · exact hseq _
  · simp only [exec, execWriteReg, he, hc]; rfl
  · simp only [exec, execReadReg, he, hc]; rfl

/-! The rows of an ACK and of a status code. -/

theorem applyAck_faulted {s : State} (hq : s.qcode ≠ .ok) (a : BitVec 3) : applyAck a s = s := by
  simp [applyAck, latchFault, hq]

theorem applyAck_fresh {s : State} (hdec : s.cfg.toDecided = Decided.spec) (hq : s.qcode = .ok) (a : BitVec 3) :
    applyAck a s = { s with qcode := codeOfAck (decodeAck Decided.spec a) } := by
  simp [applyAck, latchFault, hq, hdec]

/-- Settles O52. -/
theorem ackRowsLatch : Obligations.AckRowsLatch := by
  intro s
  constructor
  · intro hdec hq
    have hack : ∀ {a : BitVec 3} {q : QCode}, codeOfAck (decodeAck Decided.spec a) = q →
        (Host.Outcome.next (applyAck a s) : Host.Outcome State Fault Refusal) = .next { s with qcode := q } :=
      fun h => by rw [applyAck_fresh hdec hq, h]
    have hcfg : s.cfg.ackOk = 0b001#3 ∧ s.cfg.ackWait = 0b010#3 ∧ s.cfg.ackFault = 0b100#3 := by rw [hdec]; decide
    obtain ⟨hok, hwait, hfault⟩ := hcfg
    refine ⟨?_, hack (by rw [hwait]; rfl), hack (by rw [hfault]; rfl), fun a ha => hack ?_⟩
    · refine (hack (q := .ok) (by rw [hok]; rfl)).trans ?_
      rw [← hq]
    · revert a
      decide
  · intro hq
    have hack : ∀ a : BitVec 3,
        (Host.Outcome.next (applyAck a s) : Host.Outcome State Fault Refusal) = .next s :=
      fun a => by rw [applyAck_faulted hq]
    refine ⟨fun i hi => ?_, fun a => hack a⟩
    simp only [List.mem_cons, List.not_mem_nil, or_false] at hi
    rcases hi with rfl | rfl | rfl <;> exact hack _

/-- Settles O54. -/
theorem statusRowsReturnCode : Obligations.StatusRowsReturnCode := by
  intro s e he
  simp only [List.mem_cons, List.not_mem_nil, or_false] at he
  rcases he with rfl | rfl | rfl | rfl <;> rfl

end Sys2Proof.Machine
end

section
/-! The session operations (spec/45_session.md R173, R174, R176, R179, R181) with the pins reached directly. -/

namespace Sys2Proof.Machine

/-! When `INIT` is refused (R173). -/

theorem jtagOk_iff {s : State} : jtagOk s = true ↔ ∀ r ∈ [Role.tck, .tms, .tdi, .tdo], pinOf r s ≠ none := by
  simp [jtagOk, Option.isSome_iff_ne_none, and_assoc]

theorem swdOk_iff {s : State} : swdOk s = true ↔ ∀ r ∈ [Role.swclk, .swdio], pinOf r s ≠ none := by
  simp [swdOk, Option.isSome_iff_ne_none]

theorem initRefuses_iff {s : State} : initRefuses s = true ↔ s.session = .active ∨
    (jtagOk s = true ∧ pinOf .trst s = none ∧ pinOf .srst s = none) ∨ (jtagOk s = false ∧ swdOk s = false) := by
  simp [initRefuses, and_assoc, or_assoc]

theorem session_of_initRefuses {s : State} (h : initRefuses s = false) : s.session = .inactive := by
  cases hs : s.session with
  | inactive => rfl
  | active => rw [initRefuses_iff.2 (.inl hs)] at h; cases h

theorem exec_init_refused {s : State} (h : initRefuses s = true) : exec .init s = .next (setStatus .fail s) := by
  simp only [exec, execInit, h, ↓reduceIte]

theorem exec_init_direct {s : State} {b : Bool} {src : Source} (hr : initRefuses s = false) (hd : s.cfg.impl = .direct)
    (ha : s.acquireSrc.draw Config.freeAcquire = (b, src)) : exec .init s =
      finish (if b then initEffects { s with acquireSrc := src } else returnCode .fail { s with acquireSrc := src }) := by
  simp [exec, execInit, hr, acquire, rendezvous_direct hd, drawAcquire, ha]

/-- Settles O31. -/
theorem initFails : Obligations.InitFails := by
  intro s
  constructor
  · intro h
    refine exec_init_refused (initRefuses_iff.2 ?_)
    rcases h with h | ⟨h, h1, h2⟩ | ⟨⟨r, hr, hj⟩, q, hq, hs⟩
    · exact .inl h
    · exact .inr (.inl ⟨jtagOk_iff.2 h, h1, h2⟩)
    · exact .inr (.inr ⟨Bool.eq_false_iff.2 fun h => jtagOk_iff.1 h r hr hj,
        Bool.eq_false_iff.2 fun h => swdOk_iff.1 h q hq hs⟩)
  · intro src hr hd ha
    rw [exec_init_direct hr hd ha]
    rfl

/-! What `INIT` brings up (R174; spec/70_reset_and_hazards.md R222). -/

theorem map_fst_claimsOf (s : State) : (claimsOf s).map Prod.fst = sessionPins s := by
  simp only [claimsOf, sessionPins, List.map_filterMap, Option.map_map]
  exact List.filterMap_congr fun r _ => by cases pinOf r s <;> rfl

theorem map_fn_claimsOf (s : State) : ((claimsOf s).map fun e => Event.fn e.1 e.2) = sessionClaims s := by
  simp only [claimsOf, sessionClaims, List.map_filterMap, Option.map_map]
  exact List.filterMap_congr fun r _ => by cases pinOf r s <;> rfl

/-- The level writes name each output of the session, and no other role. -/
theorem mem_flatten_levelGroups {s : State} {r : Role} :
    r ∈ (levelGroups s).flatten ↔ r ∈ sessionRoles s ∧ r ≠ .tdo := by
  rw [levelGroups, sessionRoles]
  cases jtagOk s <;> cases swdOk s <;> cases r <;> decide

/-- No role is named twice. -/
theorem nodup_flatten_levelGroups (s : State) : (levelGroups s).flatten.Nodup := by
  rw [levelGroups]
  cases jtagOk s <;> cases swdOk s <;> decide

theorem sessionRoles_of_levelGroups {s : State} {g : List Role} {r : Role} (hg : g ∈ levelGroups s) (hr : r ∈ g) :
    r ∈ sessionRoles s :=
  (mem_flatten_levelGroups.1 (List.mem_flatten.2 ⟨g, hg, hr⟩)).1

/-- The pins and levels that a level write of roles names. -/
theorem mem_levels {s : State} {g : List Role} {e : Nat × Bool}
    (he : e ∈ g.filterMap fun r => (pinOf r s).map fun p => (p, initialLevel r)) :
    ∃ r ∈ g, pinOf r s = some e.1 ∧ initialLevel r = e.2 := by
  obtain ⟨r, hr, he⟩ := List.mem_filterMap.1 he
  obtain ⟨p, hp, rfl⟩ := Option.map_eq_some_iff.1 he
  exact ⟨r, hr, hp, rfl⟩

theorem levels_of_mem {s : State} {g : List Role} {r : Role} {p : Nat} (hr : r ∈ g) (hp : pinOf r s = some p) :
    (p, initialLevel r) ∈ g.filterMap fun r => (pinOf r s).map fun p => (p, initialLevel r) :=
  List.mem_filterMap.2 ⟨r, hr, by rw [hp]; rfl⟩

section BroughtUp

variable {s u t : State} (b : BringUp (claimsOf s) (levelsOf s) u t)
include b

/-- The last claim of a pin gives its function. -/
theorem funcOf_broughtUp {before after : List Role} {r : Role} {p : Nat} (hl : sessionRoles s = before ++ r :: after)
    (hp : pinOf r s = some p) (hn : ∀ q ∈ after, pinOf q s ≠ some p) : t.funcOf p = sessionMode r := by
  let claim : Role → Option (Nat × PinMode) := fun r => (pinOf r s).map fun p => (p, sessionMode r)
  have hsplit : claimsOf s = before.filterMap claim ++ (p, sessionMode r) :: after.filterMap claim := by
    rw [claimsOf, hl, List.filterMap_append, List.filterMap_cons_some (by rw [hp]; rfl)]
  have hafter : (after.filterMap claim).reverse.find? (fun e => e.1 == p) = none := by
    rw [List.find?_eq_none]
    intro e he hep
    obtain ⟨q, hq, he⟩ := List.mem_filterMap.1 (List.mem_reverse.1 he)
    obtain ⟨x, hx, rfl⟩ := Option.map_eq_some_iff.1 he
    exact hn q hq (hx.trans (congrArg some (eq_of_beq hep)))
  rw [b.func p, hsplit, List.reverse_append, List.reverse_cons, List.append_assoc, List.find?_append, hafter]
  simp

/-- The last level write that names a pin, with one level alone, gives its level. -/
theorem latchOf_broughtUp {before after : List (List Role)} {g : List Role} {p : Nat} {v : Bool}
    (hl : levelGroups s = before ++ g :: after) (hg : ∃ r ∈ g, pinOf r s = some p)
    (hv : ∀ r ∈ g, pinOf r s = some p → initialLevel r = v) (hn : ∀ h ∈ after, ∀ r ∈ h, pinOf r s ≠ some p) :
    t.latchOf p = v := by
  let levels : List Role → List (Nat × Bool) := fun g => g.filterMap fun r => (pinOf r s).map fun p => (p, initialLevel r)
  refine b.latch (before.map levels) (levels g) (after.map levels) p v ?_ ?_ (fun e he hep => ?_) fun w hw e he hep => ?_
  · rw [levelsOf, hl, List.map_append, List.map_cons]
  · obtain ⟨r, hr, hp⟩ := hg
    exact ⟨_, levels_of_mem hr hp, rfl⟩
  · obtain ⟨r, hr, hp, h⟩ := mem_levels he
    rw [← h, hv r hr (by rw [hp, hep])]
  · obtain ⟨h, hh, rfl⟩ := List.mem_map.1 hw
    obtain ⟨r, hr, hp, -⟩ := mem_levels he
    exact hn h hh r hr (by rw [hp, hep])

theorem latchOf_broughtUp_elsewhere {p : Nat} (hn : ∀ g ∈ levelGroups s, ∀ r ∈ g, pinOf r s ≠ some p) :
    t.latchOf p = u.latchOf p := by
  refine b.latchElsewhere p fun w hw e he hep => ?_
  obtain ⟨g, hg, rfl⟩ := List.mem_map.1 hw
  obtain ⟨r, hr, hp, -⟩ := mem_levels he
  exact hn g hg r hr (by rw [hp, hep])

end BroughtUp

/-- Where no two roles share a pin, a pin names its role. -/
theorem role_unique {s : State} {before after : List Role} {r q : Role} {p : Nat}
    (hn : ((before ++ r :: after).filterMap fun r => pinOf r s).Nodup) (hr : pinOf r s = some p) (hq : q ∈ after) :
    pinOf q s ≠ some p := by
  intro hqp
  rw [List.filterMap_append, List.filterMap_cons_some (f := fun r => pinOf r s) hr] at hn
  exact (List.nodup_cons.1 (List.nodup_append.1 hn).2.1).1 (List.mem_filterMap.2 ⟨q, hq, hqp⟩)

/-- The same for roles at any two places. -/
theorem role_eq_of_pin {s : State} (hn : (sessionPins s).Nodup) {r q : Role} {p : Nat} (hr : r ∈ sessionRoles s)
    (hq : q ∈ sessionRoles s) (hrp : pinOf r s = some p) (hqp : pinOf q s = some p) : r = q := by
  obtain ⟨before, after, hl⟩ := List.append_of_mem hr
  rw [sessionPins, hl] at hn
  rw [hl] at hq
  rcases List.mem_append.1 hq with hq | hq
  · obtain ⟨before', between, hl'⟩ := List.append_of_mem hq
    rw [hl', List.append_assoc, List.cons_append] at hn
    exact absurd hrp (role_unique hn hqp (by simp))
  · rcases List.mem_cons.1 hq with hq | hq
    · exact hq.symm
    · exact absurd hqp (role_unique hn hrp hq)

/-- Where no two roles share a pin, every output starts at its own level. -/
theorem latchOf_broughtUp_output {s u t : State} (b : BringUp (claimsOf s) (levelsOf s) u t) (hn : (sessionPins s).Nodup)
    {r : Role} {p : Nat} (hr : r ∈ sessionRoles s) (hp : pinOf r s = some p) (ho : r ≠ .tdo) :
    t.latchOf p = initialLevel r := by
  have huniq : ∀ h ∈ levelGroups s, ∀ q ∈ h, pinOf q s = some p → r = q := fun h hh q hq hqp =>
    role_eq_of_pin hn hr (sessionRoles_of_levelGroups hh hq) hp hqp
  obtain ⟨g, hg, hrg⟩ := List.mem_flatten.1 (mem_flatten_levelGroups.2 ⟨hr, ho⟩)
  obtain ⟨before, after, hl⟩ := List.append_of_mem hg
  refine latchOf_broughtUp b hl ⟨r, hrg, hp⟩ (fun q hq hqp => by rw [huniq g hg q hq hqp]) fun h hh q hq hqp => ?_
  have hrh : r ∈ h := by rw [huniq h (by rw [hl]; simp [hh]) q hq hqp]; exact hq
  have hnodup := nodup_flatten_levelGroups s
  rw [hl, List.flatten_append, List.flatten_cons] at hnodup
  exact (List.nodup_append.1 (List.nodup_append.1 hnodup).2.1).2.2 r hrg r (List.mem_flatten.2 ⟨h, hh, hrh⟩) rfl

/-- Settles O32: the parts of `INIT` compose to one bring-up of the session's claims and level writes. -/
theorem initStartsSession : Obligations.InitStartsSession := by
  intro s src hi hr hd ha
  have hs := session_of_initRefuses hr
  have hc := hi.inactiveUnclaimed hs
  obtain ⟨t, he, hdir, b⟩ := initEffects_runs (s := { s with acquireSrc := src }) hd
  have b : BringUp (claimsOf s) (levelsOf s)
    { s with acquireSrc := src, resHeld := true, tmode := initMode (jtagOk s) (swdOk s) } t := b
  have hmode : t.tmode = initMode (jtagOk s) (swdOk s) := by rw [b.fields]
  have hdir : t.swdioDir = if swdOk s then .out else s.swdioDir := hdir
  have hfunc : ∀ before r after p, sessionRoles s = before ++ r :: after → pinOf r s = some p →
      (∀ q ∈ after, pinOf q s ≠ some p) → t.funcOf p = sessionMode r := fun _ _ _ _ => funcOf_broughtUp b
  have hlatch : ∀ before g after p v, levelGroups s = before ++ g :: after → (∃ r ∈ g, pinOf r s = some p) →
      (∀ r ∈ g, pinOf r s = some p → initialLevel r = v) → (∀ h ∈ after, ∀ r ∈ h, pinOf r s ≠ some p) →
      t.latchOf p = v := fun _ _ _ _ _ => latchOf_broughtUp b
  refine ⟨setStatus .ok { flushBatch t with session := .active }, ?_, rfl, ?_, rfl, rfl, rfl, ?_, ?_, ?_, ?_, ?_, fun p hp => ?_,
    fun p hp => ?_, fun hn r hr p hp => ?_, hfunc, hlatch, fun p hn => latchOf_broughtUp_elsewhere b hn, ?_, ?_⟩
  · rw [exec_init_direct hr hd ha, if_pos rfl, he, finish_ok]
  · change t.resHeld = true
    rw [b.fields]
  · change t.tmode = .dual ↔ _
    rw [hmode]; cases jtagOk s <;> cases swdOk s <;> decide
  · change t.tmode = .jtag ↔ _
    rw [hmode]; cases jtagOk s <;> cases swdOk s <;> decide
  · change t.tmode = .swd ↔ _
    rw [hmode]; cases jtagOk s <;> cases swdOk s <;> decide
  · intro h
    exact hdir.trans (if_pos h)
  · intro h
    exact hdir.trans (if_neg (by simp [h]))
  · rw [← map_fst_claimsOf] at hp
    refine ⟨(b.claimed p).trans (by simp only [hp]; rfl), (b.saved p).trans (if_pos ⟨hp, hc p⟩)⟩
  · have hp' := hp
    rw [← map_fst_claimsOf] at hp'
    refine ⟨(b.claimed p).trans ?_, (b.saved p).trans (if_neg fun h => hp' h.1), (b.func p).trans ?_, ?_⟩
    · exact (congrArg (_ || ·) (hc p)).trans (by simp [hp'])
    · rw [BringUp.find_none p hp']; rfl
    · refine latchOf_broughtUp_elsewhere b fun g hg r hr hrp => hp ?_
      exact List.mem_filterMap.2 ⟨r, sessionRoles_of_levelGroups hg hr, hrp⟩
  · obtain ⟨before, after, hl⟩ := List.append_of_mem hr
    have hn' : ((before ++ r :: after).filterMap fun r => pinOf r s).Nodup := hl ▸ hn
    refine ⟨hfunc before r after p hl hp fun q hq => role_unique hn' hp hq, fun ho => ?_⟩
    exact latchOf_broughtUp_output b hn hr hp ho
  · change t.trace = _
    rw [b.trace, map_fn_claimsOf]
  · change setStatus .ok { flushBatch t with session := .active } = _
    rw [b.fields]; rfl

end Sys2Proof.Machine
end

section
/-! `QUIT`, `SWD_INIT` and `EXEC_JTAG` (spec/45_session.md R176, R179, R180) with the pins reached directly. -/

namespace Sys2Proof.Machine

theorem exec_quit_inactive {s : State} (h : s.session = .inactive) : exec .quit s = .next (setStatus .ok s) := by
  simp [exec, execQuit, h]

theorem exec_quit_active {s m : State} (hs : s.session = .active) (h : restoreAll (claimedPins s) s = .ok () m) :
    exec .quit s = .next (setStatus .ok { m with resHeld := false, session := .inactive, tmode := .none }) := by
  simp [exec, execQuit, hs, h, returnCode]

/-- Settles O33: the claimed pins are valid, so the teardown restores every one of them. -/
theorem quitRestoresPins : Obligations.QuitRestoresPins := by
  refine ⟨fun s hi hs hd => ?_, fun s hs => exec_quit_inactive hs⟩
  obtain ⟨m, evs, he, hclaimed, hfunc, htrace, -, -, -, hfields⟩ := restoreAll_direct (claimedPins s) hd
  have hlisted : ∀ p, s.isClaimed p = true → p ∈ claimedPins s := fun p hp => mem_claimedPins (hi.claimedValid p hp) hp
  refine ⟨_, exec_quit_active hs he, rfl, rfl, rfl, rfl, fun p => ⟨(hclaimed p).trans ?_, (hfunc p).trans ?_⟩,
    ⟨evs, htrace⟩, ?_⟩
  · by_cases hp : s.isClaimed p = true
    · rw [if_pos (hlisted p hp)]
    · rw [Bool.not_eq_true] at hp
      simp [hp]
  · by_cases hp : s.isClaimed p = true
    · rw [if_pos ⟨hlisted p hp, hp⟩, if_pos hp]
    · rw [if_neg fun h => hp h.2, if_neg hp]
  · rw [hfields]; rfl

theorem exec_swdInit (s : State) : exec .swdInit s = .next { s with status := if enabled .swd s then .ok else .fail } := by
  cases h : enabled .swd s <;> simp [exec, execSwdInit, h, setStatus]

/-- Settles O34. -/
theorem swdInitAnswersCapability : Obligations.SwdInitAnswersCapability := by
  intro s
  constructor
  · intro hs hm
    have he : enabled .swd s = true := by rcases hm with hm | hm <;> simp [enabled, hs, hm, modeAllows]
    rw [exec_swdInit, he, if_pos rfl]
  · intro h
    have he : enabled .swd s = false := by rcases h with h | h | h <;> simp [enabled, h, modeAllows]
    rw [exec_swdInit, he, if_neg Bool.false_ne_true]

/-- Settles O35: the stream is checked before anything of it is run. -/
theorem execJtagChecksStream : Obligations.ExecJtagChecksStream := by
  rintro s n ws ⟨w, hw, hn⟩
  have hall : ws.all isPrimitive = false := by
    refine List.all_eq_false.2 ⟨w, hw, fun h => primitiveInstr_ne_none.2 h hn⟩
  simp only [exec, execExecJtag, hall, Bool.not_false, ↓reduceIte, setStatus]

/-! A stream is the run of its primitives (R180). -/

/-- A primitive completes: a `RESET` in any session, the others where flavour JTAG is enabled and has its pins. -/
def primitiveReady (w : StreamWord) (s : State) : Prop :=
  s.session = .active ∧ s.cfg.impl = .direct ∧ (flavourReady .jtag s ∨ ∃ a b, w = .reset a b)

theorem primitiveReady_of_level {w : StreamWord} {pins : List Nat} {s t : State} (h : LevelActivity pins s t)
    (hw : primitiveReady w s) : primitiveReady w t := by
  obtain ⟨hs, hd, hw⟩ := hw
  exact ⟨h.session.trans hs, by rw [h.cfg]; exact hd,
    hw.imp_left (flavourReady_congr h.session h.tmode h.cfg h.pincfg)⟩

theorem jtagPins {s : State} (h : flavourReady .jtag s) :
    ∃ c m d o, pinOf .tck s = some c ∧ pinOf .tms s = some m ∧ pinOf .tdi s = some d ∧ pinOf .tdo s = some o := by
  have pin : ∀ r ∈ flavourRoles .jtag, ∃ p, pinOf r s = some p := fun r hr => Option.ne_none_iff_exists'.1 (h.2 r hr)
  obtain ⟨c, hc⟩ := pin .tck (by decide)
  obtain ⟨m, hm⟩ := pin .tms (by decide)
  obtain ⟨d, hd⟩ := pin .tdi (by decide)
  obtain ⟨o, ho⟩ := pin .tdo (by decide)
  exact ⟨c, m, d, o, hc, hm, hd, ho⟩

/-- The operation a word stands for runs as the word does, and its events show the bit it returns. -/
theorem runPrimitive_runs {w : StreamWord} {s : State} (hw : primitiveReady w s) (hn : primitiveInstr w ≠ none) :
    ∃ t evs, runPrimitive w s = .ok (jtagSamples evs) t ∧ execAll ([w].filterMap primitiveInstr) s = .next t ∧
      t.trace = s.trace ++ evs := by
  obtain ⟨hs, hd, hready⟩ := hw
  have one : ∀ {i : Instr} {t : State}, exec i s = .next t → execAll [i] s = .next t := fun h => by simp [execAll, h]
  cases w with
  | drive tck tms tdi =>
    have hf : flavourReady .jtag s := hready.resolve_right (by simp)
    obtain ⟨c, m, d, o, hc, hm, hi, -⟩ := jtagPins hf
    have hl : driveLevels .jtag tck tms tdi s = .ok [(c, tck), (m, tms), (d, tdi)] s := by
      simp [driveLevels, hc, hm, hi, needPin]
    have hexec := exec_drive_direct hf.1 hd hl
    refine ⟨_, [.lv .jtag tck (some tms) tdi], ?_, one hexec, by rw [afterDrive_fields]; rfl⟩
    have hdrive := finish_eq_next.1 hexec
    simp only [runPrimitive, hdrive, andThen_ok]
    rfl
  | read =>
    have hf : flavourReady .jtag s := hready.resolve_right (by simp)
    obtain ⟨c, m, d, o, -, -, -, ho⟩ := jtagPins hf
    have hp : pinOf (sampledRole .jtag) s = some o := ho
    refine ⟨afterRead .jtag o s, [.smp .jtag (lineLevel o s).1], ?_, one (exec_read_direct hf.1 hd hp), ?_⟩
    · simp only [runPrimitive, readLine_direct hf.1 hd hp, andThen_ok]
      rfl
    · unfold afterRead; rw [lineLevel_state]; rfl
  | reset a b =>
    refine ⟨afterReset a b s, [.rst a b], ?_, one ?_, by simp [afterReset]⟩
    · simp only [runPrimitive, driveReset_direct a b hs hd, andThen_ok]
      rfl
    · simp only [exec, execReset, driveReset_direct a b hs hd, finish_ok]
  | other w => exact absurd rfl hn

theorem execAll_append (a b : List Instr) {s t : State} (h : execAll a s = .next t) :
    execAll (a ++ b) s = execAll b t := by
  rw [← finish_asPart (execAll (a ++ b) s), ← finish_asPart (execAll b t)]
  exact congrArg finish (by rw [← runAll, runAll_append, runAll_eq_ok.2 h]; rfl)

theorem runStream_runs {ws : List StreamWord} {s : State} (hready : ∀ w ∈ ws, primitiveReady w s)
    (hn : ∀ w ∈ ws, primitiveInstr w ≠ none) :
    ∃ t evs, runStream ws s = .ok (jtagSamples evs) t ∧ execAll (ws.filterMap primitiveInstr) s = .next t ∧
      t.trace = s.trace ++ evs := by
  induction ws generalizing s with
  | nil => exact ⟨s, [], rfl, rfl, by simp⟩
  | cons w ws ih =>
    obtain ⟨m, evs, hrun, hexec, htrace⟩ := runPrimitive_runs (hready w (by simp)) (hn w (by simp))
    have ha := levelActivity_runPrimitive hrun
    obtain ⟨t, evs', hrun', hexec', htrace'⟩ := ih (s := m)
      (fun w hw => primitiveReady_of_level ha (hready w (by simp [hw]))) fun w hw => hn w (by simp [hw])
    refine ⟨t, evs ++ evs', ?_, ?_, by rw [htrace', htrace, List.append_assoc]⟩
    · simp only [runStream, hrun, hrun', andThen_ok, jtagSamples, List.filterMap_append]
    · rw [show w :: ws = [w] ++ ws from rfl, List.filterMap_append, execAll_append _ _ hexec, hexec']

/-- In a session whose mode has JTAG its roles have pins. -/
theorem flavourReady_jtag {s : State} (hi : SessionInv s) (hs : s.session = .active)
    (hm : modeAllows .jtag s.tmode = true) : flavourReady .jtag s :=
  ⟨by simp [enabled, hs, hm], fun r hr => by
    obtain ⟨p, hp, -⟩ := hi.jtagClaimed hm r hr
    simp [hp]⟩

/-- Settles O36. -/
theorem execJtagRunsPrimitives : Obligations.ExecJtagRunsPrimitives := by
  intro s n ws hi hs hd hn hmode
  have hready : ∀ w ∈ ws, primitiveReady w s := fun w hw =>
    ⟨hs, hd, hmode.imp (flavourReady_jtag hi hs) fun h => h w hw⟩
  obtain ⟨u, evs, hrun, hexec, htrace⟩ := runStream_runs hready hn
  have ha := levelActivity_runStream hrun
  have hsrc : u.coprocSrc = s.coprocSrc := (uniform_runStream ws).coprocSrc_direct hd hrun
  refine ⟨_, u, evs, ?_, hexec, htrace, rfl, ?_, fun p hp => ha.latchElsewhere p ?_⟩
  · rw [exec_execJtag_active hs hn, hrun]; rfl
  · conv_lhs => rw [ha.fields]
    rw [hsrc]
  · simp only [drivenPins, resetPins, List.mem_append, Option.mem_toList]
    rintro (((h | h) | h) | h | h) <;> exact hp _ (by simp) h

end Sys2Proof.Machine
end

section
/-! What only sends on the SWD wire (spec/43_swd_engine.md R145; spec/44_sequences.md; spec/30_encoding.md R66 to R70), in a
session of SWD capability with the pins reached directly. -/

namespace Sys2Proof.Machine

/-! Each of these operations sends one list of bits. -/

theorem swdOut_append (a b : List Bool) (s : State) :
    swdOut (a ++ b) s = (swdOut a s).andThen fun _ t => swdOut b t := by
  simp only [swdOut_eq_runAll, driveInstrs_append, runAll_append]

theorem sendData_eq_swdOut (v : Word) (p : Bool) (s : State) : sendData v p s = swdOut (wireBits v ++ [p]) s := by
  rw [sendData_eq_runAll, swdOut_eq_runAll]

/-- R66, R68: the request byte in wire order. -/
theorem wireBits_requestByte (p a3 a2 rnw ap : Bool) :
    wireBits (requestByte p a3 a2 rnw ap) = [true, ap, rnw, a2, a3, p, false, true] := by
  revert p a3 a2 rnw ap
  decide

section Decided

variable {s : State} (hdec : s.cfg.toDecided = Decided.spec)
include hdec

theorem lineReset_eq_swdOut : lineReset s = swdOut (List.replicate 56 true) s := by
  rw [lineReset, show s.cfg.lineResetLen = 56 by rw [hdec]; rfl]

theorem swdToJtag_eq_swdOut : swdToJtag s = swdOut (wireBits 0xE73C#16) s := by
  rw [swdToJtag, show s.cfg.seqSwdToJtag = 0xE73C#16 by rw [hdec]; rfl]

theorem jtagToSwd_eq_swdOut : jtagToSwd s = swdOut (wireBits 0xE79E#16 ++ List.replicate 8 false) s := by
  rw [jtagToSwd, swdOut_append, show s.cfg.seqJtagToSwd = 0xE79E#16 by rw [hdec]; rfl]
  cases h : swdOut (wireBits 0xE79E#16) s with
  | ok _ t =>
    have hcfg : t.cfg = s.cfg := (onWire_frameInputs.swdOut _ _ _ _ h).1
    simp only [andThen_ok, idle, show t.cfg.switchIdle = 8 by rw [hcfg, hdec]; rfl]
  | stuck g => rfl
  | refused e => rfl

/-- The rows the core sends, alone, send their bits. -/
theorem exec_row_sends {i : Instr} (hi : i.level = .format) (hb : sentBits i ≠ [])
    (hdata : ∀ v p, i = .swdData v p → s.swdioDir = .out) : exec i s = finish (swdOut (sentBits i) s) := by
  have request : ∀ p a3 a2 rnw ap, finish (sendRequest (requestByte p a3 a2 rnw ap) s) =
      finish (swdOut [true, ap, rnw, a2, a3, p, false, true] s) := fun p a3 a2 rnw ap => by
    rw [sendRequest, wireBits_requestByte]
  cases i with
  | swdRequestDpWrite p a3 a2 | swdRequestDpRead p a3 a2 | swdRequestApWrite p a3 a2 | swdRequestApRead p a3 a2 =>
    exact request ..
  | swdData v p => simp only [exec, execSwdData, hdata v p rfl, sendData_eq_swdOut, sentBits]
  | seqLineReset => exact congrArg finish (lineReset_eq_swdOut hdec)
  | seqJtagToSwd => exact congrArg finish (jtagToSwd_eq_swdOut hdec)
  | seqSwdToJtag => exact congrArg finish (swdToJtag_eq_swdOut hdec)
  | swdAckOk | swdAckWait | swdAckFault | swdAckUndecodable _ => exact absurd rfl hb
  | statusOk | statusFail | statusWait | statusNotSupported => exact absurd rfl hb
  | _ => cases hi

/-- `SWITCH_SEQ` sends its bits and answers OK. -/
theorem exec_switch_sends (he : enabled .swd s = true) {i : Instr}
    (hi : i ∈ [Instr.switchLineReset, .switchJtagToSwd, .switchSwdToJtag]) :
    exec i s = finish ((swdOut (sentBits i) s).andThen fun _ t => returnCode .ok t) := by
  have sequence : ∀ {seq : State → Res Unit} {bs : List Bool}, seq s = swdOut bs s →
      switchSequence seq s = finish ((swdOut bs s).andThen fun _ t => returnCode .ok t) := fun h => by
    simp [switchSequence, he, h]
  simp only [List.mem_cons, List.not_mem_nil, or_false] at hi
  rcases hi with rfl | rfl | rfl
  · exact sequence (lineReset_eq_swdOut hdec)
  · exact sequence (jtagToSwd_eq_swdOut hdec)
  · exact sequence (swdToJtag_eq_swdOut hdec)

/-- `RUN_QUEUE` sends eight zeros, then reads the latched code out and clears it. -/
theorem exec_runQueue_sends (he : enabled .swd s = true) : exec .runQueue s =
    finish ((swdOut (sentBits .runQueue) s).andThen fun _ t => returnCode (codeOfQ t.qcode) (flushBatch t)) := by
  have hlen : s.cfg.flushIdle = 8 := by rw [hdec]; rfl
  simp only [exec, execRunQueue, he, idle, hlen, sentBits]
  rfl

end Decided

/-! What sending changes, and what it leaves alone. -/

/-- In a session of SWD capability the primitives run, and SWDIO is a claimed output. -/
theorem SwdSession.ready {s : State} (h : SwdSession s) : ∃ c d, SwdReady c d s ∧ s.isClaimed d = true ∧
    s.funcOf d = .output ∧ s.swdioDir = .out := by
  have hm : modeAllows .swd s.tmode = true := (Bool.and_eq_true _ _ ▸ h.enabled).2
  obtain ⟨c, hc, -⟩ := h.inv.swdClaimed hm .swclk (by simp)
  obtain ⟨d, hd, hclaim⟩ := h.inv.swdClaimed hm .swdio (by simp)
  obtain ⟨hdir, hfunc⟩ := h.inv.swdioOut hm
  exact ⟨c, d, ⟨h.enabled, hc, hd, h.direct, h.inv.decided⟩, hclaim, hfunc d hd, hdir⟩

/-- Activity on the wire that ends with SWDIO as it began is within the frame of the SWD operations. -/
theorem wireFrame_of_turn {c d : Nat} {s t : State} (hr : SwdReady c d s) (ha : TurnActivity [c, d] d s t)
    (hfunc : t.funcOf d = s.funcOf d) (hdir : t.swdioDir = s.swdioDir) (hsrc : t.coprocSrc = s.coprocSrc) :
    WireFrame s t where
  fields := by
    have hfields := ha.fields
    rw [hdir, hsrc] at hfields
    rw [hfields]
  latchElsewhere := fun p hc hd => ha.latchElsewhere p fun hp => by
    rcases List.mem_cons.1 hp with rfl | hp
    · exact hc hr.clk
    · exact hd (by rw [hr.dio, List.mem_singleton.1 hp])
  funcSame := fun p => by
    by_cases hp : p = d
    · rw [hp, hfunc]
    · exact ha.funcElsewhere p hp

/-- Sending bits: what it shows on the wire, and its frame. -/
structure Sent (bs : List Bool) (s t : State) : Prop where
  trace : t.trace = s.trace ++ outEvents bs
  status : t.status = s.status
  qcode : t.qcode = s.qcode
  batchOpen : t.batchOpen = s.batchOpen
  rdata : t.rdata = s.rdata
  rpar : t.rpar = s.rpar
  rout : t.rout = s.rout
  lineSrc : t.lineSrc = s.lineSrc
  frame : WireFrame s t

theorem swdOut_sends {s : State} (h : SwdSession s) (bs : List Bool) : ∃ t, swdOut bs s = .ok () t ∧ Sent bs s t := by
  obtain ⟨c, d, hr, -, -, -⟩ := h.ready
  obtain ⟨t, he, ha, htrace, hline, hrout, -⟩ := swdOut_runs hr bs
  refine ⟨t, he, htrace, by rw [ha.fields], ha.qcode, ha.batchOpen, by rw [ha.fields], by rw [ha.fields], hrout, hline, ?_⟩
  exact wireFrame_of_turn hr (ha.turn d) (by simp [State.funcOf, ha.func]) ha.swdioDir
    ((uniform_swdOut bs).coprocSrc_direct h.direct he)

/-- After the last bit SWCLK is high and SWDIO at that bit, when they are different pins (spec/41_bitdriver.md R112). -/
theorem latchOf_swdOut {c d : Nat} (hcd : c ≠ d) {s t : State} (hr : SwdReady c d s) {bs : List Bool} (hb : bs ≠ [])
    {u : Unit} (h : swdOut bs s = .ok u t) : t.latchOf c = true ∧ t.latchOf d = bs.getLastD false := by
  induction bs generalizing s with
  | nil => exact absurd rfl hb
  | cons b bs ih =>
    have ha := (levelActivity_afterDriveSwd c d false b s).trans (levelActivity_afterDriveSwd c d true b _)
    rw [swdOut, cycOut_swd hr, andThen_ok] at h
    cases bs with
    | nil => cases h; exact latchOf_afterDriveSwd hcd true b _
    | cons b' bs => simpa using ih (ha.swdReady hr) (by simp) h

/-- Writing `STATUS`, and flushing, stay within the frame. -/
theorem wireFrame_setStatus {s t : State} (h : WireFrame s t) (c : Code) : WireFrame s (setStatus c t) :=
  ⟨by conv_lhs => rw [h.fields]
      rfl, h.latchElsewhere, h.funcSame⟩

theorem wireFrame_flushBatch {s t : State} (h : WireFrame s t) : WireFrame s (flushBatch t) :=
  ⟨by conv_lhs => rw [h.fields]
      rfl, h.latchElsewhere, h.funcSame⟩

/-- Settles O46. -/
theorem runQueueFlushes : Obligations.RunQueueFlushes := by
  intro s h
  obtain ⟨t, he, ht⟩ := swdOut_sends h (sentBits .runQueue)
  refine ⟨setStatus (codeOfQ t.qcode) (flushBatch t), ?_, congrArg codeOfQ ht.qcode, rfl, rfl, rfl, ht.rdata, ht.rpar, ht.rout,
    ht.lineSrc, ht.trace, wireFrame_setStatus (wireFrame_flushBatch ht.frame) _⟩
  rw [exec_runQueue_sends h.inv.decided h.enabled, he]
  rfl

/-- Settles O49. -/
theorem switchSequencesOnWire : Obligations.SwitchSequencesOnWire := by
  intro s h e hi
  have hbits : e.1 ∈ [Instr.switchLineReset, .switchJtagToSwd, .switchSwdToJtag] ∧ sentBits e.1 = e.2 ∧ e.2 ≠ [] := by
    simp only [List.mem_cons, List.not_mem_nil, or_false] at hi
    rcases hi with rfl | rfl | rfl <;> decide
  obtain ⟨hswitch, hsent, hne⟩ := hbits
  obtain ⟨t, he, ht⟩ := swdOut_sends h e.2
  refine ⟨setStatus .ok t, ?_, ht.trace, rfl, ht.qcode, ht.batchOpen, ht.rdata, ht.rpar, ht.rout, ht.lineSrc,
    wireFrame_setStatus ht.frame _, fun c d hc hd hcd => ?_⟩
  · rw [exec_switch_sends h.inv.decided h.enabled hswitch, hsent, he]
    rfl
  · change t.latchOf c = true ∧ t.latchOf d = _
    exact latchOf_swdOut hcd ⟨h.enabled, hc, hd, h.direct, h.inv.decided⟩ hne he

/-- Settles O51. -/
theorem sentRowsOnWire : Obligations.SentRowsOnWire := by
  intro s p a3 a2 h e hi
  have hbits : e.1.level = .format ∧ sentBits e.1 = e.2 ∧ e.2 ≠ [] ∧ ∀ v p, e.1 ≠ .swdData v p := by
    simp only [List.mem_cons, List.not_mem_nil, or_false] at hi
    rcases hi with rfl | rfl | rfl | rfl | rfl | rfl | rfl <;> refine ⟨rfl, rfl, by simp [wireBits], by simp⟩
  obtain ⟨hlevel, hsent, hne, hdata⟩ := hbits
  obtain ⟨t, he, ht⟩ := swdOut_sends h e.2
  refine ⟨t, ?_, ht.trace, ht.status, ht.qcode, ht.batchOpen, ht.rdata, ht.rpar, ht.rout, ht.lineSrc, ht.frame⟩
  rw [exec_row_sends h.inv.decided hlevel (hsent ▸ hne) fun v p h => absurd h (hdata v p), hsent, he, finish_ok]

/-- Settles O53. -/
theorem dataRowSendsOrAccepts : Obligations.DataRowSendsOrAccepts := by
  intro s v p
  have received : s.swdioDir = .inp → exec (.swdData v p) s = .next (acceptData v p s) := fun hd => by
    simp only [exec, execSwdData, hd]
  refine ⟨fun h => ?_, fun hd hq hp => ?_, fun hd hq hp => ?_, fun hd hq => ?_⟩
  · obtain ⟨-, -, -, -, -, hdir⟩ := h.ready
    obtain ⟨t, he, ht⟩ := swdOut_sends h (wireBits v ++ [p])
    refine ⟨t, ?_, ht.trace, ht.status, ht.qcode, ht.batchOpen, ht.rdata, ht.rpar, ht.rout, ht.lineSrc, ht.frame⟩
    simp only [exec, execSwdData, hdir, sendData_eq_swdOut, he, finish_ok]
  · rw [received hd, acceptData_good hq hp]
  · rw [received hd, acceptData_bad hq hp]
  · rw [received hd, acceptData, if_pos hq]

/-- The invariant speaks of none of these fields, nor of how the pins are reached. -/
theorem SessionInv.of_fields {s t : State} (h : SessionInv s) (ht : t = { s with
    cfg := { s.cfg with impl := t.cfg.impl }, a8 := t.a8, a32 := t.a32, status := t.status, rdata := t.rdata, rpar := t.rpar
    rout := t.rout, qcode := t.qcode, batchOpen := t.batchOpen, coeff := t.coeff, offset := t.offset, delay := t.delay
    trace := t.trace, waited := t.waited, jtagOut := t.jtagOut, pending := t.pending, lineSrc := t.lineSrc
    acquireSrc := t.acquireSrc, coprocSrc := t.coprocSrc, levelDraws := t.levelDraws }) : SessionInv t := by
  rw [ht]
  exact ⟨h.1, h.2, h.3, h.4, h.5, h.6, h.7, h.8, h.9, h.10, h.11, h.12, h.13⟩

/-! The sticky error (spec/43_swd_engine.md R147). -/

/-- However many register operations follow a fault, each is skipped. -/
theorem execAll_faulted {ops : List Instr} {s : State} (he : enabled .swd s = true) (hq : s.qcode ≠ .ok) (hne : ops ≠ [])
    (hops : ∀ i ∈ ops, isRegisterOp i = true) :
    execAll ops s = .next { s with batchOpen := true, status := codeOfQ s.qcode } := by
  induction ops generalizing s with
  | nil => exact absurd rfl hne
  | cons i ops ih =>
    simp only [execAll, exec_registerOp_faulted he (hops i (by simp)) hq]
    cases ops with
    | nil => rfl
    | cons j ops =>
      exact ih (s := { s with batchOpen := true, status := codeOfQ s.qcode }) he hq (by simp)
        fun k hk => hops k (List.mem_cons_of_mem _ hk)

/-- Settles O47. -/
theorem stickyErrorBatch : Obligations.StickyErrorBatch := by
  intro s ops h hq hne hops
  have hbatch := execAll_faulted h.enabled hq hne hops
  have hsession : SwdSession { s with batchOpen := true, status := codeOfQ s.qcode } :=
    ⟨h.inv.of_fields rfl, h.enabled, h.direct⟩
  obtain ⟨u, hexec, hstatus, hqcode, -, hengine, -⟩ := runQueueFlushes _ hsession
  exact ⟨hbatch, u, by rw [execAll_append _ _ hbatch, execAll, hexec]; rfl, hstatus, hqcode, hengine⟩

end Sys2Proof.Machine
end

section
/-! The register operations (spec/43_swd_engine.md R134 to R144) in a session of SWD capability with the pins reached
directly: one statement for every sequence of draws and each kind of frame, then the statements for given draws. -/

namespace Sys2Proof.Machine

/-! The draws of a frame, when they are given (spec/20_memory.md R46). -/

section Draws

variable {src : Source} {rest : List Bool}

theorem drawn_of_given {bs : List Bool} (h : src.given = bs ++ rest) :
    drawn bs.length src = bs ∧ leftAfter bs.length src = ⟨rest, src.used⟩ := by
  obtain ⟨given, used⟩ := src
  subst h
  exact drawn_given bs rest used

theorem drawnAck_of_given {x a0 a1 a2 : Bool} (h : src.given = [x, a0, a1, a2] ++ rest) :
    drawnAck src = valueOfBits 3 [a0, a1, a2] := by
  obtain ⟨-, hleft⟩ := drawn_of_given (bs := [x]) h
  obtain ⟨hack, -⟩ := drawn_of_given (src := ⟨[a0, a1, a2] ++ rest, src.used⟩) (bs := [a0, a1, a2]) rfl
  exact congrArg (valueOfBits 3) ((congrArg (drawn 3) hleft).trans hack)

/-- The value and the parity bit that come after the ACK. -/
theorem drawnData_of_given {x a0 a1 a2 p : Bool} {v : Word}
    (h : src.given = [x, a0, a1, a2] ++ wireBits v ++ [p] ++ rest) : drawnData src = v ∧ drawnParity src = p := by
  rw [List.append_assoc, List.append_assoc] at h
  obtain ⟨-, h4⟩ := drawn_of_given (bs := [x, a0, a1, a2]) h
  obtain ⟨hbits, h32⟩ := drawn_of_given (src := ⟨wireBits v ++ ([p] ++ rest), src.used⟩) (bs := wireBits v) rfl
  rw [length_wireBits] at hbits h32
  have h36 : leftAfter 36 src = ⟨[p] ++ rest, src.used⟩ :=
    (leftAfter_add 4 32 src).trans ((congrArg (leftAfter 32) h4).trans h32)
  constructor
  · exact (congrArg (valueOfBits 32) ((congrArg (drawn 32) h4).trans hbits)).trans (valueOfBits_wireBits v)
  · rw [drawnParity, h36]; rfl

end Draws

/-- The state in which a register operation starts its frame (R130). -/
def openBatch (s : State) : State := { s with batchOpen := true }

/-! What holds after every register operation that is not skipped. -/

/-- A register operation that was not skipped: the batch is open, the status mirrors `QCODE`, SWDIO is an output again, and
nothing but the wire, the draws and the engine changed. -/
structure RegisterDone (s t : State) : Prop where
  batchOpen : t.batchOpen = true
  status : t.status = codeOfQ t.qcode
  swdioDir : t.swdioDir = .out
  frame : WireFrame s t

/-- The status is written after a frame that turned SWDIO back to output. -/
theorem registerDone_of_frame {c d : Nat} {s m t : State} (hr : SwdReady c d s) (hfunc : s.funcOf d = .output)
    (hdir : s.swdioDir = .out) (ha : TurnActivity [c, d] d (openBatch s) m)
    (hm : t = { m with qcode := t.qcode, rdata := t.rdata, rpar := t.rpar }) (hf : t.funcOf d = .output)
    (hd : t.swdioDir = .out) (hsrc : t.coprocSrc = s.coprocSrc) :
    RegisterDone s (setStatus (codeOfQ t.qcode) t) := by
  have hmsrc : m.coprocSrc = s.coprocSrc := by rw [← hsrc, hm]
  have hmdir : m.swdioDir = s.swdioDir := by rw [hdir, ← hd, hm]
  have hmfunc : m.funcOf d = s.funcOf d := by rw [hfunc, ← hf, hm]; rfl
  have hframe : WireFrame (openBatch s) m :=
    wireFrame_of_turn ⟨hr.enabled, hr.clk, hr.dio, hr.direct, hr.decided⟩ ha hmfunc hmdir hmsrc
  refine ⟨?_, rfl, hd, ?_, fun p hc hd => ?_, fun p => ?_⟩
  · change t.batchOpen = true
    rw [hm, ha.fields]
    rfl
  · have hfields := hm
    rw [hframe.fields] at hfields
    rw [hfields]
    rfl
  · rw [hm]; exact hframe.latchElsewhere p hc hd
  · rw [hm]; exact hframe.funcSame p

theorem registerOperation_runs {frame : State → Res Unit} {s t : State} (hq : s.qcode = .ok)
    (h : frame (openBatch s) = .ok () t) :
    registerOperation frame s = .ok () (setStatus (codeOfQ t.qcode) t) := by
  change (if s.qcode = .ok then (frame (openBatch s)).andThen fun _ s => returnQCode s else _) = _
  rw [if_pos hq, h]
  rfl

theorem acceptData_of_fresh {v : Word} {p : Bool} {s : State} (hq : s.qcode = .ok) :
    acceptData v p s = if p = parityOdd v then { s with rdata := v, rpar := p } else { s with qcode := .fail } := by
  split
  · next hp => exact acceptData_good hq hp
  · next hp => exact acceptData_bad hq hp

/-- The bits a frame sends after its data, from the request byte (R144). -/
theorem settleBits_header {cmd : Byte} {s : State} (hq : s.qcode = .ok) :
    settleBits (header cmd) s = if cmd.getLsbD 1 then List.replicate s.apDelay false else [] := by
  simp only [settleBits, getLsbD_header_one, hq, decide_true, Bool.and_true]

theorem settleBits_acceptData {cmd : Byte} {v : Word} {p : Bool} {s : State} (hq : s.qcode = .ok) :
    settleBits (header cmd) (acceptData v p s) =
      if p = parityOdd v ∧ cmd.getLsbD 1 then List.replicate s.apDelay false else [] := by
  by_cases hp : p = parityOdd v
  · rw [acceptData_good hq hp, settleBits_header (by exact hq)]; simp [hp]
  · rw [acceptData_bad hq hp]; simp [settleBits, hp]

section Runs

variable {s : State} {d : Nat} (h : SwdSession s) (hq : s.qcode = .ok) (hd : pinOf .swdio s = some d) (cmd : Byte)
include h hd

/-- A session's pin of SWDIO, seen after the batch is opened. -/
theorem ready_open : ∃ c, SwdReady c d s ∧ SwdReady c d (openBatch s) ∧ s.isClaimed d = true ∧
    s.funcOf d = .output ∧ s.swdioDir = .out := by
  obtain ⟨c, d', hr, hclaim, hfunc, hdir⟩ := h.ready
  obtain rfl : d' = d := Option.some.inj (hr.dio.symm.trans hd)
  exact ⟨c, hr, ⟨hr.enabled, hr.clk, hr.dio, hr.direct, hr.decided⟩, hclaim, hfunc, hdir⟩

include hq

/-- A write (R134 to R136, R138, R144). -/
theorem writeReg_runs (v : Word) (hc : cmd.getLsbD 2 = false) :
    ∃ t, exec (.writeReg cmd v) s = .next t ∧ RegisterDone s t ∧
      t.qcode = codeOfAck (decodeAck Decided.spec (drawnAck s.lineSrc)) ∧ t.rdata = s.rdata ∧ t.rpar = s.rpar ∧
      t.lineSrc = leftAfter 5 s.lineSrc ∧
      t.trace = s.trace ++ (outEvents (wireBits (header cmd)) ++ toInput d ++ inEvents (drawn 5 s.lineSrc) ++ toOutput d ++
        if decodeAck Decided.spec (drawnAck s.lineSrc) = .ok then
          outEvents (wireBits v ++ [parityOdd v] ++ if cmd.getLsbD 1 then List.replicate s.apDelay false else [])
        else []) := by
  obtain ⟨c, hr, hr', hclaim, hfunc, hdir⟩ := ready_open h hd
  obtain ⟨m, t, he, ha, ht, hf, hout, hline, htrace⟩ := writeFrame_runs hr' hclaim (header cmd) v
  have hmq : m.qcode = .ok := ha.qcode.trans hq
  have hmdec : m.cfg.toDecided = Decided.spec := by rw [ha.cfg]; exact hr.decided
  have hqt : t.qcode = codeOfAck (decodeAck Decided.spec (drawnAck s.lineSrc)) := by
    rw [ht, applyAck_fresh hmdec hmq]
    rfl
  rw [settleBits_header (s := openBatch s) hq] at htrace
  refine ⟨setStatus (codeOfQ t.qcode) t, ?_, registerDone_of_frame hr hfunc hdir ha ?_ hf hout
    ((uniform_writeFrame _ v).coprocSrc_direct (s := openBatch s) h.direct he), hqt, ?_, ?_, hline, htrace⟩
  · simp only [exec, execWriteReg, h.enabled, hc, registerOperation_runs hq he]
    rfl
  · rw [ht, applyAck_fresh hmdec hmq]
  · change t.rdata = _
    rw [ht, applyAck_rdata, ha.rdata]
    rfl
  · change t.rpar = _
    rw [ht, applyAck_rpar, ha.rpar]
    rfl

/-- A read whose ACK is not OK (R134, R136, R141). -/
theorem readReg_bad_runs (hc : cmd.getLsbD 2 = true) (hk : decodeAck Decided.spec (drawnAck s.lineSrc) ≠ .ok) :
    ∃ t, exec (.readReg cmd) s = .next t ∧ RegisterDone s t ∧
      t.qcode = codeOfAck (decodeAck Decided.spec (drawnAck s.lineSrc)) ∧ t.rdata = s.rdata ∧ t.rpar = s.rpar ∧
      t.lineSrc = leftAfter 5 s.lineSrc ∧
      t.trace = s.trace ++ (outEvents (wireBits (header cmd)) ++ toInput d ++ inEvents (drawn 5 s.lineSrc) ++ toOutput d) := by
  obtain ⟨c, hr, hr', hclaim, hfunc, hdir⟩ := ready_open h hd
  obtain ⟨m, t, he, ha, ht, hf, hout, hline, htrace⟩ := readFrame_bad_runs hr' hclaim (header cmd) hk
  have hmq : m.qcode = .ok := ha.qcode.trans hq
  have hmdec : m.cfg.toDecided = Decided.spec := by rw [ha.cfg]; exact hr.decided
  refine ⟨setStatus (codeOfQ t.qcode) t, ?_, registerDone_of_frame hr hfunc hdir ha ?_ hf hout
    ((uniform_readFrame _).coprocSrc_direct (s := openBatch s) h.direct he), ?_, ?_, ?_, hline, htrace⟩
  · simp only [exec, execReadReg, h.enabled, hc, registerOperation_runs hq he]
    rfl
  · rw [ht, applyAck_fresh hmdec hmq]
  · change t.qcode = _
    rw [ht, applyAck_fresh hmdec hmq]
    rfl
  · change t.rdata = _
    rw [ht, applyAck_rdata, ha.rdata]
    rfl
  · change t.rpar = _
    rw [ht, applyAck_rpar, ha.rpar]
    rfl

/-- A read whose ACK is OK: the value is delivered when the parity drawn is its own (R134, R141 to R144). -/
theorem readReg_ok_runs (hc : cmd.getLsbD 2 = true) (hk : decodeAck Decided.spec (drawnAck s.lineSrc) = .ok) :
    ∃ t, exec (.readReg cmd) s = .next t ∧ RegisterDone s t ∧ t.lineSrc = leftAfter 38 s.lineSrc ∧
      (t.qcode, t.rdata, t.rpar) =
        (if drawnParity s.lineSrc = parityOdd (drawnData s.lineSrc) then
          (.ok, drawnData s.lineSrc, drawnParity s.lineSrc)
        else (.fail, s.rdata, s.rpar)) ∧
      t.trace = s.trace ++ (outEvents (wireBits (header cmd)) ++ toInput d ++ inEvents (drawn 38 s.lineSrc) ++
        toOutput d ++ outEvents (if drawnParity s.lineSrc = parityOdd (drawnData s.lineSrc) ∧ cmd.getLsbD 1 then
          List.replicate s.apDelay false else [])) := by
  obtain ⟨c, hr, hr', hclaim, hfunc, hdir⟩ := ready_open h hd
  obtain ⟨m, t, he, ha, ht, hf, hout, hline, htrace⟩ := readFrame_ok_runs hr' hclaim (header cmd) hk
  have hmq : m.qcode = .ok := ha.qcode.trans hq
  rw [acceptData_of_fresh hmq] at ht
  rw [settleBits_acceptData (s := openBatch s) hq] at htrace
  refine ⟨setStatus (codeOfQ t.qcode) t, ?_, registerDone_of_frame hr hfunc hdir ha ?_ hf hout
    ((uniform_readFrame _).coprocSrc_direct (s := openBatch s) h.direct he), hline, ?_, htrace⟩
  · simp only [exec, execReadReg, h.enabled, hc, registerOperation_runs hq he]
    rfl
  · rw [ht]; split <;> rfl
  · change (t.qcode, t.rdata, t.rpar) = _
    rw [ht]
    split
    · next hp => rw [if_pos (by exact hp), ← hmq]; rfl
    · next hp => rw [if_neg (by exact hp)]; simp only [ha.rdata, ha.rpar]; rfl

end Runs

/-- Settles O39. -/
theorem writeRegTransmits : Obligations.WriteRegTransmits := by
  intro s cmd v d x y rest h hc hq hd hgiven
  have hack : decodeAck Decided.spec (drawnAck s.lineSrc) = .ok := by
    rw [drawnAck_of_given (rest := y :: rest) hgiven]; decide
  obtain ⟨hdrawn, hleft⟩ := drawn_of_given hgiven
  obtain ⟨t, he, hdone, htq, htv, htp, hline, htrace⟩ := writeReg_runs h hq hd cmd v hc
  rw [hack] at htq
  refine ⟨t, he, htq, ?_, hdone.batchOpen, htv, htp, ?_, hline.trans hleft, hdone.frame⟩
  · rw [hdone.status, htq]; rfl
  · rw [htrace, if_pos hack, outEvents_append (wireBits v ++ [parityOdd v]), ← hdrawn]
    simp

/-- What an ACK that is not OK latches. -/
theorem codeOfAck_valueOfBits {a0 a1 a2 : Bool} (h : [a0, a1, a2] ≠ [true, false, false]) :
    decodeAck Decided.spec (valueOfBits 3 [a0, a1, a2]) ≠ .ok ∧
      codeOfAck (decodeAck Decided.spec (valueOfBits 3 [a0, a1, a2])) =
        if [a0, a1, a2] = [false, true, false] then .wait else .fail := by
  revert a0 a1 a2
  decide

/-- Settles O40. -/
theorem badAckLatchesFault : Obligations.BadAckLatchesFault := by
  intro s i cmd d x y a0 a1 a2 rest h hi hform hq hd hbad hgiven
  have hack := drawnAck_of_given (rest := y :: rest) hgiven
  obtain ⟨hk, hcode⟩ := codeOfAck_valueOfBits hbad
  rw [← hack] at hk hcode
  obtain ⟨hdrawn, hleft⟩ := drawn_of_given hgiven
  suffices hruns : ∃ t, exec i s = .next t ∧ RegisterDone s t ∧
      t.qcode = codeOfAck (decodeAck Decided.spec (drawnAck s.lineSrc)) ∧ t.rdata = s.rdata ∧ t.rpar = s.rpar ∧
      t.lineSrc = leftAfter 5 s.lineSrc ∧
      t.trace = s.trace ++
        (outEvents (wireBits (header cmd)) ++ toInput d ++ inEvents (drawn 5 s.lineSrc) ++ toOutput d) by
    obtain ⟨t, he, hdone, htq, htv, htp, hline, htrace⟩ := hruns
    exact ⟨t, he, htq.trans hcode, hdone.status, hdone.batchOpen, htv, htp, by rw [htrace, ← hdrawn]; rfl,
      hline.trans hleft, hdone.frame⟩
  rcases hform with rfl | ⟨v, rfl⟩
  · exact readReg_bad_runs h hq hd cmd (by simpa [isRegisterOp] using hi) hk
  · obtain ⟨t, he, hdone, htq, htv, htp, hline, htrace⟩ :=
      writeReg_runs h hq hd cmd v (by simpa [isRegisterOp] using hi)
    rw [if_neg hk, List.append_nil] at htrace
    exact ⟨t, he, hdone, htq, htv, htp, hline, htrace⟩

/-- A read whose ACK is OK, for the draws of a value and a parity bit. -/
theorem readReg_given {s : State} {cmd : Byte} {v : Word} {d : Nat} {x p y : Bool} {rest : List Bool} (h : SwdSession s)
    (hc : cmd.getLsbD 2 = true) (hq : s.qcode = .ok) (hd : pinOf .swdio s = some d)
    (hgiven : s.lineSrc.given = [x, true, false, false] ++ wireBits v ++ [p, y] ++ rest) :
    ∃ t, exec (.readReg cmd) s = .next t ∧ RegisterDone s t ∧ t.lineSrc = ⟨rest, s.lineSrc.used⟩ ∧
      (t.qcode, t.rdata, t.rpar) = (if p = parityOdd v then (.ok, v, p) else (.fail, s.rdata, s.rpar)) ∧
      t.trace = s.trace ++ (outEvents (wireBits (header cmd)) ++ toInput d ++
        inEvents ([x, true, false, false] ++ wireBits v ++ [p, y]) ++ toOutput d ++
        outEvents (if p = parityOdd v ∧ cmd.getLsbD 1 then List.replicate s.apDelay false else [])) := by
  have hack : decodeAck Decided.spec (drawnAck s.lineSrc) = .ok := by
    rw [drawnAck_of_given (x := x) (a0 := true) (a1 := false) (a2 := false) (rest := wireBits v ++ [p, y] ++ rest)
      (by simpa using hgiven)]
    decide
  obtain ⟨hv, hp⟩ := drawnData_of_given (x := x) (a0 := true) (a1 := false) (a2 := false) (v := v) (p := p)
    (rest := y :: rest) (by simpa using hgiven)
  obtain ⟨hdrawn, hleft⟩ := drawn_of_given hgiven
  have hlength : ([x, true, false, false] ++ wireBits v ++ [p, y]).length = 38 := by simp [length_wireBits]
  rw [hlength] at hdrawn hleft
  obtain ⟨t, he, hdone, hline, hfields, htrace⟩ := readReg_ok_runs h hq hd cmd hc hack
  rw [hv, hp] at hfields htrace
  rw [hdrawn] at htrace
  exact ⟨t, he, hdone, hline.trans hleft, hfields, htrace⟩

/-- Settles O41. -/
theorem readRegAccepts : Obligations.ReadRegAccepts := by
  intro s cmd v d x y rest h hc hq hd hgiven
  obtain ⟨t, he, hdone, hline, hfields, htrace⟩ := readReg_given h hc hq hd hgiven
  simp only [↓reduceIte, Prod.mk.injEq, true_and] at hfields htrace
  obtain ⟨htq, htv, htp⟩ := hfields
  exact ⟨t, he, htq, by rw [hdone.status, htq]; rfl, hdone.batchOpen, htv, htp, htrace, hline, hdone.frame⟩

/-- Settles O42. -/
theorem readRegRejectsBadParity : Obligations.ReadRegRejectsBadParity := by
  intro s cmd v d x y rest h hc hq hd hgiven
  obtain ⟨t, he, hdone, hline, hfields, htrace⟩ := readReg_given h hc hq hd hgiven
  simp only [Bool.not_eq_eq_eq_not, Bool.eq_not_self, ↓reduceIte, Prod.mk.injEq, false_and] at hfields htrace
  obtain ⟨htq, htv, htp⟩ := hfields
  refine ⟨t, he, htq, by rw [hdone.status, htq]; rfl, hdone.batchOpen, htv, htp, ?_, hline, hdone.frame⟩
  rw [htrace]
  simp [outEvents]

/-- The engine's operations change the frame's fields alone when they are skipped. -/
theorem registerDone_faulted {s : State} (hdir : s.swdioDir = .out) :
    RegisterDone s { s with batchOpen := true, status := codeOfQ s.qcode } :=
  ⟨rfl, rfl, hdir, rfl, fun _ _ _ => rfl, fun _ => rfl⟩

/-- A register operation in a session of SWD capability, the pins reached directly: skipped, or a frame for every ACK. -/
theorem registerOp_done {s : State} {i : Instr} (h : SwdSession s) (hi : isRegisterOp i = true) :
    ∃ t, exec i s = .next t ∧ RegisterDone s t := by
  obtain ⟨c, d, hr, -, -, hdir⟩ := h.ready
  by_cases hq : s.qcode = .ok
  · rcases exec_registerOp h.enabled hi with ⟨cmd, v, rfl, -⟩ | ⟨cmd, rfl, -⟩
    · obtain ⟨t, he, hdone, -⟩ := writeReg_runs h hq hr.dio cmd v (by simpa [isRegisterOp] using hi)
      exact ⟨t, he, hdone⟩
    · by_cases hk : decodeAck Decided.spec (drawnAck s.lineSrc) = .ok
      · obtain ⟨t, he, hdone, -⟩ := readReg_ok_runs h hq hr.dio cmd (by simpa [isRegisterOp] using hi) hk
        exact ⟨t, he, hdone⟩
      · obtain ⟨t, he, hdone, -⟩ := readReg_bad_runs h hq hr.dio cmd (by simpa [isRegisterOp] using hi) hk
        exact ⟨t, he, hdone⟩
  · exact ⟨_, exec_registerOp_faulted h.enabled hi hq, registerDone_faulted hdir⟩

/-- Settles O43. -/
theorem registerOperationsComplete : Obligations.RegisterOperationsComplete := by
  intro s i h hi
  obtain ⟨t, he, hdone⟩ := registerOp_done h hi
  exact ⟨t, he, hdone.batchOpen, hdone.status, hdone.swdioDir, hdone.frame⟩

end Sys2Proof.Machine
end

section
/-! The operations that drive no line, and those that only send. -/

namespace Sys2Proof.Machine

/-! What drives no line. -/

/-- Nothing changed but registers: no line moved, no pin was claimed, no event was added. -/
def RegistersOnly (s t : State) : Prop :=
  t = { s with
    status := t.status, rdata := t.rdata, rpar := t.rpar, rout := t.rout, qcode := t.qcode, batchOpen := t.batchOpen,
    pincfg := t.pincfg, coeff := t.coeff, offset := t.offset, base := t.base, apDelay := t.apDelay, delay := t.delay }

theorem registersOnly_applyAck (a : BitVec 3) (s : State) : RegistersOnly s (applyAck a s) := by
  unfold applyAck latchFault
  split <;> rfl

/-- The fault latch and the mark of an open batch are as they were. -/
def BatchKept (s t : State) : Prop := t.qcode = s.qcode ∧ t.batchOpen = s.batchOpen

/-- Registers alone changed, and not the batch's unless the row is a wire format's. -/
def QuietStep (i : Instr) (s t : State) : Prop := RegistersOnly s t ∧ (i.level ≠ .format → BatchKept s t)

theorem quietStep_of_batch {i : Instr} {s t : State} (h : RegistersOnly s t) (hb : BatchKept s t) : QuietStep i s t :=
  ⟨h, fun _ => hb⟩

theorem quietStep_whenInactive {i : Instr} {k : State → State} (hk : ∀ s, QuietStep i s (k s)) (s : State) :
    QuietStep i s (whenInactive k s) := by
  unfold whenInactive
  split
  · exact quietStep_of_batch rfl ⟨rfl, rfl⟩
  · exact hk s

/-- The operations of the host and the wire formats that send nothing, and drive nothing through other operations, change
registers alone. -/
theorem exec_quietStep {i : Instr} {s t : State} (hlevel : i.level ≠ .internal) (hinit : i ≠ .init)
    (hquit : i ≠ .quit) (hstream : ∀ n ws, i ≠ .execJtag n ws) (hregister : isRegisterOp i = false)
    (hb : sentBits i = []) (h : exec i s = .next t) : QuietStep i s t := by
  have done : ∀ {m : State}, (Host.Outcome.next m : Host.Outcome State Fault Refusal) = .next t → RegistersOnly s m →
      BatchKept s m → QuietStep i s t := by
    intro m e hm hb; cases e; exact quietStep_of_batch hm hb
  have inactive : ∀ {k : State → State}, (Host.Outcome.next (whenInactive k s) : Host.Outcome State Fault Refusal) = .next t →
      (∀ s, QuietStep i s (k s)) → QuietStep i s t := by
    intro k e hk; cases e; exact quietStep_whenInactive hk s
  cases i with
  | cfgPin r x =>
    simp only [exec, execCfgPin] at h
    split at h
    · exact done h rfl ⟨rfl, rfl⟩
    · refine inactive h fun _ => quietStep_of_batch ?_ ?_; exacts [rfl, ⟨rfl, rfl⟩]
  | cfgCoeff c => refine inactive h fun _ => ?_; split <;> exact quietStep_of_batch rfl ⟨rfl, rfl⟩
  | cfgOffset o => refine inactive h fun _ => ?_; exact quietStep_of_batch rfl ⟨rfl, rfl⟩
  | cfgBase a => refine inactive h fun _ => ?_; exact quietStep_of_batch rfl ⟨rfl, rfl⟩
  | cfgApDelay n => exact done h rfl ⟨rfl, rfl⟩
  | init => exact absurd rfl hinit
  | quit => exact absurd rfl hquit
  | setSpeed k => simp only [exec, execSetSpeed] at h; split at h <;> exact done h rfl ⟨rfl, rfl⟩
  | speedToKhz d => simp only [exec, execSpeedToKhz] at h; split at h <;> exact done h rfl ⟨rfl, rfl⟩
  | khzToSpeed k => simp only [exec, execKhzToSpeed] at h; split at h <;> exact done h rfl ⟨rfl, rfl⟩
  | execJtag n ws => exact absurd rfl (hstream n ws)
  | swdInit => rw [exec_swdInit] at h; exact done h rfl ⟨rfl, rfl⟩
  | switchUnsupported _ => exact done h rfl ⟨rfl, rfl⟩
  | readReg cmd =>
    have hc : cmd.getLsbD 2 = false := hregister
    rw [exec, execReadReg] at h
    split at h
    · cases h
    · rw [hc] at h; cases h
  | writeReg cmd v =>
    have hc : cmd.getLsbD 2 = true := by simpa [isRegisterOp] using hregister
    rw [exec, execWriteReg] at h
    split at h <;> cases h
  | swdData v p => simp [sentBits] at hb
  | swdAckOk | swdAckWait | swdAckFault | swdAckUndecodable _ => cases h; exact ⟨registersOnly_applyAck .., fun hl => absurd rfl hl⟩
  | statusOk | statusFail | statusWait | statusNotSupported => exact done h rfl ⟨rfl, rfl⟩
  | switchLineReset | switchJtagToSwd | runQueue => simp [sentBits] at hb
  | switchSwdToJtag | seqSwdToJtag => exact absurd hb (wireBits_ne_nil (by decide) _)
  | swdRequestDpWrite _ _ _ | swdRequestDpRead _ _ _ | swdRequestApWrite _ _ _ | swdRequestApRead _ _ _ => cases hb
  | seqLineReset | seqJtagToSwd => simp [sentBits] at hb
  | drive _ _ _ _ | read _ | reset _ _ | driveDirection _ => exact absurd rfl hlevel
  | validate _ | claimOut _ | claimIn _ | restore _ => exact absurd rfl hlevel

/-- The operations that send bits: the rows the core sends, the sequences, the flush. -/
theorem sends_cases {i : Instr} (hb : sentBits i ≠ []) :
    i.level = .format ∨ i ∈ [Instr.switchLineReset, .switchJtagToSwd, .switchSwdToJtag] ∨ i = .runQueue := by
  cases i <;> simp_all [Instr.level, sentBits]

end Sys2Proof.Machine
end

section
/-! The fault latch: what leaves it alone (spec/43_swd_engine.md R130, R131; spec/60_exceptions.md R196, R197). -/

namespace Sys2Proof.Machine

/-- A fault once latched is still there. -/
def FaultKept (s t : State) : Prop := s.qcode ≠ .ok → t.qcode = s.qcode

theorem respected_faultKept : Respected FaultKept where
  refl := fun _ _ => rfl
  trans := fun _ _ _ h k hq => (k (by rwa [h hq])).trans (h hq)
  answers := fun _ _ _ => rfl
  driven := fun _ _ _ _ _ _ _ _ => by simp
  sampled := fun _ _ _ _ _ => by rw [lineLevel_state]; rfl
  resetDriven := fun _ _ _ _ _ _ => by simp
  level := fun _ _ _ _ => by simp
  claim := fun _ _ _ _ _ => by rw [afterClaim_fields]
  giveUp := fun _ _ _ => by rw [giveUp_fields]
  turn := fun _ _ _ => rfl
  status := fun _ _ _ => rfl
  rout := fun _ _ _ => rfl
  jtagOut := fun _ _ _ => rfl
  batch := fun _ _ => rfl
  latch := fun _ _ hq => by rw [latchFault, if_neg hq]
  accept := fun _ _ _ hq => by rw [acceptData, if_pos hq]
  apDelay := fun _ _ _ => rfl
  pincfg := fun _ _ _ _ => rfl
  coeff := fun _ _ _ _ => rfl
  offset := fun _ _ _ _ => rfl
  base := fun _ _ _ _ => rfl

theorem exec_faultKept {i : Instr} {s t : State} (h : exec i s = .next t) (hr : i ≠ .runQueue) (hi : i ≠ .init) :
    FaultKept s t := by
  have e := respected_faultKept.everywhere
  by_cases hq : i = .quit
  · subst hq; exact e.quit (fun _ _ => rfl) h
  by_cases hs : ∃ k, i = .setSpeed k
  · obtain ⟨k, rfl⟩ := hs
    exact e.setSpeed (fun _ _ _ => rfl) h
  · exact e.exec i hi hq hr (fun k hk => hs ⟨k, hk⟩) h

theorem pinwiseKept_batchKept : PinwiseKept BatchKept where
  refl := fun _ => ⟨rfl, rfl⟩
  trans := fun _ _ _ h k => ⟨k.1.trans h.1, k.2.trans h.2⟩
  answers := fun _ _ => ⟨rfl, rfl⟩
  driven := fun _ _ _ _ _ _ _ => by simp [BatchKept]
  sampled := fun _ _ _ _ => by rw [lineLevel_state]; exact ⟨rfl, rfl⟩
  resetDriven := fun _ _ _ _ _ => by simp [BatchKept]
  level := fun _ _ _ => by simp [BatchKept]
  claim := fun _ _ _ _ => by rw [afterClaim_fields]; exact ⟨rfl, rfl⟩
  giveUp := fun _ _ => by rw [giveUp_fields]; exact ⟨rfl, rfl⟩
  turn := fun _ _ => ⟨rfl, rfl⟩

/-- An operation that only puts a sequence on the wire. -/
theorem batchKept_switchSequence {seq : State → Res Unit} (hseq : Keeps BatchKept seq) {s t : State}
    (h : switchSequence seq s = .next t) : BatchKept s t := by
  unfold switchSequence at h
  split at h
  · cases h
  · obtain ⟨_, m, hm, h⟩ := andThen_eq_ok.1 (finish_eq_next.1 h)
    cases h
    exact (hseq _ _ _ hm : BatchKept s m)

/-- The driver's and the Pin Multiplexer's operations leave the batch alone. -/
theorem exec_internal_batchKept {i : Instr} {s t : State} (hi : i.level = .internal) (h : exec i s = .next t) :
    BatchKept s t := by
  have p := pinwiseKept_batchKept
  cases i with
  | drive f a b c => exact p.drive f a b c _ _ _ (finish_eq_next.1 h)
  | read f =>
    obtain ⟨_, m, hm, h⟩ := andThen_eq_ok.1 (finish_eq_next.1 h)
    cases h
    exact p.readLine f _ _ _ hm
  | reset a b => exact p.driveReset a b _ _ _ (finish_eq_next.1 h)
  | driveDirection o => exact p.driveDirection o _ _ _ (finish_eq_next.1 h)
  | validate x => cases h; exact ⟨rfl, rfl⟩
  | claimOut x => exact p.claimOut _ _ _ _ (finish_eq_next.1 h)
  | claimIn x => exact p.claimIn _ _ _ _ (finish_eq_next.1 h)
  | restore x =>
    simp only [exec, execRestore] at h
    split at h
    · exact p.restorePin _ _ _ _ (finish_eq_next.1 h)
    · exact p.rendezvous _ _ _ (finish_eq_next.1 h)
  | _ => cases hi

theorem exec_batchKept {i : Instr} {s t : State} (h : exec i s = .next t) (hrun : i ≠ .runQueue) (hinit : i ≠ .init)
    (hlevel : i.level ≠ .format) (hwrite : ∀ cmd v, i ≠ .writeReg cmd v) (hread : ∀ cmd, i ≠ .readReg cmd) :
    BatchKept s t := by
  have p := pinwiseKept_batchKept
  by_cases hinternal : i.level = .internal
  · exact exec_internal_batchKept hinternal h
  by_cases hquit : i = .quit
  · subst hquit
    rcases exec_quit_next h with ⟨-, rfl⟩ | ⟨-, m, hm, rfl⟩
    · exact ⟨rfl, rfl⟩
    · exact (p.restoreAll _ _ _ _ hm : BatchKept s m)
  by_cases hstream : ∃ n ws, i = .execJtag n ws
  · obtain ⟨n, ws, rfl⟩ := hstream
    simp only [exec, execExecJtag] at h
    split at h
    · cases h; exact ⟨rfl, rfl⟩
    · split at h
      · cases h
      · obtain ⟨_, m, hm, h⟩ := andThen_eq_ok.1 (finish_eq_next.1 h)
        cases h
        exact (keeps_runStream p.toComposes (p.drive .jtag) (p.readLine .jtag) p.driveReset ws _ _ _ hm : BatchKept s m)
  by_cases hb : sentBits i = []
  · have hregister : isRegisterOp i = false := by
      cases i with
      | writeReg cmd v => exact absurd rfl (hwrite cmd v)
      | readReg cmd => exact absurd rfl (hread cmd)
      | _ => rfl
    exact (exec_quietStep hinternal hinit hquit (fun n ws h => hstream ⟨n, ws, h⟩) hregister hb h).2 hlevel
  · rcases sends_cases hb with hi | hi | hi
    · exact absurd hi hlevel
    · simp only [List.mem_cons, List.not_mem_nil, or_false] at hi
      rcases hi with rfl | rfl | rfl
      · exact batchKept_switchSequence p.onWire.lineReset h
      · exact batchKept_switchSequence p.onWire.jtagToSwd h
      · exact batchKept_switchSequence p.onWire.swdToJtag h
    · exact absurd hi hrun

/-- Settles O48. -/
theorem onlyFlushAndInitClearFault : Obligations.OnlyFlushAndInitClearFault := fun _ _ _ h hr hi =>
  ⟨exec_faultKept h hr hi, exec_batchKept h hr hi⟩

end Sys2Proof.Machine
end

section
/-! The wait after each `DRIVE` (spec/41_bitdriver.md R102) and the history of the wire (spec/10_state.md R30). -/

namespace Sys2Proof.Machine

/-- The history grew, and the driver waited once for each `DRIVE` in what was added. -/
def WaitedPerDrive (s t : State) : Prop :=
  t.delay = s.delay ∧
    ∃ evs, t.trace = s.trace ++ evs ∧ t.waited = s.waited + (evs.filter isDriveEvent).length * s.delay.toNat

theorem waitedPerDrive_of_same {s t : State} (hd : t.delay = s.delay) (ht : t.trace = s.trace) (hw : t.waited = s.waited) :
    WaitedPerDrive s t := ⟨hd, [], by simp [ht], by simp [hw]⟩

/-- One event that is not a `DRIVE`'s, and no wait. -/
theorem waitedPerDrive_of_event {s t : State} {e : Event} (he : isDriveEvent e = false) (hd : t.delay = s.delay)
    (ht : t.trace = s.trace ++ [e]) (hw : t.waited = s.waited) : WaitedPerDrive s t := ⟨hd, [e], ht, by simp [he, hw]⟩

theorem waitedPerDrive_trans (s t u : State) (h : WaitedPerDrive s t) (k : WaitedPerDrive t u) : WaitedPerDrive s u := by
  obtain ⟨hd, as, has, hw⟩ := h
  obtain ⟨kd, bs, hbs, kw⟩ := k
  refine ⟨kd.trans hd, as ++ bs, by rw [hbs, has, List.append_assoc], ?_⟩
  rw [kw, hw, hd, List.filter_append, List.length_append, Nat.add_mul, Nat.add_assoc]

theorem respected_waitedPerDrive : Respected WaitedPerDrive where
  refl := fun _ => waitedPerDrive_of_same rfl rfl rfl
  trans := waitedPerDrive_trans
  answers := fun _ _ => waitedPerDrive_of_same rfl rfl rfl
  driven := fun f clk tms data _ _ _ => ⟨by simp, [.lv f clk tms data], by simp, by simp [List.filter, isDriveEvent]⟩
  sampled := fun f b p s => by
    rw [lineLevel_state]; exact waitedPerDrive_of_event (e := .smp f b) rfl rfl rfl rfl
  resetDriven := fun x y _ _ _ => waitedPerDrive_of_event (e := .rst x y) rfl (by simp) (by simp) (by simp)
  level := fun _ _ _ => waitedPerDrive_of_same (by simp) (by simp) (by simp)
  claim := fun m p s _ => waitedPerDrive_of_event (e := .fn p m) rfl (by simp [afterClaim]) (by simp [afterClaim])
    (by simp [afterClaim])
  giveUp := fun p s => by
    unfold giveUp
    split
    · exact waitedPerDrive_of_event (e := .fn p (s.savedMode p)) rfl rfl rfl rfl
    · exact waitedPerDrive_of_same rfl rfl rfl
  turn := fun d _ => waitedPerDrive_of_event (e := .dir d) rfl rfl rfl rfl
  status := fun _ _ => waitedPerDrive_of_same rfl rfl rfl
  rout := fun _ _ => waitedPerDrive_of_same rfl rfl rfl
  jtagOut := fun _ _ => waitedPerDrive_of_same rfl rfl rfl
  batch := fun _ => waitedPerDrive_of_same rfl rfl rfl
  latch := fun _ _ => waitedPerDrive_of_same (by simp) (by simp) (by simp)
  accept := fun _ _ _ => waitedPerDrive_of_same (by simp) (by simp) (by simp)
  apDelay := fun _ _ => waitedPerDrive_of_same rfl rfl rfl
  pincfg := fun _ _ _ => waitedPerDrive_of_same rfl rfl rfl
  coeff := fun _ _ _ => waitedPerDrive_of_same rfl rfl rfl
  offset := fun _ _ _ => waitedPerDrive_of_same rfl rfl rfl
  base := fun _ _ _ => waitedPerDrive_of_same rfl rfl rfl

/-- Settles O55: `SET_SPEED` alone changes the delay, and it waits for nothing. -/
theorem oneWaitPerDrive : Obligations.OneWaitPerDrive := by
  intro i s t h
  have r := respected_waitedPerDrive
  have e := r.everywhere
  have same : ∀ {s t : State}, t.delay = s.delay → t.trace = s.trace → t.waited = s.waited → WaitedPerDrive s t :=
    waitedPerDrive_of_same
  by_cases hs : ∃ k, i = .setSpeed k
  · obtain ⟨k, rfl⟩ := hs
    simp only [exec, execSetSpeed] at h
    split at h <;> cases h <;> exact ⟨[], by simp, by simp⟩
  suffices hw : WaitedPerDrive s t from hw.2
  by_cases hr : i = .runQueue
  · subst hr; exact e.runQueue (fun _ => same rfl rfl rfl) h
  by_cases hi : i = .init
  · subst hi
    exact e.init (fun _ => same rfl rfl rfl)
      (r.initEffects (fun _ _ => same rfl rfl rfl) (fun _ _ => same rfl rfl rfl) fun _ => same rfl rfl rfl) h
  by_cases hq : i = .quit
  · subst hq; exact e.quit (fun _ => same rfl rfl rfl) h
  · exact e.exec i hi hq hr (fun k hk => hs ⟨k, hk⟩) h

end Sys2Proof.Machine
end

section
/-! SWCLK after whole clock cycles (spec/41_bitdriver.md R112). -/

namespace Sys2Proof.Machine

theorem session_of_enabled {f : Flavour} {s : State} (h : enabled f s = true) : s.session = .active :=
  of_decide_eq_true ((Bool.and_eq_true _ _).mp h).1

/-! What sends bits ends with a whole cycle. -/

/-- An operation that sends bits, taken apart: after them only registers change. -/
theorem exec_sent {i : Instr} {s t : State} (hdec : s.cfg.toDecided = Decided.spec) (he : enabled .swd s = true)
    (hdir : s.swdioDir = .out) (hb : sentBits i ≠ []) (h : exec i s = .next t) :
    ∃ m, swdOut (sentBits i) s = .ok () m ∧ RegistersOnly m t := by
  rcases sends_cases hb with hi | hi | rfl
  · rw [exec_row_sends hdec hi hb fun _ _ _ => hdir] at h
    exact ⟨t, finish_eq_next.1 h, rfl⟩
  · rw [exec_switch_sends hdec he hi] at h
    obtain ⟨_, m, hm, h⟩ := andThen_eq_ok.1 (finish_eq_next.1 h)
    cases h
    exact ⟨m, hm, rfl⟩
  · rw [exec_runQueue_sends hdec he] at h
    obtain ⟨_, m, hm, h⟩ := andThen_eq_ok.1 (finish_eq_next.1 h)
    cases h
    exact ⟨m, hm, rfl⟩

theorem outEvents_ne_nil {bs : List Bool} (h : bs ≠ []) : outEvents bs ≠ [] := by
  cases bs with
  | nil => exact absurd rfl h
  | cons b bs => simp [outEvents]

/-! A register operation's frame: the level of SWCLK follows the events of its `DRIVE`s. -/

/-- The level of SWCLK after some events. -/
def clockAfter (level : Bool) (evs : List Event) : Bool :=
  evs.foldl (fun level e => match e with
    | .lv _ clk _ _ => clk
    | _ => level) level

theorem clockAfter_append (level : Bool) (a b : List Event) :
    clockAfter level (a ++ b) = clockAfter (clockAfter level a) b := List.foldl_append

theorem clockAfter_outEvents {bs : List Bool} (level : Bool) (h : bs ≠ []) : clockAfter level (outEvents bs) = true := by
  induction bs generalizing level with
  | nil => exact absurd rfl h
  | cons b bs ih =>
    cases bs with
    | nil => rfl
    | cons b' bs => exact ih true (by simp)

theorem clockAfter_outEvents_high (bs : List Bool) : clockAfter true (outEvents bs) = true := by
  cases bs with
  | nil => rfl
  | cons b bs => exact clockAfter_outEvents true (by simp)

theorem clockAfter_inEvents_high (bs : List Bool) : clockAfter true (inEvents bs) = true := by
  induction bs with
  | nil => rfl
  | cons b bs ih => exact ih

/-- The latch of SWCLK, at pin `c`, is at the level the events that were added leave it at. -/
def ClockFollows (c d : Nat) (s t : State) : Prop :=
  SwdReady c d s → SwdReady c d t ∧ ∃ evs, t.trace = s.trace ++ evs ∧ t.latchOf c = clockAfter (s.latchOf c) evs

theorem clockFollows_still {c d : Nat} {s t : State} (hcfg : t.cfg = s.cfg) (hpincfg : t.pincfg = s.pincfg)
    (hsession : t.session = s.session) (htmode : t.tmode = s.tmode) (htrace : t.trace = s.trace) (hlatch : t.latch = s.latch) :
    ClockFollows c d s t := fun h =>
  ⟨⟨by rw [← h.enabled, enabled, enabled, hsession, htmode], (pinOf_congr _ hcfg hpincfg).trans h.clk,
    (pinOf_congr _ hcfg hpincfg).trans h.dio, hcfg ▸ h.direct, hcfg ▸ h.decided⟩, [], by simp [htrace],
    by simp [State.latchOf, hlatch, clockAfter]⟩

/-- One event that is no `DRIVE`'s. -/
theorem clockFollows_event {c d : Nat} {s t : State} {e : Event} (hlv : isDriveEvent e = false) (hcfg : t.cfg = s.cfg)
    (hpincfg : t.pincfg = s.pincfg) (hsession : t.session = s.session) (htmode : t.tmode = s.tmode)
    (htrace : t.trace = s.trace ++ [e]) (hlatch : t.latch = s.latch) : ClockFollows c d s t := fun h => by
  obtain ⟨hr, -⟩ := clockFollows_still (t := { t with trace := s.trace }) hcfg hpincfg hsession htmode rfl hlatch h
  refine ⟨⟨hr.enabled, hr.clk, hr.dio, hr.direct, hr.decided⟩, [e], htrace, ?_⟩
  rw [State.latchOf, hlatch]
  cases e with
  | lv f clk tms data => cases hlv
  | _ => rfl

theorem composes_clockFollows (c d : Nat) : Composes (ClockFollows c d) where
  refl := fun _ => clockFollows_still rfl rfl rfl rfl rfl rfl
  trans := fun s t u h k hs => by
    obtain ⟨ht, as, has, hla⟩ := h hs
    obtain ⟨hu, bs, hbs, hlb⟩ := k ht
    exact ⟨hu, as ++ bs, by rw [hbs, has, List.append_assoc], by rw [hlb, hla, clockAfter_append]⟩

theorem onWire_clockFollows {c d : Nat} (hcd : c ≠ d) : OnWire (ClockFollows c d) where
  toComposes := composes_clockFollows c d
  drive := fun clk tms data s _ t e hs => by
    rw [drive_swd hs] at e
    cases e
    exact ⟨(levelActivity_afterDriveSwd c d clk data s).swdReady hs, [.lv .swd clk none data],
      trace_afterDriveSwd c d clk data s, (latchOf_afterDriveSwd hcd clk data s).1⟩
  readLine := fun s b t e hs => by
    obtain ⟨-, p, m, -, hm, -, rfl⟩ := readLine_ok e
    rw [rendezvous_direct hs.direct] at hm
    cases hm
    refine clockFollows_event (e := .smp .swd b) rfl ?_ ?_ ?_ ?_ ?_ ?_ hs <;> rw [lineLevel_state] <;> rfl
  driveDirection := fun o s _ t e hs => by
    rw [driveDirection_direct o hs.enabled hs.direct hs.dio] at e
    cases e
    refine (composes_clockFollows c d).trans s (afterClaim (if o then .output else .input) d s) _ ?_
      (clockFollows_event (e := .dir (if o then .out else .inp)) rfl rfl rfl rfl rfl rfl rfl) hs
    rw [afterClaim_fields]
    exact clockFollows_event (e := .fn d (if o then .output else .input)) rfl rfl rfl rfl rfl rfl rfl

theorem keeps_registerOperation {R : State → State → Prop} (hR : Composes R)
    (hbatch : ∀ s : State, R s { s with batchOpen := true }) (hstatus : ∀ c s, R s (setStatus c s))
    {frame : State → Res Unit} (hframe : Keeps R frame) : Keeps R (registerOperation frame) := fun s _ t h => by
  refine hR.trans _ _ _ (hbatch s) ?_
  simp only [registerOperation] at h
  split at h
  · obtain ⟨_, m, hm, h⟩ := andThen_eq_ok.1 h
    cases h
    exact hR.trans _ _ _ (hframe _ _ _ hm) (hstatus _ m)
  · cases h
    exact hstatus _ _

/-- A register operation leaves SWCLK as the events it adds do. -/
theorem clockFollows_registerOp {c d : Nat} (hcd : c ≠ d) {i : Instr} {s t : State} (he : enabled .swd s = true)
    (hi : isRegisterOp i = true) (h : exec i s = .next t) : ClockFollows c d s t := by
  have w := onWire_clockFollows hcd
  have hlatch : ∀ q u, ClockFollows c d u (latchFault q u) := fun q u =>
    clockFollows_still (by simp) (by simp) (by simp) (by simp) (by simp) (by simp)
  have haccept : ∀ v p u, ClockFollows c d u (acceptData v p u) := fun v p u =>
    clockFollows_still (by simp) (by simp) (by simp) (by simp) (by simp) (by simp)
  have hregs : ∀ {u v : State}, v.cfg = u.cfg → v.pincfg = u.pincfg → v.session = u.session → v.tmode = u.tmode →
      v.trace = u.trace → v.latch = u.latch → ClockFollows c d u v := clockFollows_still
  have whole : ∀ {frame : State → Res Unit}, Keeps (ClockFollows c d) frame →
      finish (registerOperation frame s) = .next t → ClockFollows c d s t := fun {frame} hframe h =>
    keeps_registerOperation w.toComposes (fun _ => hregs rfl rfl rfl rfl rfl rfl) (fun _ _ => hregs rfl rfl rfl rfl rfl rfl)
      hframe _ _ _ (finish_eq_next.1 h)
  rcases exec_registerOp he hi with ⟨cmd, v, -, hexec⟩ | ⟨cmd, -, hexec⟩
  · exact whole (w.writeFrame _ _ hlatch) (hexec ▸ h)
  · exact whole (w.readFrame _ hlatch haccept) (hexec ▸ h)

/-- The events of a frame: the request, a turn, the bits taken, the turn back, the bits sent after it. -/
theorem clockAfter_frame (level : Bool) {request : List Bool} (hne : request ≠ []) (d : Nat) (taken sent : List Bool) :
    clockAfter level (outEvents request ++ toInput d ++ inEvents taken ++ toOutput d ++ outEvents sent) = true := by
  simp only [clockAfter_append, clockAfter_outEvents level hne]
  change clockAfter (clockAfter true (inEvents taken)) (outEvents sent) = true
  rw [clockAfter_inEvents_high, clockAfter_outEvents_high]

/-- The events of a register operation that is not skipped are those of a frame. -/
theorem registerOp_frame {s t : State} {i : Instr} {d : Nat} (h : SwdSession s) (hi : isRegisterOp i = true)
    (hq : s.qcode = .ok) (hd : pinOf .swdio s = some d) (he : exec i s = .next t) :
    ∃ cmd taken sent, t.trace = s.trace ++
      (outEvents (wireBits (header cmd)) ++ toInput d ++ inEvents taken ++ toOutput d ++ outEvents sent) := by
  rcases exec_registerOp h.enabled hi with ⟨cmd, v, rfl, -⟩ | ⟨cmd, rfl, -⟩
  · obtain ⟨t', he', -, -, -, -, -, htrace⟩ := writeReg_runs h hq hd cmd v (by simpa [isRegisterOp] using hi)
    cases he.symm.trans he'
    split at htrace
    · exact ⟨cmd, _, _, htrace⟩
    · exact ⟨cmd, _, [], htrace⟩
  · by_cases hk : decodeAck Decided.spec (drawnAck s.lineSrc) = .ok
    · obtain ⟨t', he', -, -, -, htrace⟩ := readReg_ok_runs h hq hd cmd (by simpa [isRegisterOp] using hi) hk
      cases he.symm.trans he'
      exact ⟨cmd, _, _, htrace⟩
    · obtain ⟨t', he', -, -, -, -, -, htrace⟩ := readReg_bad_runs h hq hd cmd (by simpa [isRegisterOp] using hi) hk
      cases he.symm.trans he'
      exact ⟨cmd, _, [], by simpa [outEvents] using htrace⟩

/-- A session of SWD capability, seen with the pins reached directly. -/
theorem swdSession_reached {s : State} (h : SessionInv s) (he : enabled .swd s = true) (x : Source) :
    SwdSession (reached .direct x s) :=
  ⟨h.of_fields rfl, he, rfl⟩

/-- R112 with the pins reached directly. -/
theorem swclkHigh_direct {i : Instr} {s t : State} {c d : Nat} (h : SwdSession s) (hc : pinOf .swclk s = some c)
    (hd : pinOf .swdio s = some d) (hcd : c ≠ d) (hlevel : i.level ≠ .internal) (hinit : i ≠ .init) (hquit : i ≠ .quit)
    (hstream : ∀ n ws, i ≠ .execJtag n ws) (he : exec i s = .next t) :
    t.latchOf c = if t.trace = s.trace then s.latchOf c else true := by
  have hr : SwdReady c d s := ⟨h.enabled, hc, hd, h.direct, h.inv.decided⟩
  have still : RegistersOnly s t → t.latchOf c = if t.trace = s.trace then s.latchOf c else true := fun hregs => by
    rw [hregs, if_pos rfl]; rfl
  have moved : ∀ {evs : List Event}, t.trace = s.trace ++ evs → evs ≠ [] → t.latchOf c = true →
      t.latchOf c = if t.trace = s.trace then s.latchOf c else true := fun htrace hne hlatch => by
    rw [if_neg (by simpa [htrace] using hne), hlatch]
  by_cases hb : sentBits i = []
  · by_cases hi : isRegisterOp i = true
    · by_cases hq : s.qcode = .ok
      · obtain ⟨cmd, taken, sent, htrace⟩ := registerOp_frame h hi hq hd he
        obtain ⟨-, evs, hevs, hlatch⟩ := clockFollows_registerOp hcd h.enabled hi he hr
        obtain rfl := List.append_cancel_left (hevs.symm.trans htrace)
        refine moved htrace ?_ (hlatch.trans (clockAfter_frame _ (wireBits_ne_nil (by decide) _) ..))
        simp [toInput]
      · rw [exec_registerOp_faulted h.enabled hi hq] at he
        cases he
        exact still rfl
    · exact still ((exec_quietStep hlevel hinit hquit hstream (by simpa using hi) hb he).1)
  · obtain ⟨-, -, -, -, -, hdir⟩ := h.ready
    obtain ⟨m, hm, hregs⟩ := exec_sent h.inv.decided h.enabled hdir hb he
    obtain ⟨m', hm', -, hsent, -⟩ := swdOut_runs hr (sentBits i)
    cases hm.symm.trans hm'
    refine moved (by rw [hregs, hsent]) (outEvents_ne_nil hb) ?_
    rw [hregs]
    exact (latchOf_swdOut hcd hr hb hm).1

/-- Settles O56. -/
theorem swclkHighAfterCycles : Obligations.SwclkHighAfterCycles := by
  intro i s t c d h he hc hd hcd hlevel hinit hquit hstream hexec
  exact swclkHigh_direct (s := reached .direct ⟨[], 0⟩ s) (t := reached .direct ⟨[], 0⟩ t) (swdSession_reached h he _) hc hd
    hcd hlevel hinit hquit hstream (exec_reached_direct hexec _)

end Sys2Proof.Machine
end

section
/-! The invariant between operations (spec/10_state.md R27) is kept by every step. -/

namespace Sys2Proof.Machine

/-! The part of the invariant that every operation keeps: the ranges and the canonical forms. -/

/-- The part of `SessionInv` that speaks of no phase. -/
structure WellFormed (s : State) : Prop where
  decided : s.cfg.toDecided = Decided.spec
  apDelayFits : s.apDelay < 2 ^ s.cfg.apDelayW
  baseFits : s.base < 2 ^ s.cfg.addrW
  claimedWf : tableWf false s.claimed = true
  savedWf : tableWf .input s.saved = true
  funcWf : tableWf .input s.func = true
  latchWf : tableWf false s.latch = true
  funcValid : ∀ p, validMode s.cfg (s.funcOf p)
  savedValid : ∀ p, validMode s.cfg (s.savedMode p)

theorem SessionInv.wellFormed {s : State} (h : SessionInv s) : WellFormed s := by
  obtain ⟨hclaimed, hsaved, hfunc, hlatch⟩ := h.tablesWf
  exact ⟨h.decided, h.apDelayFits, h.baseFits, hclaimed, hsaved, hfunc, hlatch, fun p => (h.modesValid p).1,
    fun p => (h.modesValid p).2⟩

/-- What was well-formed still is. -/
def WellFormedKept (s t : State) : Prop := WellFormed s → WellFormed t

/-- A change of other fields. -/
theorem wellFormedKept_of_same {s t : State} (hcfg : t.cfg = s.cfg) (hap : t.apDelay = s.apDelay) (hbase : t.base = s.base)
    (hclaimed : t.claimed = s.claimed) (hsaved : t.saved = s.saved) (hfunc : t.func = s.func) (hlatch : t.latch = s.latch) :
    WellFormedKept s t := fun h => by
  obtain ⟨h1, h2, h3, h4, h5, h6, h7, h8, h9⟩ := h
  simp only [State.funcOf, State.savedMode, ← hcfg, ← hap, ← hbase, ← hclaimed, ← hsaved, ← hfunc, ← hlatch] at *
  exact ⟨h1, h2, h3, h4, h5, h6, h7, h8, h9⟩

theorem wellFormedKept_applyLevels (a b : List Nat) (s : State) : WellFormedKept s (applyLevels a b s) := fun h => by
  have hlatch := tableWf_applyLevels a b s h.latchWf
  rw [applyLevels_state] at hlatch ⊢
  exact ⟨h.decided, h.apDelayFits, h.baseFits, h.claimedWf, h.savedWf, h.funcWf, hlatch, h.funcValid, h.savedValid⟩

theorem wellFormedKept_afterClaim {m : PinMode} (hm : ∀ c, validMode c m) (p : Nat) (s : State) :
    WellFormedKept s (afterClaim m p s) := fun h => by
  obtain ⟨hclaimed, hsaved, hfunc⟩ := tableWf_afterClaim m p s h.claimedWf h.savedWf h.funcWf
  have hfields := afterClaim_fields m p s
  refine ⟨?_, ?_, ?_, hclaimed, hsaved, hfunc, ?_, fun q => ?_, fun q => ?_⟩
  · rw [hfields]; exact h.decided
  · rw [hfields]; exact h.apDelayFits
  · rw [hfields]; exact h.baseFits
  · rw [hfields]; exact h.latchWf
  · rw [cfg_afterClaim, funcOf_afterClaim]
    split
    · exact hm _
    · exact h.funcValid q
  · rw [cfg_afterClaim, savedMode_afterClaim]
    split
    · exact h.funcValid p
    · exact h.savedValid q

theorem wellFormedKept_giveUp (p : Nat) (s : State) : WellFormedKept s (giveUp p s) := fun h => by
  have hclaimed := (tableWf_giveUp p s).1 h.claimedWf
  have hfunc := (tableWf_giveUp p s).2 h.funcWf
  have hvalid : ∀ q, validMode s.cfg ((giveUp p s).funcOf q) := fun q => by
    rw [funcOf_giveUp]
    split
    · exact h.savedValid p
    · exact h.funcValid q
  have hfields := giveUp_fields p s
  refine ⟨?_, ?_, ?_, hclaimed, ?_, hfunc, ?_, fun q => ?_, fun q => ?_⟩
  · rw [hfields]; exact h.decided
  · rw [hfields]; exact h.apDelayFits
  · rw [hfields]; exact h.baseFits
  · rw [hfields]; exact h.savedWf
  · rw [hfields]; exact h.latchWf
  · rw [show (giveUp p s).cfg = s.cfg by rw [hfields]]; exact hvalid q
  · rw [savedMode_giveUp, show (giveUp p s).cfg = s.cfg by rw [hfields]]; exact h.savedValid q

theorem respected_wellFormedKept : Respected WellFormedKept where
  refl := fun _ => id
  trans := fun _ _ _ h k hw => k (h hw)
  answers := fun _ _ => wellFormedKept_of_same rfl rfl rfl rfl rfl rfl rfl
  driven := fun _ _ _ _ a b s h =>
    wellFormedKept_of_same (s := applyLevels a b s) rfl rfl rfl rfl rfl rfl rfl (wellFormedKept_applyLevels a b s h)
  sampled := fun _ _ _ _ => by rw [lineLevel_state]; exact wellFormedKept_of_same rfl rfl rfl rfl rfl rfl rfl
  resetDriven := fun _ _ a b s h =>
    wellFormedKept_of_same (s := applyLevels a b s) rfl rfl rfl rfl rfl rfl rfl (wellFormedKept_applyLevels a b s h)
  level := wellFormedKept_applyLevels
  claim := fun m p s hm => wellFormedKept_afterClaim (fun _ => by rcases hm with rfl | rfl <;> trivial) p s
  giveUp := wellFormedKept_giveUp
  turn := fun _ _ => wellFormedKept_of_same rfl rfl rfl rfl rfl rfl rfl
  status := fun _ _ => wellFormedKept_of_same rfl rfl rfl rfl rfl rfl rfl
  rout := fun _ _ => wellFormedKept_of_same rfl rfl rfl rfl rfl rfl rfl
  jtagOut := fun _ _ => wellFormedKept_of_same rfl rfl rfl rfl rfl rfl rfl
  batch := fun _ => wellFormedKept_of_same rfl rfl rfl rfl rfl rfl rfl
  latch := fun _ _ => by unfold latchFault; split <;> exact wellFormedKept_of_same rfl rfl rfl rfl rfl rfl rfl
  accept := fun _ _ _ => wellFormedKept_of_same (by simp) (by simp) (by simp) (by simp) (by simp) (by simp) (by simp)
  apDelay := fun _ _ h => { h with apDelayFits := Nat.mod_lt _ (Nat.two_pow_pos _) }
  pincfg := fun _ _ _ => wellFormedKept_of_same rfl rfl rfl rfl rfl rfl rfl
  coeff := fun _ _ _ => wellFormedKept_of_same rfl rfl rfl rfl rfl rfl rfl
  offset := fun _ _ _ => wellFormedKept_of_same rfl rfl rfl rfl rfl rfl rfl
  base := fun _ _ _ h => { h with baseFits := Nat.mod_lt _ (Nat.two_pow_pos _) }

theorem exec_wellFormedKept {i : Instr} {s t : State} (h : exec i s = .next t) : WellFormedKept s t := by
  have e := respected_wellFormedKept.everywhere
  have same : ∀ {s t : State}, t.cfg = s.cfg → t.apDelay = s.apDelay → t.base = s.base → t.claimed = s.claimed →
      t.saved = s.saved → t.func = s.func → t.latch = s.latch → WellFormedKept s t := wellFormedKept_of_same
  by_cases hr : i = .runQueue
  · subst hr; exact e.runQueue (fun _ => same rfl rfl rfl rfl rfl rfl rfl) h
  by_cases hi : i = .init
  · subst hi
    exact e.init (fun _ => same rfl rfl rfl rfl rfl rfl rfl) (respected_wellFormedKept.initEffects
      (fun _ _ => same rfl rfl rfl rfl rfl rfl rfl) (fun _ _ => same rfl rfl rfl rfl rfl rfl rfl)
      fun _ => same rfl rfl rfl rfl rfl rfl rfl) h
  by_cases hq : i = .quit
  · subst hq; exact e.quit (fun _ => same rfl rfl rfl rfl rfl rfl rfl) h
  by_cases hs : ∃ k, i = .setSpeed k
  · obtain ⟨k, rfl⟩ := hs
    exact e.setSpeed (fun _ _ => same rfl rfl rfl rfl rfl rfl rfl) h
  · exact e.exec i hi hq hr (fun k hk => hs ⟨k, hk⟩) h

/-! The part that speaks of the phase: kept where the claims, the functions and the direction of SWDIO are. -/

/-- What the clauses about the phase read, as it was; outside a session the role map may change. -/
structure PhaseKept (s t : State) : Prop where
  cfg : t.cfg = s.cfg
  session : t.session = s.session
  tmode : t.tmode = s.tmode
  resHeld : t.resHeld = s.resHeld
  claimed : t.claimed = s.claimed
  swdioDir : t.swdioDir = s.swdioDir
  func : ∀ p, t.funcOf p = s.funcOf p
  pincfg : s.session = .active → t.pincfg = s.pincfg

theorem SessionInv.of_kept {s t : State} (h : SessionInv s) (k : PhaseKept s t) (hw : WellFormed t) : SessionInv t := by
  have hclaimed : ∀ p, t.isClaimed p = s.isClaimed p := fun p => by rw [State.isClaimed, k.claimed]; rfl
  have hpin : s.session = .active → ∀ r, pinOf r t = pinOf r s := fun hs r => pinOf_congr r k.cfg (k.pincfg hs)
  have hactive : ∀ {f}, modeAllows f s.tmode = true → s.session = .active := fun {f} hm =>
    h.activeMode.2 fun hn => by rw [hn] at hm; cases f <;> cases hm
  have hrole : s.session = .active → ∀ {r}, roleClaimed r s → roleClaimed r t := fun hs r => by
    rintro ⟨p, hp, hc⟩
    exact ⟨p, (hpin hs r).trans hp, (hclaimed p).trans hc⟩
  refine ⟨?_, ?_, fun hs p => ?_, fun p hp => ?_, fun hm r hr => ?_, fun hm r hr => ?_, fun hs r hr p hp => ?_, fun hm => ?_,
    hw.decided, hw.apDelayFits, hw.baseFits, ⟨hw.claimedWf, hw.savedWf, hw.funcWf, hw.latchWf⟩,
    fun p => ⟨hw.funcValid p, hw.savedValid p⟩⟩
  · rw [k.session, k.tmode]; exact h.activeMode
  · rw [k.session, k.resHeld]; exact h.activeHeld
  · rw [hclaimed]; exact h.inactiveUnclaimed (k.session ▸ hs) p
  · rw [k.cfg]; exact h.claimedValid p (hclaimed p ▸ hp)
  · rw [k.tmode] at hm; exact hrole (hactive hm) (h.jtagClaimed hm r hr)
  · rw [k.tmode] at hm; exact hrole (hactive hm) (h.swdClaimed hm r hr)
  · rw [k.session] at hs; rw [hclaimed]; exact h.resetClaimed hs r hr p ((hpin hs r).symm.trans hp)
  · rw [k.tmode] at hm
    obtain ⟨hdir, hfunc⟩ := h.swdioOut hm
    exact ⟨k.swdioDir.trans hdir, fun p hp => (k.func p).trans (hfunc p ((hpin (hactive hm) _).symm.trans hp))⟩

/-- An operation other than `INIT` and `QUIT` keeps the phase; what is left are the claims, the functions and the direction. -/
theorem phaseKept_of_frame {s t : State} (h : OperationFrame s t) (hclaimed : t.claimed = s.claimed)
    (hdir : t.swdioDir = s.swdioDir) (hfunc : ∀ p, t.funcOf p = s.funcOf p) : PhaseKept s t :=
  ⟨h.cfg, h.session, h.tmode, h.resHeld, hclaimed, hdir, hfunc, fun hs => (h.frozen hs).1⟩

theorem phaseKept_of_level {pins : List Nat} {s m t : State} (h : OperationFrame s t) (ha : LevelActivity pins s m)
    (hclaimed : t.claimed = m.claimed) (hdir : t.swdioDir = m.swdioDir) (hfunc : t.func = m.func) : PhaseKept s t :=
  phaseKept_of_frame h (hclaimed.trans ha.claimed) (hdir.trans ha.swdioDir) fun p => by
    rw [State.funcOf, hfunc, ha.func]; rfl

/-- An operation of the engine or of the sequences completes only in a session of SWD capability. -/
theorem enabled_of_engine {i : Instr} {s t : State} (hi : isRegisterOp i = true ∨ sentBits i ≠ []) (hlevel : i.level = .host)
    (he : exec i s = .next t) : enabled .swd s = true := by
  by_contra h
  obtain ⟨hwrite, hread, hsend⟩ := (engineRefusals s).1 (Bool.not_eq_true _ ▸ h)
  have refused : ∀ {r : Refusal}, exec i s ≠ .refused r := fun hr => by rw [hr] at he; cases he
  cases i with
  | writeReg cmd v => exact refused (hwrite cmd v)
  | readReg cmd => exact refused (hread cmd)
  | runQueue | switchLineReset | switchJtagToSwd | switchSwdToJtag => exact refused (hsend _ (by simp))
  | _ => simp_all [isRegisterOp, sentBits, Instr.level]

/-- The operations of the host other than `INIT` and `QUIT`, the pins reached directly. -/
theorem exec_phaseKept {i : Instr} {s t : State} (h : SessionInv s) (hd : s.cfg.impl = .direct) (hlevel : i.level = .host)
    (hinit : i ≠ .init) (hquit : i ≠ .quit) (he : exec i s = .next t) : PhaseKept s t := by
  have frame := exec_operationFrame hinit hquit he
  by_cases hstream : ∃ n ws, i = .execJtag n ws
  · obtain ⟨n, ws, rfl⟩ := hstream
    simp only [exec, execExecJtag] at he
    split at he
    · cases he
      exact phaseKept_of_frame frame rfl rfl fun _ => rfl
    · split at he
      · cases he
      · obtain ⟨_, m, hm, he⟩ := andThen_eq_ok.1 (finish_eq_next.1 he)
        cases he
        exact phaseKept_of_level frame (levelActivity_runStream hm) rfl rfl rfl
  by_cases hregister : isRegisterOp i = true
  · obtain ⟨t', he', hdone⟩ := registerOp_done ⟨h, enabled_of_engine (.inl hregister) hlevel he, hd⟩ hregister
    cases he.symm.trans he'
    exact phaseKept_of_frame frame (by rw [hdone.frame.fields]) (by rw [hdone.frame.fields]) hdone.frame.funcSame
  by_cases hb : sentBits i = []
  · obtain ⟨hregs, -⟩ := exec_quietStep (by simp [hlevel]) hinit hquit (fun n ws h => hstream ⟨n, ws, h⟩)
      (by simpa using hregister) hb he
    rw [hregs] at frame ⊢
    exact phaseKept_of_frame frame rfl rfl fun _ => rfl
  · have henabled := enabled_of_engine (.inr hb) hlevel he
    obtain ⟨-, -, -, -, -, hdir⟩ := SwdSession.ready ⟨h, henabled, hd⟩
    obtain ⟨m, hm, hregs⟩ := exec_sent h.decided henabled hdir hb he
    exact phaseKept_of_level frame (levelActivity_swdOut hm) (by rw [hregs]) (by rw [hregs]) (by rw [hregs])

/-! `INIT` and `QUIT`. -/

/-- A usable pin is one of the platform's. -/
theorem le_of_pinOf {r : Role} {s : State} {p : Nat} (h : pinOf r s = some p) : p ≤ s.cfg.pinMax := by
  obtain ⟨_, -, -, hp⟩ := validPin_eq_some.1 h
  exact hp

/-- A mode `INIT` sets allows a flavour whose roles have usable pins. -/
theorem modeAllows_initMode {jtag swd : Bool} : (modeAllows .jtag (initMode jtag swd) = true → jtag = true) ∧
    (modeAllows .swd (initMode jtag swd) = true → swd = true) ∧ (initMode jtag swd = .none → jtag = false ∧ swd = false) := by
  cases jtag <;> cases swd <;> decide

section BroughtUp

variable {s u t : State} (b : BringUp (claimsOf s) (levelsOf s) u t) (hu : ∀ p, u.isClaimed p = false)
include b hu

/-- From no claimed pin, the session's pins are claimed and no other. -/
theorem isClaimed_broughtUp (p : Nat) : t.isClaimed p = true ↔ p ∈ sessionPins s := by
  rw [b.claimed, hu, Bool.or_false, decide_eq_true_eq, map_fst_claimsOf]

theorem roleClaimed_broughtUp (hpin : ∀ r, pinOf r u = pinOf r s) {r : Role} (hr : r ∈ sessionRoles s)
    (hp : pinOf r s ≠ none) : roleClaimed r t := by
  obtain ⟨p, hp⟩ := Option.ne_none_iff_exists'.1 hp
  exact ⟨p, by rw [b.pinOf, hpin, hp], (isClaimed_broughtUp b hu p).2 (List.mem_filterMap.2 ⟨r, hr, hp⟩)⟩

omit hu in
/-- Of a session of SWD capability, the pin of SWDIO is an output: the roles claimed after TDO, the only input, are outputs. -/
theorem funcOf_broughtUp_swdio (hk : swdOk s = true) {p : Nat} (hp : pinOf .swdio s = some p) : t.funcOf p = .output := by
  by_cases hs : pinOf .srst s = some p
  · exact funcOf_broughtUp b (before := (if jtagOk s then [.tdo, .tck, .tms, .tdi] else []) ++ [.swclk, .swdio, .trst])
      (r := .srst) (after := []) (by simp [sessionRoles, hk]) hs (by simp)
  by_cases ht : pinOf .trst s = some p
  · exact funcOf_broughtUp b (before := (if jtagOk s then [.tdo, .tck, .tms, .tdi] else []) ++ [.swclk, .swdio])
      (r := .trst) (after := [.srst]) (by simp [sessionRoles, hk]) ht (by simp [hs])
  · exact funcOf_broughtUp b (before := (if jtagOk s then [.tdo, .tck, .tms, .tdi] else []) ++ [.swclk])
      (r := .swdio) (after := [.trst, .srst]) (by simp [sessionRoles, hk]) hp (by simp [hs, ht])

end BroughtUp

theorem mem_sessionRoles {s : State} : (jtagOk s = true → ∀ r ∈ [Role.tck, .tms, .tdi, .tdo], r ∈ sessionRoles s) ∧
    (swdOk s = true → ∀ r ∈ [Role.swclk, .swdio], r ∈ sessionRoles s) ∧ ∀ r ∈ [Role.trst, .srst], r ∈ sessionRoles s := by
  rw [sessionRoles]
  cases jtagOk s <;> cases swdOk s <;> decide

/-- The session `INIT` starts meets the invariant. -/
theorem sessionInv_started {s u : State} (h : SessionInv s) (hr : initRefuses s = false)
    (b : BringUp (claimsOf s) (levelsOf s) { s with resHeld := true, tmode := initMode (jtagOk s) (swdOk s) } u)
    (hdir : u.swdioDir = if swdOk s then .out else s.swdioDir)
    (hw : WellFormed (setStatus .ok { flushBatch u with session := .active })) :
    SessionInv (setStatus .ok { flushBatch u with session := .active }) := by
  obtain ⟨hj, hs, hn⟩ := modeAllows_initMode (jtag := jtagOk s) (swd := swdOk s)
  obtain ⟨rj, rs, rr⟩ := mem_sessionRoles (s := s)
  have hunclaimed := h.inactiveUnclaimed (session_of_initRefuses hr)
  have hclaimed : ∀ p, u.isClaimed p = true ↔ p ∈ sessionPins s := isClaimed_broughtUp b hunclaimed
  have hpin : ∀ r, pinOf r u = pinOf r s := b.pinOf
  have hmode : u.tmode = initMode (jtagOk s) (swdOk s) := by rw [b.fields]
  refine ⟨⟨fun _ hnone => ?_, fun _ => rfl⟩, ⟨fun _ => ?_, fun _ => rfl⟩, fun hs => ?_, fun p hp => ?_, fun hm r hr => ?_,
    fun hm r hr => ?_, fun _ r hr p hp => ?_, fun hm => ?_,
    hw.decided, hw.apDelayFits, hw.baseFits, ⟨hw.claimedWf, hw.savedWf, hw.funcWf, hw.latchWf⟩,
    fun p => ⟨hw.funcValid p, hw.savedValid p⟩⟩
  · have : initRefuses s = true := initRefuses_iff.2 (.inr (.inr (hn (hmode.symm.trans hnone))))
    rw [hr] at this; cases this
  · change u.resHeld = true
    rw [b.fields]
  · cases hs
  · obtain ⟨r, -, hrp⟩ := List.mem_filterMap.1 ((hclaimed p).1 hp)
    change p ≤ u.cfg.pinMax
    rw [b.cfg]
    exact le_of_pinOf hrp
  · have hk := hj (hmode ▸ hm)
    exact roleClaimed_broughtUp b hunclaimed (fun _ => rfl) (rj hk r hr) (jtagOk_iff.1 hk r hr)
  · have hk := hs (hmode ▸ hm)
    exact roleClaimed_broughtUp b hunclaimed (fun _ => rfl) (rs hk r hr) (swdOk_iff.1 hk r hr)
  · exact (hclaimed p).2 (List.mem_filterMap.2 ⟨r, rr r hr, (hpin r).symm.trans hp⟩)
  · have hk := hs (hmode ▸ hm)
    exact ⟨hdir.trans (if_pos hk), fun p hp => funcOf_broughtUp_swdio b hk ((hpin _).symm.trans hp)⟩

theorem exec_init_sessionInv {s t : State} (h : SessionInv s) (hd : s.cfg.impl = .direct) (he : exec .init s = .next t) :
    SessionInv t := by
  have hw : WellFormed t := exec_wellFormedKept he h.wellFormed
  rcases exec_init_next he with ⟨-, rfl⟩ | ⟨hr, m, hm, h'⟩
  · exact h.of_kept ⟨rfl, rfl, rfl, rfl, rfl, rfl, fun _ => rfl, fun _ => rfl⟩ hw
  rw [rendezvous_direct hd] at hm
  cases hm
  rcases h' with ⟨-, rfl⟩ | ⟨-, heff⟩
  · exact h.of_kept ⟨rfl, rfl, rfl, rfl, rfl, rfl, fun _ => rfl, fun _ => rfl⟩ hw
  have hdrawn : SessionInv (drawAcquire s).2 := h.of_fields rfl
  obtain ⟨u, hu, hdir, b⟩ := initEffects_runs (s := (drawAcquire s).2) hd
  cases heff.symm.trans hu
  exact sessionInv_started hdrawn hr b hdir hw

/-- After a `QUIT` that found a session no pin is claimed. -/
theorem exec_quit_sessionInv {s t : State} (h : SessionInv s) (hd : s.cfg.impl = .direct) (he : exec .quit s = .next t) :
    SessionInv t := by
  have hw : WellFormed t := exec_wellFormedKept he h.wellFormed
  rcases exec_quit_next he with ⟨-, rfl⟩ | ⟨-, m, hm, rfl⟩
  · exact h.of_kept ⟨rfl, rfl, rfl, rfl, rfl, rfl, fun _ => rfl, fun _ => rfl⟩ hw
  obtain ⟨u, -, hu, hclaimed, -⟩ := restoreAll_direct (claimedPins s) hd
  cases hm.symm.trans hu
  have hnone : ∀ p, m.isClaimed p = false := fun p => by
    rw [hclaimed]
    by_cases hp : s.isClaimed p = true
    · exact if_pos (mem_claimedPins (h.claimedValid p hp) hp)
    · rw [Bool.not_eq_true] at hp
      simp [hp]
  exact ⟨⟨(fun h => by cases h), fun h => absurd rfl h⟩, ⟨(fun h => by cases h), (fun h => by cases h)⟩, fun _ => hnone,
    fun p hp => (Bool.false_ne_true ((hnone p).symm.trans hp)).elim, (fun h => by cases h),
    (fun h => by cases h), (fun h => by cases h), (fun h => by cases h),
    hw.decided, hw.apDelayFits, hw.baseFits, ⟨hw.claimedWf, hw.savedWf, hw.funcWf, hw.latchWf⟩,
    fun p => ⟨hw.funcValid p, hw.savedValid p⟩⟩

/-! Every step. -/

/-- Every operation of the host keeps the invariant, the pins reached directly or not: it says nothing of how they are. -/
theorem exec_sessionInv {i : Instr} {s t : State} (h : SessionInv s) (hlevel : i.level = .host) (he : exec i s = .next t) :
    SessionInv t := by
  have hs : SessionInv (reached .direct ⟨[], 0⟩ s) := h.of_fields rfl
  have he' := exec_reached_direct he ⟨[], 0⟩
  suffices ht : SessionInv (reached .direct ⟨[], 0⟩ t) from ht.of_fields rfl
  by_cases hi : i = .init
  · subst hi; exact exec_init_sessionInv hs rfl he'
  by_cases hq : i = .quit
  · subst hq; exact exec_quit_sessionInv hs rfl he'
  · exact hs.of_kept (exec_phaseKept hs rfl hlevel hi hq he') (exec_wellFormedKept he' hs.wellFormed)

/-- What is left of a stream of the host's words when some are taken is the host's. -/
theorem takeHost_suffix {rs rest : List Request} {n : Nat} {ws : List CmdWord} (h : takeHost rs n = some (ws, rest)) :
    rest <:+ rs := by
  induction n generalizing rs ws with
  | zero => cases rs <;> cases h <;> exact List.suffix_rfl
  | succ n ih =>
    cases rs with
    | nil => cases h
    | cons r rs =>
      cases r with
      | component f => cases h
      | host w =>
        simp only [takeHost] at h
        split at h
        · next htake => cases h; exact (ih htake).trans (List.suffix_cons ..)
        · cases h

theorem hostOperation_cases (ws : List CmdWord) (s : State) :
    (∃ i, hostOperation ws s = .run i s ∧ i.level = .host) ∨ hostOperation ws s = .answered (setStatus .notSupported s) := by
  unfold hostOperation
  split
  · next i hi =>
    split
    · next hlevel => exact .inl ⟨i, rfl, hlevel⟩
    · exact .inr rfl
  · exact .inr rfl

theorem fetch_cases {s : State} (h : HostOnly s) :
    fetch s = .idle ∨ ∃ w rest, rest <:+ s.pending ∧
      let s' := loadOperands w { s with pending := rest }
      ((∃ i, fetch s = .run i s' ∧ i.level = .host) ∨ fetch s = .answered (setStatus .notSupported s')) := by
  cases hp : s.pending with
  | nil => exact .inl (by simp only [fetch, hp])
  | cons r rest =>
    obtain ⟨w, rfl⟩ := h r (by simp [hp])
    cases htake : takeHost rest (extraWords w) with
    | none => exact .inl (by simp only [fetch, hp, htake])
    | some taken =>
      obtain ⟨ws, rest'⟩ := taken
      have hf : fetch s = hostOperation (w :: ws) (loadOperands w { s with pending := rest' }) := by
        simp only [fetch, hp, htake]
      refine .inr ⟨w, rest', (takeHost_suffix htake).trans (List.suffix_cons ..), ?_⟩
      rw [hf]
      exact hostOperation_cases _ _

/-- Settles O10: the step waits, answers a word, or runs an operation of the host. -/
theorem stepKeepsInvariant : Obligations.StepKeepsInvariant := by
  intro s t h he
  obtain ⟨hi, hhost⟩ := h
  unfold step at he
  rcases fetch_cases hhost with hf | ⟨w, rest, hrest, ⟨i, hf, hlevel⟩ | hf⟩ <;> rw [hf] at he
  · cases he
    exact ⟨hi, hhost⟩
  · refine ⟨exec_sessionInv (hi.of_fields rfl) hlevel he, ?_⟩
    rw [HostOnly, (exec_inputsKept he).2]
    exact fun r hr => hhost r (hrest.subset hr)
  · cases he
    exact ⟨hi.of_fields rfl, fun r hr => hhost r (hrest.subset hr)⟩

end Sys2Proof.Machine
end

section
/-! A co-processor that falls silent (spec/60_exceptions.md R211, R212): the state in which each operation hangs. -/

namespace Sys2Proof.Machine

/-! The first request. -/

section FirstRequest

variable {s : State} {rest : List Bool} (hc : s.cfg.impl = .coproc) (hg : s.coprocSrc.given = false :: rest)
include hc hg

theorem levelWrite_silent (a b : List Nat) : levelWrite a b s = .stuck (withAnswers ⟨rest, s.coprocSrc.used⟩ s) := by
  simp only [levelWrite, rendezvous_silent hc hg, andThen_stuck]
  rfl

theorem exec_drive_silent {f : Flavour} (h : flavourReady f s) (clk tms data : Bool) :
    exec (.drive f clk tms data) s = .fault (.stuck (withAnswers ⟨rest, s.coprocSrc.used⟩ s)) := by
  have hlevels : ∃ ls, driveLevels f clk tms data s = .ok ls s := by
    cases f with
    | jtag =>
      obtain ⟨c, m, d, -, hc, hm, hd, -⟩ := jtagPins h
      exact ⟨[(c, clk), (m, tms), (d, data)], by simp [driveLevels, hc, hm, hd, needPin]⟩
    | swd =>
      obtain ⟨c, d, hc, hd⟩ := swdPins h
      exact ⟨[(c, clk), (d, data)], by simp [driveLevels, hc, hd, needPin]⟩
  obtain ⟨ls, hls⟩ := hlevels
  simp only [exec, execDrive, drive, h.1, ↓reduceIte, hls, andThen_ok, levelWrite_silent hc hg, andThen_stuck, finish_stuck]

theorem exec_read_silent {f : Flavour} (h : flavourReady f s) :
    exec (.read f) s = .fault (.stuck (withAnswers ⟨rest, s.coprocSrc.used⟩ s)) := by
  have hrole : sampledRole f ∈ flavourRoles f := by cases f <;> decide
  obtain ⟨p, hp⟩ := Option.ne_none_iff_exists'.1 (h.2 _ hrole)
  simp only [exec, execRead, readLine, h.1, ↓reduceIte, hp, needPin, andThen_ok, levelRead, rendezvous_silent hc hg,
    andThen_stuck, finish_stuck]
  rfl

theorem exec_reset_silent (hs : s.session = .active) (a b : Bool) :
    exec (.reset a b) s = .fault (.stuck (withAnswers ⟨rest, s.coprocSrc.used⟩ s)) := by
  simp only [exec, execReset, driveReset, hs, ↓reduceIte, levelWrite_silent hc hg, andThen_stuck, finish_stuck]

theorem claimPin_silent (m : PinMode) (p : Nat) : claimPin m p s = .stuck (withAnswers ⟨rest, s.coprocSrc.used⟩ s) := by
  simp only [claimPin, rendezvous_silent hc hg, andThen_stuck]
  rfl

theorem exec_claim_silent {x : PinOperand} (hx : validPin s.cfg x ≠ none) :
    exec (.claimOut x) s = .fault (.stuck (withAnswers ⟨rest, s.coprocSrc.used⟩ s)) ∧
      exec (.claimIn x) s = .fault (.stuck (withAnswers ⟨rest, s.coprocSrc.used⟩ s)) := by
  obtain ⟨p, hp⟩ := Option.ne_none_iff_exists'.1 hx
  constructor
  · simp only [exec, execClaimOut, hp, claimOut, needPin, andThen_ok, claimPin_silent hc hg, finish_stuck]
  · simp only [exec, execClaimIn, hp, claimIn, needPin, andThen_ok, claimPin_silent hc hg, finish_stuck]

theorem exec_restore_silent (x : PinOperand) :
    exec (.restore x) s = .fault (.stuck (withAnswers ⟨rest, s.coprocSrc.used⟩ s)) := by
  simp only [exec, execRestore]
  split
  · simp only [restorePin, rendezvous_silent hc hg, andThen_stuck, finish_stuck]; rfl
  · simp only [rendezvous_silent hc hg, finish_stuck]; rfl

theorem exec_init_silent (hr : initRefuses s = false) :
    exec .init s = .fault (.stuck (withAnswers ⟨rest, s.coprocSrc.used⟩ s)) := by
  simp only [exec, execInit, hr, Bool.false_eq_true, ↓reduceIte, acquire, rendezvous_silent hc hg, andThen_stuck,
    finish_stuck]
  rfl

end FirstRequest

/-! `QUIT` gives the claimed pins back one after another. -/

/-- R176: a `QUIT` of more than `k` claimed pins, silent after `k` answers. -/
theorem exec_quit_silent {s : State} {k : Nat} {rest : List Bool} (hc : s.cfg.impl = .coproc) (hs : s.session = .active)
    (hk : k < (claimedPins s).length) (hg : s.coprocSrc.given = List.replicate k true ++ false :: rest) :
    exec .quit s = .fault (.stuck ((((claimedPins s).take k).map giveUp).foldl (fun t f => f t)
      (withAnswers ⟨rest, s.coprocSrc.used⟩ s))) := by
  have hplain : ∀ f ∈ (claimedPins s).map giveUp, PlainStep f := fun f hf => by
    obtain ⟨p, -, rfl⟩ := List.mem_map.1 hf
    exact plainStep_giveUp p
  have hrun := runSteps_silent hplain hc (by simpa using hk) hg
  simp [exec, execQuit, hs, restoreAll_eq_runSteps, hrun, List.map_take]

/-! A register operation. -/

theorem registerOperation_stuck {frame : State → Res Unit} {s h : State} (hq : s.qcode = .ok)
    (hf : frame (openBatch s) = .stuck h) : registerOperation frame s = .stuck h := by
  change (if s.qcode = .ok then (frame (openBatch s)).andThen fun _ s => returnQCode s else _) = _
  rw [if_pos hq, hf]
  rfl

/-- A register operation that is not skipped hangs where its frame does. -/
theorem exec_registerOp_stuck {i : Instr} {s h : State} (he : enabled .swd s = true) (hi : isRegisterOp i = true)
    (hq : s.qcode = .ok) (hwrite : ∀ cmd v, i = .writeReg cmd v → writeFrame (header cmd) v (openBatch s) = .stuck h)
    (hread : ∀ cmd, i = .readReg cmd → readFrame (header cmd) (openBatch s) = .stuck h) :
    exec i s = .fault (.stuck h) := by
  rcases exec_registerOp he hi with ⟨cmd, v, rfl, hexec⟩ | ⟨cmd, rfl, hexec⟩
  · rw [hexec, registerOperation_stuck hq (hwrite cmd v rfl), finish_stuck]
  · rw [hexec, registerOperation_stuck hq (hread cmd rfl), finish_stuck]

theorem driveInstrs_ne_nil {bs : List Bool} (h : bs ≠ []) : driveInstrs bs ≠ [] := by
  cases bs with
  | nil => exact absurd rfl h
  | cons b bs => simp [driveInstrs]

/-- The request is the first thing a frame sends. -/
theorem requestAndAck_silent {s : State} {rest : List Bool} (hc : s.cfg.impl = .coproc) (h : flavourReady .swd s)
    (hg : s.coprocSrc.given = false :: rest) (hdr : Byte) :
    requestAndAck hdr s = .stuck (withAnswers ⟨rest, s.coprocSrc.used⟩ s) := by
  obtain ⟨u, hu, hstuck⟩ := runAll_silent (k := 0) (oneRequest_driveInstrs (wireBits hdr)) h hc
    (List.length_pos_iff.2 (driveInstrs_ne_nil (wireBits_ne_nil (by decide) hdr))) hg
  cases hu
  rw [requestAndAck, sendRequest, swdOut_eq_runAll, hstuck]
  rfl

/-! `EXEC_JTAG` is the run of its primitives. -/

theorem runPrimitive_eq {w : StreamWord} {i : Instr} (h : primitiveInstr w = some i) (s : State) :
    valueless (runPrimitive w s) = asPart (exec i s) := by
  cases w with
  | drive a b c =>
    cases h
    simp only [exec, execDrive, asPart_finish, runPrimitive, valueless_andThen]
    exact valueless_unit _
  | read =>
    cases h
    simp only [exec, execRead, asPart_finish, runPrimitive, valueless_andThen]
    rfl
  | reset a b =>
    cases h
    simp only [exec, execReset, asPart_finish, runPrimitive, valueless_andThen]
    exact valueless_unit _
  | other w => cases h

theorem runStream_eq_runAll {ws : List StreamWord} (h : ∀ w ∈ ws, primitiveInstr w ≠ none) (s : State) :
    valueless (runStream ws s) = runAll (ws.filterMap primitiveInstr) s := by
  induction ws generalizing s with
  | nil => rfl
  | cons w ws ih =>
    obtain ⟨i, hi⟩ := Option.ne_none_iff_exists'.1 (h w (by simp))
    rw [List.filterMap_cons_some hi, runAll_cons, ← runPrimitive_eq hi, runStream]
    cases runPrimitive w s with
    | ok b t =>
      rw [andThen_ok, valueless_ok, andThen_ok, ← ih (fun v hv => h v (by simp [hv]))]
      simp only [valueless_andThen]
      exact (andThen_const (runStream ws t) fun t => .ok () t).trans (valueless_unit _)
    | stuck h => rfl
    | refused e => rfl

theorem valueless_eq_stuck {α : Type} {r : Res α} {h : State} : valueless r = .stuck h ↔ r = .stuck h := by
  cases r <;> simp

/-- The session a primitive of a stream runs in is there before and after it. -/
theorem session_execAll {ops : List Instr} {s t : State} (hops : ∀ i ∈ ops, i ≠ .init ∧ i ≠ .quit)
    (h : execAll ops s = .next t) : t.session = s.session := by
  induction ops generalizing s with
  | nil => cases h; rfl
  | cons i is ih =>
    rw [execAll] at h
    split at h
    · next m hm =>
      obtain ⟨hi, hq⟩ := hops i (by simp)
      exact (ih (fun j hj => hops j (by simp [hj])) h).trans (exec_operationFrame hi hq hm).session
    · cases h
    · cases h

/-- A primitive that hangs has a session: without one it is refused. -/
theorem session_of_stuck {w : StreamWord} {i : Instr} {s : State} {e : Fault} (hw : primitiveInstr w = some i)
    (h : exec i s = .fault e) : s.session = .active := by
  by_contra hs
  have he : enabled .jtag s = false := by simp [enabled, hs]
  cases w with
  | drive a b c => cases hw; simp [exec, execDrive, drive_refused he] at h
  | read => cases hw; simp [exec, execRead, readLine_refused he] at h
  | reset a b => cases hw; simp [exec, execReset, driveReset, hs] at h
  | other w => cases hw

theorem primitiveInstr_not_session {w : StreamWord} {i : Instr} (h : primitiveInstr w = some i) : i ≠ .init ∧ i ≠ .quit := by
  cases w with
  | drive _ _ _ | read | reset _ _ => cases h; simp
  | other _ => cases h

/-- An `EXEC_JTAG` hangs where one of its primitives does. -/
theorem exec_execJtag_stuck {s u h : State} {n : Word} {before after : List StreamWord} {w : StreamWord} {i : Instr}
    (hn : ∀ v ∈ before ++ w :: after, primitiveInstr v ≠ none) (hbefore : execAll (before.filterMap primitiveInstr) s = .next u)
    (hw : primitiveInstr w = some i) (hi : exec i u = .fault (.stuck h)) :
    exec (.execJtag n (before ++ w :: after)) s = .fault (.stuck h) := by
  have hkept : u.session = s.session := session_execAll (fun j hj => by
    obtain ⟨v, -, hv⟩ := List.mem_filterMap.1 hj
    exact primitiveInstr_not_session hv) hbefore
  have hs : s.session = .active := hkept ▸ session_of_stuck hw hi
  have hrun : runStream (before ++ w :: after) s = .stuck h := by
    rw [← valueless_eq_stuck, runStream_eq_runAll hn, List.filterMap_append, List.filterMap_cons_some hw, runAll_append,
      runAll_eq_ok.2 hbefore, andThen_ok, runAll_cons, hi]
    rfl
  rw [exec_execJtag_active hs hn, hrun]
  rfl

/-! The six clauses. -/

/-- What the operations that only send leave when they hang. -/
theorem exec_sent_silent {s : State} {i : Instr} {k : Nat} {rest : List Bool} (hc : s.cfg.impl = .coproc)
    (hdec : s.cfg.toDecided = Decided.spec) (h : flavourReady .swd s) (hdata : ∀ v p, i = .swdData v p → s.swdioDir = .out)
    (hk : k < (driveInstrs (sentBits i)).length) (hg : s.coprocSrc.given = List.replicate k true ++ false :: rest) :
    ∃ u, execAll ((driveInstrs (sentBits i)).take k) s = .next u ∧
      exec i s = .fault (.stuck { u with coprocSrc := ⟨rest, u.coprocSrc.used⟩ }) := by
  obtain ⟨u, hu, hstuck⟩ := runAll_silent (oneRequest_driveInstrs (sentBits i)) h hc hk hg
  rw [← swdOut_eq_runAll] at hstuck
  refine ⟨u, hu, ?_⟩
  have hb : sentBits i ≠ [] := fun hb => by simp [hb, driveInstrs] at hk
  rcases sends_cases hb with hi | hi | rfl
  · rw [exec_row_sends hdec hi hb hdata, hstuck, finish_stuck]
  · rw [exec_switch_sends hdec h.1 hi, hstuck, andThen_stuck, finish_stuck]
  · rw [exec_runQueue_sends hdec h.1, hstuck, andThen_stuck, finish_stuck]

/-- Where a register operation hangs: in its frame, or in the idle cycles after it. -/
theorem exec_registerOp_silent {s : State} {i : Instr} {k : Nat} {rest : List Bool} (hc : s.cfg.impl = .coproc)
    (hi : SessionInv s) (he : enabled .swd s = true) (hr : isRegisterOp i = true) (hq : s.qcode = .ok)
    (hg : s.coprocSrc.given = List.replicate k true ++ false :: rest) :
    (k < (frameInstrs i s).length → ∃ u, execAll ((frameInstrs i s).take k) (openBatch s) = .next u ∧
      exec i s = .fault (.stuck { u with coprocSrc := ⟨rest, u.coprocSrc.used⟩ })) ∧
    (∀ j, k = (frameInstrs i s).length + j → j < (settleInstrs i s).length →
      ∃ m u, execAll (frameInstrs i s) (openBatch s) = .next m ∧
        execAll ((settleInstrs i s).take j) (delivered i s m) = .next u ∧
        exec i s = .fault (.stuck { u with coprocSrc := ⟨rest, u.coprocSrc.used⟩ })) := by
  have hopen : SessionInv (openBatch s) := hi.of_fields rfl
  have hangs : ∀ {frame : State → Res Unit} {h : State}, exec i s = finish (registerOperation frame s) →
      frame (openBatch s) = .stuck h → exec i s = .fault (.stuck h) := fun hexec hf => by
    rw [hexec, registerOperation_stuck hq hf, finish_stuck]
  rcases exec_registerOp he hr with ⟨cmd, v, rfl, hexec⟩ | ⟨cmd, rfl, hexec⟩
  · obtain ⟨hframe, hsettle⟩ := writeFrame_silent hopen he hc hq cmd v hg
    exact ⟨fun hk => (hframe hk).imp fun _ ⟨hu, hf⟩ => ⟨hu, hangs hexec hf⟩,
      fun j hj hk => (hsettle j hj hk).imp fun _ h => h.imp fun _ ⟨hm, hu, hf⟩ => ⟨hm, hu, hangs hexec hf⟩⟩
  · obtain ⟨hframe, hsettle⟩ := readFrame_silent hopen he hc hq cmd hg
    exact ⟨fun hk => (hframe hk).imp fun _ ⟨hu, hf⟩ => ⟨hu, hangs hexec hf⟩,
      fun j hj hk => (hsettle j hj hk).imp fun _ h => h.imp fun _ ⟨hm, hu, hf⟩ => ⟨hm, hu, hangs hexec hf⟩⟩

/-- An `INIT` whose `acquire()` succeeded hangs in its steps. -/
theorem exec_init_steps_silent {s : State} {src : Source} {k : Nat} {rest : List Bool} (hc : s.cfg.impl = .coproc)
    (hr : initRefuses s = false) (ha : s.acquireSrc.draw Config.freeAcquire = (true, src)) (hk : k < (initSteps s).length)
    (hg : s.coprocSrc.given = List.replicate (k + 1) true ++ false :: rest) :
    exec .init s = .fault (.stuck (((initSteps s).take k).foldl (fun t step => step t) { s with
      acquireSrc := src, resHeld := true, tmode := initMode (jtagOk s) (swdOk s)
      coprocSrc := ⟨rest, s.coprocSrc.used⟩ })) := by
  have hstuck := initEffects_silent
    (s := { s with acquireSrc := src, coprocSrc := ⟨List.replicate k true ++ false :: rest, s.coprocSrc.used⟩ }) hc hk rfl
  simp only [exec, execInit, hr, acquire, rendezvous_answered hc hg, drawAcquire, ha, andThen_ok, Bool.false_eq_true, ↓reduceIte]
  exact congrArg finish hstuck

/-- A `QUIT` has given back, each once and in its saved mode, the first of the claimed pins. -/
theorem quit_silent {s : State} {k : Nat} {rest : List Bool} (hc : s.cfg.impl = .coproc) (hi : SessionInv s)
    (hs : s.session = .active) (hk : k < (claimedPins s).length)
    (hg : s.coprocSrc.given = List.replicate k true ++ false :: rest) :
    ∃ (back : List Nat) (h : State), exec .quit s = .fault (.stuck h) ∧
      back.length = k ∧ back.Nodup ∧ (∀ p ∈ back, s.isClaimed p = true) ∧
      (∀ p, h.isClaimed p = if p ∈ back then false else s.isClaimed p) ∧
      (∀ p, h.funcOf p = if p ∈ back then s.savedMode p else s.funcOf p) ∧
      h.trace = s.trace ++ (back.map fun p => .fn p (s.savedMode p)) ∧
      h = { s with
        func := h.func, claimed := h.claimed, trace := h.trace, coprocSrc := ⟨rest, s.coprocSrc.used⟩ } := by
  obtain ⟨hnodup, hclaimed⟩ := claimedPins_wf hi.wellFormed.claimedWf
  have hback : ∀ p ∈ (claimedPins s).take k, s.isClaimed p = true := fun p hp => hclaimed p (List.mem_of_mem_take hp)
  have hn : ((claimedPins s).take k).Nodup := hnodup.sublist (List.take_sublist ..)
  obtain ⟨h1, h2, h3, h4⟩ := foldl_giveUp (s := withAnswers ⟨rest, s.coprocSrc.used⟩ s) hn hback
  exact ⟨(claimedPins s).take k, _, exec_quit_silent hc hs hk hg, List.length_take_of_le hk.le, hn, hback, h1, h2, h3, h4⟩

/-- Settles O60. -/
theorem silentCoprocessorHangs : Obligations.SilentCoprocessorHangs := by
  refine ⟨fun s rest hc hg hung hhung => ?_, fun s i k rest hc hdec h hdata hk hg => exec_sent_silent hc hdec h hdata hk hg,
    fun s u h n before after w i hn hbefore hw hi => exec_execJtag_stuck hn hbefore hw hi,
    fun s i k rest hc hi he hr hq hg => exec_registerOp_silent hc hi he hr hq hg,
    fun s src k rest hc hr ha hk hg => exec_init_steps_silent hc hr ha hk hg,
    fun s k rest hc hi hs hk hg => quit_silent hc hi hs hk hg⟩
  obtain rfl : hung = withAnswers ⟨rest, s.coprocSrc.used⟩ s := hhung
  refine ⟨fun f clk tms data h => exec_drive_silent hc hg h clk tms data, fun f h => exec_read_silent hc hg h,
    fun trst srst hs => exec_reset_silent hc hg hs trst srst,
    fun output h => (oneRequest_driveDirection output).silent s rest h hc hg, fun x hx => exec_claim_silent hc hg hx,
    exec_restore_silent hc hg, exec_init_silent hc hg, fun p hs hv hp => ?_, fun i h hi hq => ?_,
    fun n w ws hready hn => ?_⟩
  · exact exec_quit_silent (k := 0) hc hs (List.length_pos_of_mem (mem_claimedPins hv hp)) hg
  · have hrequest : ∀ cmd, requestAndAck (header cmd) (openBatch s) = .stuck (openBatch (withAnswers ⟨rest, s.coprocSrc.used⟩ s)) :=
      fun cmd => requestAndAck_silent (s := openBatch s) hc h hg (header cmd)
    refine exec_registerOp_stuck h.1 hi hq (fun cmd v _ => ?_) fun cmd _ => ?_
    · rw [writeFrame, hrequest]; rfl
    · rw [readFrame, hrequest]; rfl
  · obtain ⟨i, hi⟩ := Option.ne_none_iff_exists'.1 (hn w (by simp))
    refine exec_execJtag_stuck (before := []) hn rfl hi ?_
    cases w with
    | drive a b c =>
      cases hi
      exact exec_drive_silent hc hg (hready.resolve_right (by simp)) a b c
    | read =>
      cases hi
      exact exec_read_silent hc hg (hready.resolve_right (by simp))
    | reset a b =>
      cases hi
      exact exec_reset_silent hc hg (hready.elim (fun h => session_of_enabled h.1) And.left) a b
    | other _ => cases hi

end Sys2Proof.Machine
end
